-- ==== Sys2Proof/Word.lean ====
section
/-! DEFINITION. The machine's word types: what the spec treats as bits. -/

namespace Sys2Proof

/-- One byte of OUT or STAGE (20_memory.md R60). -/
abbrev Byte := BitVec 8

/-- One 32-bit register or command word (10_state.md R20, 30_encoding.md R80). -/
abbrev Word := BitVec 32

/-- The pattern of one COEF element. An element has W bits, W = 32 or 64 (00_scope.md R5, 20_memory.md R61);
it is held zero-extended to 64 bits (log 7). -/
abbrev Elem := BitVec 64

/-- A 4-bit value: a block code, a nibble, the count field N, BW.FREE. -/
abbrev Nibble := BitVec 4

end Sys2Proof
end

