-- ==== Sys2Proof/Config.lean ====
section
/-! DEFINITION. What an implementation fixes (00_scope.md R5) and the free values (93_implementation_defined.md). -/

namespace Sys2Proof.Config

/-- The element width W, "32 or 64" (00_scope.md R5). -/
inductive Width where
  | w32
  | w64
deriving DecidableEq, Repr

/-- W as a number. -/
def Width.bits : Width → Nat
  | .w32 => 32
  | .w64 => 64

/-- The parameters of 00_scope.md R5 that are left open. The core shows them to the Host in CONFIG, NMAX_REG,
OUT_BYTES_REG and STAGE_BYTES_REG (10_state.md R35 to R38), so State holds them as constant registers, and a
statement about every state is a statement about every choice of them (log 2). -/
structure Params where
  width      : Width
  nmax       : Word
  outBytes   : Word
  stageBytes : Word
deriving DecidableEq, Repr

/-- The ranges of 00_scope.md R5: 1 ≤ NMAX ≤ 2^31 − 1, 1 ≤ OUT_BYTES ≤ 2^32 − 1, 1 ≤ STAGE_BYTES ≤ 2^32 − 1. -/
abbrev Params.Legal (p : Params) : Prop :=
  1 ≤ p.nmax.toNat ∧ p.nmax.toNat < 2 ^ 31 ∧ 1 ≤ p.outBytes.toNat ∧ 1 ≤ p.stageBytes.toNat

/-- The parameters of the one core that `State.reset` shows. DESIGN CHOICE (log 1, unsafe): the spec leaves them open;
95_test_vectors.md assumes W = 32, NMAX ≥ 4096, OUT_BYTES ≥ 4096, STAGE_BYTES ≥ 16. -/
def chosen : Params :=
  { width := .w32, nmax := 65536, outBytes := 65536, stageBytes := 4096 }

/-- The `n`-th value the hardware leaves unspecified ("any value", 00_scope.md section 5; log 5). It has no body, so
nothing can be proved of it. -/
opaque freeValue : Nat → BitVec 64

/-- How many further host transactions the core takes between an acceptance and its completion: finite and
unspecified (70_reset_and_hazards.md R279; log 4). It has no body. -/
opaque latency : Nat → Nat

end Sys2Proof.Config
end

