-- ==== Sys2Proof/Syntax.lean ====
section
/-! DEFINITION. The commands: one constructor per row of spec/opcode_table.json (30_encoding.md R83). -/

namespace Sys2Proof

/-- A command with the fields of its word that it uses (30_encoding.md R80, R83). Every other operand comes from LATCH. -/
inductive Instr where
  /-- NOP, 44_driver.md R223. -/
  | nop
  /-- COMPRESS, 44_driver.md R222. -/
  | compress
  /-- TRANSFORM, 41_transform.md R150. -/
  | transform
  /-- QUANTIZE, 42_quantize.md R170. -/
  | quantize
  /-- ENCODE, 44_driver.md R210. -/
  | encode
  /-- QT_ENCODE, 43_quadtree.md R180. -/
  | qtEncode
  /-- BW_RESET, 40_bitwriter.md R121. -/
  | bwReset
  /-- BW_BITS value, n: IMM8 and N, 40_bitwriter.md R130. -/
  | bwBits (value : Byte) (n : Nibble)
  /-- BW_NIBBLE: IMM8 whole; its upper half is ignored by the command, not by the encoding, 40_bitwriter.md R123. -/
  | bwNibble (imm8 : Byte)
  /-- BW_NIBBLES, 40_bitwriter.md R124. -/
  | bwNibbles
  /-- BW_RAW, 40_bitwriter.md R125. -/
  | bwRaw
  /-- BW_FINISH, 40_bitwriter.md R126. -/
  | bwFinish
deriving DecidableEq, Repr

end Sys2Proof
end

