-- ==== Sys2Proof/Machine/State.lean ====
section
/-! DEFINITION. The machine's state (10_state.md, 20_memory.md), the reasons a run stops, and the state at power-on. -/

namespace Sys2Proof.Machine

/-- SEQ, the sequencer (10_state.md R40). STATUS.BUSY is read from it. -/
inductive Seq where
  | idle
  | busy
deriving DecidableEq, Repr

/-- The error causes of 60_exceptions.md R241. -/
inductive Cause where
  | none
  | capacity
  | alloc
  | badArg
  | illegal
deriving DecidableEq, Repr

/-- The stored STATUS fields (10_state.md R22). BUSY is read from `Seq`, BW_OVF from `Writer.ovf`. -/
structure Status where
  done    : Bool
  err     : Bool
  result  : Bool
  cause   : Cause
  cmdLost : Bool
deriving DecidableEq, Repr

/-- The configuration registers (10_state.md R23 to R27). -/
structure ConfigRegs where
  nx       : Word
  ny       : Word
  scale    : Word
  capacity : Word
  arg0     : Word
  arg1     : Word
  arg2     : Word
  arg3     : Word
deriving DecidableEq, Repr

/-- LATCH: the command word and the copies taken at acceptance (10_state.md R45). -/
structure Latch where
  cmd : Word
  cfg : ConfigRegs
deriving DecidableEq, Repr

/-- The bit-stream writer's fields (10_state.md R44). Its buffer is the memory OUT. -/
structure Writer where
  cap      : Word
  cur      : Word
  acc      : Byte
  free     : Nibble
  bitcount : BitVec 64
  ovf      : Bool
deriving DecidableEq, Repr

/-- NBP: nbitplanes[0], [1] and [2] (10_state.md R32). -/
structure PlaneCounts where
  c0 : Byte
  c1 : Byte
  c2 : Byte
deriving DecidableEq, Repr

/-- A memory space: the units written so far, by index (20_memory.md R60). The canonical form is `Memory.wf`; an
unlisted unit holds no value (log 6). -/
abbrev Store (α : Type) := List (Nat × α)

/-- The Host's transactions (20_memory.md R60). -/
inductive Txn where
  | regRead (off : Nat)
  | regWrite (off : Nat) (v : Word)
  | coefRead (e : Nat)
  | coefWrite (e : Nat) (v : Elem)
  | outRead (b : Nat)
  | outWrite (b : Nat) (v : Byte)
  | stageRead (b : Nat)
  | stageWrite (b : Nat) (v : Byte)
  | reset
deriving DecidableEq, Repr

/-- What a read transaction returns to the Host. -/
inductive Reply where
  | reg (v : Word)
  | coef (v : Elem)
  | byte (v : Byte)
deriving DecidableEq, Repr

/-- The core, its memories, and the Host's side of the boundary. The last four fields are the model's own (logs 3, 4, 5). -/
structure State where
  /-- The constant registers CONFIG, NMAX_REG, OUT_BYTES_REG, STAGE_BYTES_REG. -/
  params    : Config.Params
  seq       : Seq
  status    : Status
  cfg       : ConfigRegs
  latch     : Latch
  bytesUsed : Word
  nbp       : PlaneCounts
  dc        : BitVec 64
  bw        : Writer
  coef      : Store Elem
  out       : List Host.Cell
  stage     : List Host.Cell
  /-- The Host's transactions not yet issued, oldest first. -/
  inbox     : List Txn
  /-- What the Host's reads returned, newest first. -/
  replies   : List Reply
  /-- Host transactions still to come before the running command completes. -/
  delay     : Nat
  /-- How many free values have been drawn. -/
  draws     : Nat
deriving DecidableEq, Repr

/-- Why a run stops: a host-duty violation (60_exceptions.md R258), or a read of a memory unit that holds no value
(93_implementation_defined.md U9). An error of a command is no fault: it completes with STATUS.ERR. -/
inductive Fault where
  /-- A REG access at an offset that is not a multiple of 4, or ≥ 0x100 (10_state.md R39). Raised by the Host's RegRead
  and RegWrite. Safe: the spec has the model stop. -/
  | regOffset
  /-- A COEF index ≥ NMAX (20_memory.md R65). Raised by CoefRead and CoefWrite. Safe: the spec has the model stop. -/
  | coefIndex
  /-- An OUT index ≥ OUT_BYTES (20_memory.md R65). Raised by OutRead and OutWrite. Safe: the spec has the model stop. -/
  | outIndex
  /-- A STAGE index ≥ STAGE_BYTES (20_memory.md R65). Raised by StageRead and StageWrite. Safe: the spec has the model
  stop. -/
  | stageIndex
  /-- A CoefWrite while BUSY (20_memory.md R73). Raised by CoefWrite. Safe: the spec has the model stop. -/
  | coefWriteBusy
  /-- An OutWrite while BUSY (20_memory.md R73). Raised by OutWrite. Safe: the spec has the model stop. -/
  | outWriteBusy
  /-- A StageWrite while BUSY (20_memory.md R73). Raised by StageWrite. Safe: the spec has the model stop. -/
  | stageWriteBusy
  /-- A COEF element never written since power-on is read (U9, log 6). Raised by CoefRead, TRANSFORM, QUANTIZE, ENCODE,
  COMPRESS, QT_ENCODE. Safe: the hardware goes on with any value. -/
  | coefUnwritten
  /-- An OUT byte never written since power-on is read (U9, log 6). Raised by OutRead. Safe: the hardware goes on with
  any value. -/
  | outUnwritten
  /-- A STAGE byte never written since power-on is read (U9, log 6). Raised by StageRead, BW_NIBBLES, BW_RAW. Safe: the
  hardware goes on with any value. -/
  | stageUnwritten
deriving DecidableEq, Repr

/-- Why the model gives no meaning. -/
inductive Refusal where
  /-- A command whose arm of `exec` has no meaning yet; no arm raises it now. Safe: the model stops. -/
  | notModelled (mnemonic : String)
deriving DecidableEq, Repr

/-- The STATUS fields after reset: 0x0000_0000 (70_reset_and_hazards.md R270). -/
def Status.reset : Status :=
  { done := false, err := false, result := false, cause := .none, cmdLost := false }

/-- The configuration registers after reset: all 0 (70_reset_and_hazards.md R270). -/
def ConfigRegs.reset : ConfigRegs :=
  { nx := 0, ny := 0, scale := 0, capacity := 0, arg0 := 0, arg1 := 0, arg2 := 0, arg3 := 0 }

/-- LATCH after reset: unobservable (70_reset_and_hazards.md R270); 0 here, DESIGN CHOICE (log 13). -/
def Latch.reset : Latch := { cmd := 0, cfg := ConfigRegs.reset }

/-- The writer after reset: all 0 but FREE = 8 (70_reset_and_hazards.md R270). -/
def Writer.reset : Writer :=
  { cap := 0, cur := 0, acc := 0, free := 8, bitcount := 0, ovf := false }

/-- The core with parameters `p` right after power-on (70_reset_and_hazards.md R270): the memories hold no value yet
(log 6), the Host has issued nothing (logs 3, 4, 5). -/
def State.powerOn (p : Config.Params) : State :=
  { params := p, seq := .idle, status := Status.reset, cfg := ConfigRegs.reset, latch := Latch.reset
    bytesUsed := 0, nbp := { c0 := 0, c1 := 0, c2 := 0 }, dc := 0, bw := Writer.reset
    coef := [], out := [], stage := [], inbox := [], replies := [], delay := 0, draws := 0 }

/-- The machine right after power-on, with the parameters of log 1. -/
def State.reset : State := State.powerOn Config.chosen

end Sys2Proof.Machine
end

