-- ==== Sys2Proof/Machine/Arith.lean ====
section
/-! DEFINITION. Element arithmetic, bit strings and byte order (00_scope.md section 5, R8, R9; 20_memory.md R66). -/

namespace Sys2Proof.Machine

open Sys2Proof (Byte Word Elem Nibble)

/-- `wrap_W(n)` read back as a signed value (00_scope.md section 5, R8). -/
def wrap (w : Nat) (n : Int) : Int := Int.bmod n (2 ^ w)

/-- Whether `wrap_W` leaves `n` as it is: the IN_RANGE test of one value (93_implementation_defined.md U4). -/
def fits (w : Nat) (n : Int) : Bool := wrap w n == n

/-- `sint_W(p)`: the signed value of an element's pattern (00_scope.md section 5). -/
def sint (w : Nat) (p : Elem) : Int := wrap w p.toNat

/-- The W-bit pattern of a value, zero-extended (00_scope.md section 5; log 7). -/
def pattern (w : Nat) (n : Int) : Elem := BitVec.ofNat 64 (n % 2 ^ w).toNat

/-- `x >> k`: the arithmetic right shift, floor(x / 2^k) (00_scope.md section 5). -/
def asr (x : Int) (k : Nat) : Int := x / 2 ^ k

/-- `x & −2^k`: the low k bits cleared (41_transform.md R152, R154). -/
def clearLow (k : Nat) (x : Int) : Int := asr x k * 2 ^ k

/-- `ceil_log2(n)`: the least k with 2^k ≥ n, and ceil_log2(0) = 0 (00_scope.md section 5). -/
def ceilLog2 (n : Nat) : Nat := if n ≤ 1 then 0 else Nat.log2 (n - 1) + 1

/-- `bitlen(n)`: the least k with n < 2^k (44_driver.md R215). -/
def bitLen (n : Nat) : Nat := if n = 0 then 0 else Nat.log2 n + 1

/-- Bit b of a value's W-bit pattern, b < W (43_quadtree.md R181). -/
def bitOf (w : Nat) (x : Int) (b : Nat) : Bool := (x % 2 ^ w).toNat.testBit b

/-- Byte k of an n-byte big-endian field, most significant byte first (30_encoding.md R90). -/
def bigEndian (n : Nat) (v : Nat) : List Byte :=
  (List.range n).map fun k => BitVec.ofNat 8 (v / 256 ^ (n - 1 - k))

/-- The low n bits of v, most significant first (40_bitwriter.md R122). -/
def msbBits (n : Nat) (v : Nat) : List Bool :=
  (List.range n).map fun i => v.testBit (n - 1 - i)

/-- One byte from up to 8 bits, the first at bit 7, left-justified with zero fill (20_memory.md R66). -/
def byteOfBits (bs : List Bool) : Byte :=
  BitVec.ofNat 8 ((List.range 8).foldl (fun a i => 2 * a + (bs.getD i false).toNat) 0)

/-- The first n bytes of a bit string, 8 bits a byte. -/
def packBytes : Nat → List Bool → List Byte
  | 0, _ => []
  | n + 1, bs => byteOfBits (bs.take 8) :: packBytes n (bs.drop 8)

/-- A bit string as bytes, the last one padded with zeros (30_encoding.md R99, R100). -/
def packBits (bs : List Bool) : List Byte := packBytes ((bs.length + 7) / 8) bs

end Sys2Proof.Machine
end

