-- ==== Sys2Proof/Machine/Ops.lean ====
section
/-! DEFINITION. The shared operations: the memory spaces, the writer's primitives, completion and error completion,
acceptance, and drawing values the spec leaves open. -/

namespace Sys2Proof.Machine

open Sys2Proof (Byte Word Elem Nibble)

/-! ## Memory spaces (20_memory.md R60 to R65) -/

/-- The canonical form: indices strictly rising. An unlisted unit holds no value (log 6), so no entry can equal what an
unlisted unit reads as. -/
abbrev Memory.wf {α : Type} (m : Store α) : Prop := List.Pairwise (fun a b => a.1 < b.1) m

/-- Every listed index lies in a space of depth n (20_memory.md R65). -/
abbrev Memory.within {α : Type} (n : Nat) (m : Store α) : Prop := ∀ c ∈ m, c.1 < n

/-- One unit; none where nothing has been written since power-on (log 6). -/
def Memory.read {α : Type} : Store α → Nat → Option α
  | [], _ => none
  | (b, v) :: m, a => if a = b then some v else Memory.read m a

/-- Write one unit, keeping the canonical form. -/
def Memory.write {α : Type} : Store α → Nat → α → Store α
  | [], a, v => [(a, v)]
  | (b, u) :: m, a, v =>
    if a < b then (a, v) :: (b, u) :: m
    else if a = b then (a, v) :: m
    else (b, u) :: Memory.write m a v

/-- `MemWrite(S, a, n, v)`: consecutive units from index a (00_scope.md section 5). -/
def Memory.writeList {α : Type} : Store α → Nat → List α → Store α
  | m, _, [] => m
  | m, a, v :: vs => Memory.writeList (Memory.write m a v) (a + 1) vs

/-- The units at the given indices; none where one of them holds no value. -/
def Memory.readAll {α : Type} (m : Store α) : List Nat → Option (List α)
  | [] => some []
  | a :: as =>
    match Memory.read m a, Memory.readAll m as with
    | some v, some vs => some (v :: vs)
    | _, _ => none

/-! ## Values the spec leaves open (00_scope.md section 5 "any"; log 5) -/

/-- The k-th of the values drawn next. -/
def State.drawn (s : State) (k : Nat) : BitVec 64 := Config.freeValue (s.draws + k)

/-- n drawn values, from the k-th on. -/
def State.drawnList (s : State) (k n : Nat) : List (BitVec 64) :=
  (List.range n).map fun i => s.drawn (k + i)

/-- n drawn elements of W bits, from the k-th drawn value on. -/
def State.drawnElems (s : State) (k n : Nat) : List Elem :=
  (s.drawnList k n).map fun v => pattern s.params.width.bits v.toNat

/-- n drawn bytes, from the k-th drawn value on. -/
def State.drawnBytes (s : State) (k n : Nat) : List Byte :=
  (s.drawnList k n).map fun v => v.setWidth 8

/-! ## The bit-stream writer's primitives (40_bitwriter.md R120, R122, R126) -/

/-- The writer and its buffer OUT (10_state.md R44). -/
structure Sink where
  bw  : Writer
  out : List Host.Cell
deriving DecidableEq, Repr

/-- The state's writer and buffer. -/
def State.sink (s : State) : Sink := { bw := s.bw, out := s.out }

/-- The state with another writer and buffer. -/
def State.withSink (s : State) (k : Sink) : State := { s with bw := k.bw, out := k.out }

/-- `Emit(b)`: store one byte at the cursor if capacity remains, else drop it (40_bitwriter.md R120). -/
def Sink.emit (k : Sink) (b : Byte) : Sink :=
  if k.bw.cur < k.bw.cap then
    { bw := { k.bw with cur := k.bw.cur + 1 }, out := Memory.write k.out k.bw.cur.toNat b }
  else { k with bw := { k.bw with ovf := true } }

/-- The fields PutBits and Finish leave: ACC the low `8 − free` bits of t, FREE, and BITCOUNT grown by n. -/
def Sink.setBits (k : Sink) (t free n : Nat) : Sink :=
  { k with bw := { k.bw with
      acc := BitVec.ofNat 8 (t % 2 ^ (8 - free)), free := BitVec.ofNat 4 free
      bitcount := k.bw.bitcount + BitVec.ofNat 64 n } }

/-- `PutBits(v, n)`, 0 ≤ n ≤ 8 (40_bitwriter.md R122). -/
def Sink.putBits (k : Sink) (v n : Nat) : Sink :=
  let t := k.bw.acc.toNat * 2 ^ n + v % 2 ^ n
  let free := k.bw.free.toNat
  if free ≤ n then
    (k.emit (BitVec.ofNat 8 (t / 2 ^ (n - free)))).setBits t (free + 8 - n) n
  else k.setBits t (free - n) n

/-- One PutBits for each (value, count) pair, in order. -/
def Sink.putAll (k : Sink) (chunks : List (Nat × Nat)) : Sink :=
  chunks.foldl (fun k c => k.putBits c.1 c.2) k

/-- `finish()`: flush the pending bits, left-justified, and count the padding (40_bitwriter.md R126). -/
def Sink.finish (k : Sink) : Sink :=
  let free := k.bw.free.toNat
  if free < 8 then
    (k.emit (BitVec.ofNat 8 (k.bw.acc.toNat * 2 ^ free))).setBits 0 8 free
  else k

/-- The writer right after a writer reset with capacity `cap` (40_bitwriter.md R121). -/
def Writer.fresh (cap : Word) : Writer :=
  { cap := cap, cur := 0, acc := 0, free := 8, bitcount := 0, ovf := false }

/-! ## Acceptance, completion, error completion -/

/-- Acceptance of a command word (10_state.md R41). -/
def State.accept (s : State) (c : Word) : State :=
  { s with
    latch := { cmd := c, cfg := s.cfg }
    status := { done := false, err := false, result := false, cause := .none, cmdLost := false }
    seq := .busy }

/-- Completion with the outcome given: BUSY 0, DONE 1, ERR and CAUSE set, SEQ idle (10_state.md R43). -/
def State.finishWith (s : State) (err : Bool) (cause : Cause) : State :=
  { s with
    seq := .idle
    status := { s.status with done := true, err := err, cause := cause }
    delay := 0 }

/-- Completion with success: CAUSE = 0 (10_state.md R43, 60_exceptions.md R240). -/
def State.complete (s : State) : State := s.finishWith false .none

/-- `raise Error(c)`, the one shared error completion (60_exceptions.md R248). Nothing is saved and nothing redirected;
there is no return (R249): the status stays until the next acceptance. -/
def State.raise (s : State) (c : Cause) : State := s.finishWith true c

end Sys2Proof.Machine
end

