-- ==== Sys2Proof/Machine/Flags.lean ====
section
/-! DEFINITION. The STATUS register's word (10_state.md R22) and the other packed registers (R30 to R33). -/

namespace Sys2Proof.Machine

open Sys2Proof (Byte Word Elem Nibble)

/-- The cause codes of 60_exceptions.md R241. -/
def Cause.code : Cause → Nibble
  | .none => 0
  | .capacity => 1
  | .alloc => 2
  | .badArg => 3
  | .illegal => 4

/-- STATUS.BUSY (10_state.md R22, R40). -/
def State.busy (s : State) : Bool := s.seq == .busy

/-- The STATUS word: BUSY 0, DONE 1, ERR 2, RESULT 3, CAUSE 7:4, BW_OVF 8, CMD_LOST 9, the rest 0 (10_state.md R22).
BW_OVF is a copy of BW.OVF, which a command changes at its completion (R43), so while BUSY it shows the flag as it was
(log 9). -/
def State.statusWord (s : State) : Word :=
  (0 : BitVec 22) ++ BitVec.ofBool s.status.cmdLost ++ BitVec.ofBool s.bw.ovf ++ s.status.cause.code
    ++ BitVec.ofBool s.status.result ++ BitVec.ofBool s.status.err ++ BitVec.ofBool s.status.done
    ++ BitVec.ofBool s.busy

/-- BW_STATE: ACC in bits 7:0, FREE in bits 11:8 (10_state.md R30). -/
def Writer.stateWord (b : Writer) : Word := (0 : BitVec 20) ++ b.free ++ b.acc

/-- NBP: nbitplanes[0], [1], [2] in bits 7:0, 15:8, 23:16 (10_state.md R32). -/
def PlaneCounts.word (n : PlaneCounts) : Word := (0 : Byte) ++ n.c2 ++ n.c1 ++ n.c0

/-- Bits 31:0 of a 64-bit quantity, the `_LO` register (20_memory.md R66). -/
def low32 (v : BitVec 64) : Word := v.extractLsb' 0 32

/-- Bits 63:32 of a 64-bit quantity, the `_HI` register (20_memory.md R66). -/
def high32 (v : BitVec 64) : Word := v.extractLsb' 32 32

/-- CONFIG: W in bits 7:0 (10_state.md R35). -/
def configWord (p : Config.Params) : Word := BitVec.ofNat 32 p.width.bits

end Sys2Proof.Machine
end

