-- ==== Sys2Proof/Machine/Operands.lean ====
section
/-! DEFINITION. What a running command reads: its latched operands (10_state.md R27, R45), the argument checks of
60_exceptions.md R243, R244 and R247, and its memory operands (20_memory.md R71). -/

namespace Sys2Proof.Machine

open Sys2Proof (Byte Word Elem Nibble)

/-- W of this core. -/
def State.w (s : State) : Nat := s.params.width.bits

/-- LATCH.NX as a signed number (10_state.md R23). -/
def State.nx (s : State) : Int := s.latch.cfg.nx.toInt

/-- LATCH.NY as a signed number (10_state.md R24). -/
def State.ny (s : State) : Int := s.latch.cfg.ny.toInt

/-- LATCH.SCALE as a signed number (10_state.md R25). -/
def State.scale (s : State) : Int := s.latch.cfg.scale.toInt

/-- The latched rows as a count; the geometry checks make NX ≥ 1 before it is used (R9). -/
def State.rows (s : State) : Nat := s.nx.toNat

/-- The latched columns as a count, also the row stride (10_state.md R24). -/
def State.cols (s : State) : Nat := s.ny.toNat

/-- "NX < 1 or NY < 1 (signed)" (60_exceptions.md R244). -/
def State.badGeometry (s : State) : Bool := decide (s.nx < 1) || decide (s.ny < 1)

/-- "CAPACITY > OUT_BYTES" (60_exceptions.md R244). -/
def State.badCapacity (s : State) : Bool := decide (s.params.outBytes < s.latch.cfg.capacity)

/-- "nx·ny > NMAX" (60_exceptions.md R243). -/
def State.tooLarge (s : State) : Bool := decide (s.params.nmax.toNat < s.rows * s.cols)

/-- The checks of TRANSFORM and QUANTIZE, in the order of R247. -/
def State.geometryError (s : State) : Option Cause :=
  if s.badGeometry then some .badArg
  else if s.tooLarge then some .alloc
  else none

/-- The checks of ENCODE and COMPRESS (44_driver.md R210), in the order of R247. -/
def State.encodeError (s : State) : Option Cause :=
  if s.badGeometry then some .badArg
  else if s.badCapacity then some .badArg
  else if s.tooLarge then some .alloc
  else none

/-- "ARG0 > STAGE_BYTES" (60_exceptions.md R244). -/
def State.badStageCount (s : State) : Bool := decide (s.params.stageBytes < s.latch.cfg.arg0)

/-- The values of the COEF elements at the given indices, as `sint_W` (20_memory.md R61). -/
def State.loadCoef (s : State) (es : List Nat) : Option (List Int) :=
  (Memory.readAll s.coef es).map fun ps => ps.map (sint s.w)

/-- The image: COEF[0 .. nx·ny − 1] in row-major order (20_memory.md R62). -/
def State.loadImage (s : State) : Option (List Int) := s.loadCoef (List.range (s.rows * s.cols))

/-- The state with values stored in COEF from index 0 (20_memory.md R61). -/
def State.storeImage (s : State) (img : List Int) : State :=
  { s with coef := Memory.writeList s.coef 0 (img.map (pattern s.w)) }

/-- The first n bytes of STAGE (20_memory.md R64). -/
def State.loadStage (s : State) (n : Nat) : Option (List Byte) := Memory.readAll s.stage (List.range n)

/-- Element (i, j) of a row-major array with row stride ny (20_memory.md R62). -/
def pixel (img : List Int) (ny i j : Nat) : Int := img.getD (i * ny + j) 0

end Sys2Proof.Machine
end

