-- ==== Sys2Proof/Machine/BitWriter.lean ====
section
/-! DEFINITION. The bit-stream writer's commands (40_bitwriter.md R121 to R131). -/

namespace Sys2Proof.Machine

open Sys2Proof (Byte Word Elem Nibble)

/-- BW_RESET: a new stream over OUT with the latched CAPACITY (40_bitwriter.md R121). -/
def execBwReset (s : State) : Host.Outcome State Fault Refusal :=
  if s.badCapacity then .next (s.raise .badArg)
  else .next { s with bw := Writer.fresh s.latch.cfg.capacity }.complete

/-- BW_BITS value, n (40_bitwriter.md R130): ILLEGAL for n > 8 (R130, 30_encoding.md R84; log 20). -/
def execBwBits (value : Byte) (n : Nibble) (s : State) : Host.Outcome State Fault Refusal :=
  if 8 < n.toNat then .next (s.raise .illegal)
  else .next (s.withSink (s.sink.putBits value.toNat n.toNat)).complete

/-- BW_NIBBLE: IMM8[3:0], 4 bits (40_bitwriter.md R123). -/
def execBwNibble (imm8 : Byte) (s : State) : Host.Outcome State Fault Refusal :=
  .next (s.withSink (s.sink.putBits (imm8.toNat % 16) 4)).complete

/-- The PutBits calls of BW_NIBBLES: STAGE[k][3:0], 4 bits each (40_bitwriter.md R124). -/
def nibbleChunks (bytes : List Byte) : List (Nat × Nat) := bytes.map fun b => (b.toNat % 16, 4)

/-- BW_NIBBLES: ARG0 nibbles from STAGE (40_bitwriter.md R124). -/
def execBwNibbles (s : State) : Host.Outcome State Fault Refusal :=
  if s.badStageCount then .next (s.raise .badArg)
  else
    match s.loadStage s.latch.cfg.arg0.toNat with
    | none => .fault .stageUnwritten
    | some bytes => .next (s.withSink (s.sink.putAll (nibbleChunks bytes))).complete

/-- The state with STATUS.RESULT set (40_bitwriter.md R125). -/
def State.setResult (s : State) (r : Bool) : State := { s with status := { s.status with result := r } }

/-- The writer after raw bytes: stored from the cursor on, the cursor past them; ACC, FREE, BITCOUNT and OVF kept
(40_bitwriter.md R125). -/
def Sink.putRaw (k : Sink) (bytes : List Byte) : Sink :=
  { bw := { k.bw with cur := k.bw.cur + BitVec.ofNat 32 bytes.length }
    out := Memory.writeList k.out k.bw.cur.toNat bytes }

/-- BW_RAW: ARG0 bytes from STAGE to OUT at the cursor, or nothing (40_bitwriter.md R125). -/
def execBwRaw (s : State) : Host.Outcome State Fault Refusal :=
  if s.badStageCount then .next (s.raise .badArg)
  else if s.bw.cap.toNat < s.bw.cur.toNat + s.latch.cfg.arg0.toNat then .next (s.setResult false).complete
  else
    match s.loadStage s.latch.cfg.arg0.toNat with
    | none => .fault .stageUnwritten
    | some bytes => .next ((s.withSink (s.sink.putRaw bytes)).setResult true).complete

/-- BW_FINISH: flush a final partial byte (40_bitwriter.md R126). -/
def execBwFinish (s : State) : Host.Outcome State Fault Refusal :=
  .next (s.withSink s.sink.finish).complete

end Sys2Proof.Machine
end

