-- ==== Sys2Proof/Machine/Rom.lean ====
section
/-! DEFINITION. The constants of the stream: MAGIC, the markers, the Huffman table ROM (30_encoding.md R89, R94, R95).
PRESUMED by the spec itself from the legacy format (92_eei_decisions.md D4 to D7; log 15). -/

namespace Sys2Proof.Machine

open Sys2Proof (Byte Nibble)

/-- MAGIC, "the two bytes 0xDD, 0x99, in that order" (30_encoding.md R89). -/
def Rom.magic : List Byte := [0xDD, 0x99]

/-- The marker of a quadtree plane (30_encoding.md R94). -/
def Rom.quadtreeMarker : Nat := 0xF

/-- The marker of a literal plane (30_encoding.md R94). -/
def Rom.literalMarker : Nat := 0x0

/-- The terminator nibble (30_encoding.md R98). -/
def Rom.terminator : Nat := 0x0

/-- The Huffman table ROM: (code, length) of the symbols 0 to 15 (30_encoding.md R95). -/
def Rom.huffman : List (Nat × Nat) :=
  [(0x3E, 6), (0x00, 3), (0x01, 3), (0x08, 4), (0x02, 3), (0x09, 4), (0x1A, 5), (0x1B, 5),
   (0x03, 3), (0x1C, 5), (0x0A, 4), (0x1D, 5), (0x0B, 4), (0x1E, 5), (0x3F, 6), (0x0C, 4)]

/-- The (code, length) pair of one symbol, a block code. -/
def Rom.code (s : Nibble) : Nat × Nat := Rom.huffman.getD s.toNat (0, 0)

end Sys2Proof.Machine
end

