-- ==== Sys2Proof/Machine/Quadtree.lean ====
section
/-! DEFINITION. QT_ENCODE: the quadtree bitplane encoder (43_quadtree.md R180 to R190). -/

namespace Sys2Proof.Machine

open Sys2Proof (Byte Word Elem Nibble)

/-- A quadtree grid of block codes, in row-major order (43_quadtree.md R182, R183). -/
structure Grid where
  rows  : Nat
  cols  : Nat
  codes : List Nibble
deriving DecidableEq, Repr

/-- The code at (r, c); 0 outside the grid (30_encoding.md R101). -/
def Grid.at (g : Grid) (r c : Nat) : Nibble :=
  if r < g.rows ∧ c < g.cols then g.codes.getD (r * g.cols + c) 0 else 0

/-- A block code from its four members: bit 3 (2r, 2c), bit 2 (2r, 2c+1), bit 1 (2r+1, 2c), bit 0 (2r+1, 2c+1)
(30_encoding.md R101). -/
def blockCode (m : Nat → Nat → Bool) (r c : Nat) : Nibble :=
  BitVec.ofBool (m (2 * r) (2 * c)) ++ BitVec.ofBool (m (2 * r) (2 * c + 1))
    ++ BitVec.ofBool (m (2 * r + 1) (2 * c)) ++ BitVec.ofBool (m (2 * r + 1) (2 * c + 1))

/-- The grid whose codes pair up an R × C array of members 2×2; members outside the array are unset
(30_encoding.md R101). -/
def pairUp (nr nc : Nat) (m : Nat → Nat → Bool) : Grid :=
  let rows := (nr + 1) / 2
  let cols := (nc + 1) / 2
  { rows := rows, cols := cols
    codes := (List.range (rows * cols)).map fun e =>
      blockCode (fun i j => decide (i < nr) && decide (j < nc) && m i j) (e / cols) (e % cols) }

/-- The finest grid of plane b of an nqx × nqy block with values `px` (43_quadtree.md R181, R182). -/
def finestGrid (w nqx nqy : Nat) (px : Nat → Nat → Int) (b : Nat) : Grid :=
  pairUp nqx nqy fun i j => bitOf w (px i j) b

/-- Reduction: which codes of the grid below are nonzero (43_quadtree.md R183). -/
def Grid.reduce (g : Grid) : Grid := pairUp g.rows g.cols fun r c => g.at r c != 0

/-- A grid and its successive reductions, n of them. -/
def Grid.chain : Nat → Grid → List Grid
  | 0, g => [g]
  | n + 1, g => g :: Grid.chain n g.reduce

/-- The grids of one plane: Lq − 1 reductions where Lq ≥ 1, max(Lq, 1) grids in all (43_quadtree.md R184). -/
def planeGrids (w nqx nqy : Nat) (px : Nat → Nat → Int) (b : Nat) : List Grid :=
  Grid.chain (ceilLog2 (max nqx nqy) - 1) (finestGrid w nqx nqy px b)

/-- The code list C: the nonzero codes of each grid in row-major order, finest first (43_quadtree.md R185). -/
def codeList (gs : List Grid) : List Nibble := gs.flatMap fun g => g.codes.filter (· != 0)

/-- T, the packed size in bits (43_quadtree.md R186). -/
def packedSize (c : List Nibble) : Nat := (c.map fun s => (Rom.code s).2).sum

/-- bmax = ceil(nqx2·nqy2 / 2) (43_quadtree.md R186). -/
def budget (nqx nqy : Nat) : Nat := (((nqx + 1) / 2) * ((nqy + 1) / 2) + 1) / 2

/-- The budget test: the literal fallback iff ⌊T/8⌋ ≥ max(bmax, 1) (43_quadtree.md R186). -/
def takesLiteral (nqx nqy : Nat) (c : List Nibble) : Bool := decide (max (budget nqx nqy) 1 ≤ packedSize c / 8)

/-- The quadtree path: marker, then the codes in reverse list order, or the placeholder (43_quadtree.md R187). -/
def quadtreeChunks (c : List Nibble) : List (Nat × Nat) :=
  (Rom.quadtreeMarker, 4) :: (if c = [] then [Rom.code 0] else c.reverse.map Rom.code)

/-- The literal path: marker, then every finest-grid code as a nibble (43_quadtree.md R188). -/
def literalChunks (g : Grid) : List (Nat × Nat) :=
  (Rom.literalMarker, 4) :: g.codes.map fun s => (s.toNat, 4)

/-- QTPlane: the PutBits calls (value, count) of one plane (43_quadtree.md R186 to R188). -/
def planeChunks (w nqx nqy : Nat) (px : Nat → Nat → Int) (b : Nat) : List (Nat × Nat) :=
  let c := codeList (planeGrids w nqx nqy px b)
  if takesLiteral nqx nqy c then literalChunks (finestGrid w nqx nqy px b) else quadtreeChunks c

/-- The planes from b = nbp − 1 down to 0 (43_quadtree.md R189). -/
def quadrantChunks (w nqx nqy : Nat) (px : Nat → Nat → Int) : (nbp : Nat) → List (Nat × Nat)
  | 0 => []
  | b + 1 => planeChunks w nqx nqy px b ++ quadrantChunks w nqx nqy px b

/-- The last COEF index of the block, ARG0 + (ARG1 − 1)·NY + (ARG2 − 1), where ARG1, ARG2 ≥ 1 (43_quadtree.md R180). -/
def ConfigRegs.blockEnd (c : ConfigRegs) : Nat :=
  c.arg0.toNat + (c.arg1.toNat - 1) * c.ny.toInt.toNat + (c.arg2.toNat - 1)

/-- The argument checks of QT_ENCODE, in the order of 60_exceptions.md R247 (43_quadtree.md R180). -/
def State.quadrantError (s : State) : Option Cause :=
  let c := s.latch.cfg
  if s.ny < 1 ∨ s.w < c.arg3.toNat then some .badArg
  else if 0 < c.arg1.toNat ∧ 0 < c.arg2.toNat ∧ s.params.nmax.toNat ≤ c.blockEnd then some .badArg
  else if s.params.nmax.toNat < c.arg1.toNat * c.arg2.toNat then some .alloc
  else none

/-- The COEF indices of the block's elements in row-major order: base + i·ny + j (43_quadtree.md R180). With no plane
nothing is read (log 16). -/
def State.blockIndices (s : State) : List Nat :=
  let c := s.latch.cfg
  if c.arg3 = 0 then []
  else (List.range (c.arg1.toNat * c.arg2.toNat)).map fun e =>
    c.arg0.toNat + e / c.arg2.toNat * s.cols + e % c.arg2.toNat

/-- The PutBits calls of the whole command on a loaded block, row-major with nqy columns (43_quadtree.md R180). -/
def State.blockChunks (s : State) (vals : List Int) : List (Nat × Nat) :=
  let c := s.latch.cfg
  quadrantChunks s.w c.arg1.toNat c.arg2.toNat (pixel vals c.arg2.toNat) c.arg3.toNat

/-- The end of QT_ENCODE: CAPACITY iff BW.OVF = 1, with its effects kept (43_quadtree.md R190). -/
def State.finishQuadrant (s : State) : State := if s.bw.ovf then s.raise .capacity else s.complete

/-- QT_ENCODE (43_quadtree.md R180). -/
def execQtEncode (s : State) : Host.Outcome State Fault Refusal :=
  match s.quadrantError with
  | some c => .next (s.raise c)
  | none =>
    match s.loadCoef s.blockIndices with
    | none => .fault .coefUnwritten
    | some vals => .next (s.withSink (s.sink.putAll (s.blockChunks vals))).finishQuadrant

end Sys2Proof.Machine
end

