-- ==== Sys2Proof/Machine/Quantize.lean ====
section
/-! DEFINITION. QUANTIZE: the scalar quantization unit (42_quantize.md R170 to R172). -/

namespace Sys2Proof.Machine

/-- The bias `d = (s + 1) / 2 − 1`, for s ≥ 2 (42_quantize.md R171). -/
def quantBias (s : Int) : Int := Int.tdiv (s + 1) 2 - 1

/-- x with the bias added away from zero, before its wrap_W (42_quantize.md R171). -/
def quantExact (x s : Int) : Int := if 0 < x then x + quantBias s else x - quantBias s

/-- `Q(x, s)` (42_quantize.md R171); `/` truncates. -/
def quantize (w : Nat) (x s : Int) : Int :=
  if s ≤ 1 then x else wrap w (Int.tdiv (wrap w (quantExact x s)) s)

/-- QUANTIZE (42_quantize.md R170). A SCALE ≤ 1 is a no-op (R172), so nothing is read (log 16). -/
def execQuantize (s : State) : Host.Outcome State Fault Refusal :=
  match s.geometryError with
  | some c => .next (s.raise c)
  | none =>
    if s.scale ≤ 1 then .next s.complete
    else
      match s.loadImage with
      | none => .fault .coefUnwritten
      | some img => .next (s.storeImage (img.map fun x => quantize s.w x s.scale)).complete

end Sys2Proof.Machine
end

