-- ==== Sys2Proof/Machine/Transform.lean ====
section
/-! DEFINITION. TRANSFORM: the hierarchical integer wavelet transform engine (41_transform.md R150 to R161). -/

namespace Sys2Proof.Machine

/-- The shift of iteration k: 0 for k = 0, else 1 (41_transform.md R152). -/
def levelShift (k : Nat) : Nat := if k = 0 then 0 else 1

/-- How an output is rounded and masked (41_transform.md R154). -/
inductive Rounding where
  /-- hc: stored unrounded and unmasked. -/
  | none
  /-- hx and hy: Rnd1. -/
  | one
  /-- h0: Rnd2. -/
  | two
deriving DecidableEq, Repr

/-- Rnd1 and Rnd2 before their wrap_W (41_transform.md R152, R154): prnd = 2^k, prnd2 = 2^(k+1), nrnd2 = 2^(k+1) − 1. -/
def roundExact (k : Nat) : Rounding → Int → Int
  | .none, h => h
  | .one, h => clearLow (k + 1) (if 0 ≤ h then h + 2 ^ k else h)
  | .two, h => clearLow (k + 2) (if 0 ≤ h then h + 2 ^ (k + 1) else h + (2 ^ (k + 1) - 1))

/-- Rnd1 and Rnd2 (41_transform.md R154); hc is kept as it is. -/
def roundW (w k : Nat) : Rounding → Int → Int
  | .none, h => h
  | .one, h => wrap w (roundExact k .one h)
  | .two, h => wrap w (roundExact k .two h)

/-- An output before any wrap_W: the exact sum or difference (scaled up by a one-sided block's left shift), the right
shift that follows its wrap, and its rounding. -/
structure BlockOut where
  exact    : Int
  shift    : Nat
  rounding : Rounding
deriving DecidableEq, Repr

/-- Full 2×2 block: the output stored at (row parity, column parity) (41_transform.md R153). -/
def fullBlock (k : Nat) (a00 a01 a10 a11 : Int) : Bool → Bool → BlockOut
  | false, false => { exact := a11 + a10 + a01 + a00, shift := levelShift k, rounding := .two }
  | true, false => { exact := a11 + a10 - a01 - a00, shift := levelShift k, rounding := .one }
  | false, true => { exact := a11 - a10 + a01 - a00, shift := levelShift k, rounding := .one }
  | true, true => { exact := a11 - a10 - a01 + a00, shift := levelShift k, rounding := .none }

/-- Trailing column or trailing row: two members, the sum stored at the first and the difference at the second
(41_transform.md R155, R156). -/
def pairBlock (k : Nat) (a0 a1 : Int) : Bool → BlockOut
  | false => { exact := (a1 + a0) * 2 ^ (1 - levelShift k), shift := 0, rounding := .two }
  | true => { exact := (a1 - a0) * 2 ^ (1 - levelShift k), shift := 0, rounding := .one }

/-- Corner: one member (41_transform.md R157). -/
def cornerBlock (k : Nat) (a : Int) : BlockOut :=
  { exact := a * 2 ^ (2 - levelShift k), shift := 0, rounding := .two }

/-- The output of iteration k at (i, j) of the active nxtop × nytop rectangle: that of the one block (i, j) lies in
(41_transform.md R153 to R158). -/
def blockOut (k ny nxtop nytop : Nat) (img : List Int) (i j : Nat) : BlockOut :=
  let r := 2 * (i / 2)
  let c := 2 * (j / 2)
  let px := pixel img ny
  if r + 1 < nxtop then
    if c + 1 < nytop then
      fullBlock k (px r c) (px r (c + 1)) (px (r + 1) c) (px (r + 1) (c + 1)) (i % 2 == 1) (j % 2 == 1)
    else pairBlock k (px r c) (px (r + 1) c) (i % 2 == 1)
  else
    if c + 1 < nytop then pairBlock k (px r c) (px r (c + 1)) (j % 2 == 1)
    else cornerBlock k (px r c)

/-- The value stored for an output: wrapped, shifted right, rounded (41_transform.md R153 to R157). -/
def BlockOut.value (w k : Nat) (o : BlockOut) : Int := roundW w k o.rounding (asr (wrap w o.exact) o.shift)

/-- Rebuild an image, each active element from its row and column, the rest kept (41_transform.md R161). -/
def mapActive (ny nxtop nytop : Nat) (img : List Int) (f : Nat → Nat → Int) : List Int :=
  (List.range img.length).map fun e =>
    if e / ny < nxtop ∧ e % ny < nytop then f (e / ny) (e % ny) else img.getD e 0

/-- All blocks of iteration k (41_transform.md R153 to R158). -/
def blockStage (w k ny nxtop nytop : Nat) (img : List Int) : List Int :=
  mapActive ny nxtop nytop img fun i j => (blockOut k ny nxtop nytop img i j).value w k

/-- Where the shuffle takes position p of n from: the even positions first, in order, then the odd ones
(41_transform.md R159). -/
def shuffleSource (n p : Nat) : Nat :=
  if p < (n + 1) / 2 then 2 * p else 2 * (p - (n + 1) / 2) + 1

/-- The row and column shuffles of one iteration (41_transform.md R159). -/
def shuffleStage (ny nxtop nytop : Nat) (img : List Int) : List Int :=
  mapActive ny nxtop nytop img fun i j => pixel img ny (shuffleSource nxtop i) (shuffleSource nytop j)

/-- The iterations from k on, `levels` of them, over the active rectangle (41_transform.md R151, R160). -/
def transformFrom (w ny : Nat) : (levels k nxtop nytop : Nat) → List Int → List Int
  | 0, _, _, _, img => img
  | levels + 1, k, nxtop, nytop, img =>
    transformFrom w ny levels (k + 1) ((nxtop + 1) / 2) ((nytop + 1) / 2)
      (shuffleStage ny nxtop nytop (blockStage w k ny nxtop nytop img))

/-- The number of levels, `ceil_log2(max(nx, ny))` (41_transform.md R151). -/
def levelCount (nx ny : Nat) : Nat := ceilLog2 (max nx ny)

/-- HTransform(nx, ny) (41_transform.md R151 to R160). -/
def hTransform (w nx ny : Nat) (img : List Int) : List Int :=
  transformFrom w ny (levelCount nx ny) 0 nx ny img

/-- TRANSFORM (41_transform.md R150). With no level (a 1×1 image) nothing is read (log 16). -/
def execTransform (s : State) : Host.Outcome State Fault Refusal :=
  match s.geometryError with
  | some c => .next (s.raise c)
  | none =>
    if levelCount s.rows s.cols = 0 then .next s.complete
    else
      match s.loadImage with
      | none => .fault .coefUnwritten
      | some img => .next (s.storeImage (hTransform s.w s.rows s.cols img)).complete

end Sys2Proof.Machine
end

