-- ==== Sys2Proof/Machine/Driver.lean ====
section
/-! DEFINITION. The encoder driver: ENCODE, COMPRESS and NOP (44_driver.md R210 to R223). -/

namespace Sys2Proof.Machine

open Sys2Proof (Byte Word Elem Nibble)

/-! ## The stages of ENCODE on an image (44_driver.md R213 to R218) -/

/-- Step 3: element 0 zeroed after it has been sent (44_driver.md R213). -/
def zeroDc (img : List Int) : List Int := img.set 0 0

/-- Step 4: one bit per nonzero element in index order, 1 for negative (44_driver.md R214, 30_encoding.md R100). -/
def signBits (img : List Int) : List Bool := (img.filter (· != 0)).map fun v => decide (v < 0)

/-- Step 4: the magnitude of one element, `wrap_W(−v)` for v < 0 (44_driver.md R214). -/
def magnitude (w : Nat) (v : Int) : Int := if v < 0 then wrap w (-v) else v

/-- What ENCODE leaves in COEF[0 .. nx·ny − 1]: magnitudes, element 0 zeroed (44_driver.md R213, R214). -/
def magnitudes (w : Nat) (img : List Int) : List Int := (zeroDc img).map (magnitude w)

/-- The bit-depth category of (i, j): [j ≥ ny2] + [i ≥ nx2] (30_encoding.md R102). -/
def category (nx ny i j : Nat) : Nat :=
  (if (ny + 1) / 2 ≤ j then 1 else 0) + (if (nx + 1) / 2 ≤ i then 1 else 0)

/-- vmax[c], at least 0 (44_driver.md R215). -/
def categoryMax (nx ny : Nat) (mags : List Int) (c : Nat) : Int :=
  (List.range (nx * ny)).foldl
    (fun m e => if category nx ny (e / ny) (e % ny) = c then max m (mags.getD e 0) else m) 0

/-- Step 5: nbitplanes[c] = bitlen(vmax[c]) (44_driver.md R215). -/
def planeCount (nx ny : Nat) (mags : List Int) (c : Nat) : Nat := bitLen (categoryMax nx ny mags c).toNat

/-- A spatial quadrant: first index, rows, columns, category (30_encoding.md R102). -/
structure Quadrant where
  first    : Nat
  rows     : Nat
  cols     : Nat
  category : Nat
deriving DecidableEq, Repr

/-- The quadrants q0, q1, q2, q3, in order (30_encoding.md R102). -/
def quadrants (nx ny : Nat) : List Quadrant :=
  let nx2 := (nx + 1) / 2
  let ny2 := (ny + 1) / 2
  [{ first := 0, rows := nx2, cols := ny2, category := 0 },
   { first := ny2, rows := nx2, cols := ny / 2, category := 1 },
   { first := ny * nx2, rows := nx / 2, cols := ny2, category := 1 },
   { first := ny * nx2 + ny2, rows := nx / 2, cols := ny / 2, category := 2 }]

/-- Element (i, j) of a quadrant, row stride ny (44_driver.md R216). -/
def Quadrant.pixel (q : Quadrant) (ny : Nat) (mags : List Int) (i j : Nat) : Int :=
  mags.getD (q.first + i * ny + j) 0

/-- Step 6: the planes of one quadrant (44_driver.md R216). -/
def Quadrant.chunks (w nx ny : Nat) (mags : List Int) (q : Quadrant) : List (Nat × Nat) :=
  quadrantChunks w q.rows q.cols (q.pixel ny mags) (planeCount nx ny mags q.category)

/-- Steps 6 and the terminator: the PutBits calls of the plane stream (44_driver.md R216, R217). -/
def planeStreamChunks (w nx ny : Nat) (mags : List Int) : List (Nat × Nat) :=
  (quadrants nx ny).flatMap (Quadrant.chunks w nx ny mags) ++ [(Rom.terminator, 4)]

/-- The bit string of a list of PutBits calls, each most significant bit first (40_bitwriter.md R129). -/
def chunkBits (chunks : List (Nat × Nat)) : List Bool := chunks.flatMap fun c => msbBits c.2 c.1

/-- The plane bytes: the plane stream padded with zeros to a byte boundary (44_driver.md R217). -/
def planeBytes (w nx ny : Nat) (mags : List Int) : List Byte :=
  packBits (chunkBits (planeStreamChunks w nx ny mags))

/-- What the header says of the call: NX, NY, SCALE, each 4 bytes, big-endian (44_driver.md R212). -/
def headerBytes (c : ConfigRegs) : List Byte :=
  Rom.magic ++ bigEndian 4 c.nx.toNat ++ bigEndian 4 c.ny.toNat ++ bigEndian 4 c.scale.toNat

/-- DC: `sext_64(COEF[0])` (44_driver.md R213). -/
def dcOf (img : List Int) : BitVec 64 := BitVec.ofInt 64 (img.getD 0 0)

/-- NBP: nbitplanes[0 .. 2], one byte each (44_driver.md R215, 30_encoding.md R92). -/
def planeCounts (nx ny : Nat) (mags : List Int) : PlaneCounts :=
  { c0 := BitVec.ofNat 8 (planeCount nx ny mags 0)
    c1 := BitVec.ofNat 8 (planeCount nx ny mags 1)
    c2 := BitVec.ofNat 8 (planeCount nx ny mags 2) }

/-- The stream S of ENCODE on an image (30_encoding.md R88, 44_driver.md R211 to R218). -/
def encodeStream (w : Nat) (c : ConfigRegs) (nx ny : Nat) (img : List Int) : List Byte :=
  let mags := magnitudes w img
  let nbp := planeCounts nx ny mags
  headerBytes c ++ bigEndian 8 (dcOf img).toNat ++ [nbp.c0, nbp.c1, nbp.c2]
    ++ planeBytes w nx ny mags ++ packBits (signBits (zeroDc img))

/-! ## The outcome (44_driver.md R219 to R221) -/

/-- The state after success, L < cap (44_driver.md R220). -/
def State.encodeSuccess (s : State) (img : List Int) : State :=
  let mags := magnitudes s.w img
  let stream := encodeStream s.w s.latch.cfg s.rows s.cols img
  ({ s with
      out := Memory.writeList s.out 0 stream
      bytesUsed := BitVec.ofNat 32 stream.length
      nbp := planeCounts s.rows s.cols mags
      dc := dcOf img
      bw := { Writer.fresh s.latch.cfg.capacity with
        cur := BitVec.ofNat 32 stream.length
        bitcount := BitVec.ofNat 64 (8 * (planeBytes s.w s.rows s.cols mags).length) }
    }.storeImage mags).complete

/-- A writer with any value in every field but CAP, within the invariants of 40_bitwriter.md R128, from the k-th drawn
value on (44_driver.md R221; log 10). -/
def State.drawnWriter (s : State) (cap : Word) (k : Nat) : Writer :=
  let free := 1 + (s.drawn (k + 1)).toNat % 8
  { cap := cap
    cur := BitVec.ofNat 32 ((s.drawn k).toNat % (cap.toNat + 1))
    acc := BitVec.ofNat 8 ((s.drawn (k + 2)).toNat % 2 ^ (8 - free))
    free := BitVec.ofNat 4 free
    bitcount := s.drawn (k + 3)
    ovf := (s.drawn (k + 4)).getLsbD 0 }

/-- How many values a CAPACITY failure draws beside the memories. -/
def resultDraws : Nat := 10

/-- The state after Error(CAPACITY), L ≥ cap: OUT[0 .. cap − 1], COEF[0 .. nx·ny − 1] and the result registers hold any
value, OUT[cap ..] is unchanged (44_driver.md R221; log 10). -/
def State.encodeOverflow (s : State) : State :=
  let cap := s.latch.cfg.capacity
  let n := s.rows * s.cols
  let k := cap.toNat + n
  { s with
    out := Memory.writeList s.out 0 (s.drawnBytes 0 cap.toNat)
    coef := Memory.writeList s.coef 0 (s.drawnElems cap.toNat n)
    bw := s.drawnWriter cap k
    bytesUsed := (s.drawn (k + 5)).setWidth 32
    nbp := { c0 := (s.drawn (k + 6)).setWidth 8
             c1 := (s.drawn (k + 7)).setWidth 8
             c2 := (s.drawn (k + 8)).setWidth 8 }
    dc := s.drawn (k + 9)
    draws := s.draws + k + resultDraws }.raise .capacity

/-- Step 8: success iff L < cap, else Error(CAPACITY) (44_driver.md R219). -/
def State.encodeOutcome (s : State) (img : List Int) : State :=
  if (encodeStream s.w s.latch.cfg s.rows s.cols img).length < s.latch.cfg.capacity.toNat then s.encodeSuccess img
  else s.encodeOverflow

/-- ENCODE (44_driver.md R210). -/
def execEncode (s : State) : Host.Outcome State Fault Refusal :=
  match s.encodeError with
  | some c => .next (s.raise c)
  | none =>
    match s.loadImage with
    | none => .fault .coefUnwritten
    | some img => .next (s.encodeOutcome img)

/-- The image COMPRESS encodes: transformed, then quantized (44_driver.md R222). -/
def compressImage (w nx ny : Nat) (scale : Int) (img : List Int) : List Int :=
  (hTransform w nx ny img).map fun x => quantize w x scale

/-- COMPRESS: TRANSFORM, QUANTIZE, then ENCODE (44_driver.md R222). -/
def execCompress (s : State) : Host.Outcome State Fault Refusal :=
  match s.encodeError with
  | some c => .next (s.raise c)
  | none =>
    match s.loadImage with
    | none => .fault .coefUnwritten
    | some img => .next (s.encodeOutcome (compressImage s.w s.rows s.cols s.scale img))

/-- NOP: only completes (44_driver.md R223). -/
def execNop (s : State) : Host.Outcome State Fault Refusal := .next s.complete

end Sys2Proof.Machine
end

