-- ==== Sys2Proof/Machine/Dispatch.lean ====
section
/-! DEFINITION. One arm per command: the command's completion (10_state.md R43), from a state that holds it in LATCH. -/

namespace Sys2Proof.Machine

def exec (i : Instr) (s : State) : Host.Outcome State Fault Refusal :=
  match i with
  | .nop => Sys2Proof.Machine.execNop s
  | .compress => Sys2Proof.Machine.execCompress s
  | .transform => Sys2Proof.Machine.execTransform s
  | .quantize => Sys2Proof.Machine.execQuantize s
  | .encode => Sys2Proof.Machine.execEncode s
  | .qtEncode => Sys2Proof.Machine.execQtEncode s
  | .bwReset => Sys2Proof.Machine.execBwReset s
  | .bwBits value n => Sys2Proof.Machine.execBwBits value n s
  | .bwNibble imm8 => Sys2Proof.Machine.execBwNibble imm8 s
  | .bwNibbles => Sys2Proof.Machine.execBwNibbles s
  | .bwRaw => Sys2Proof.Machine.execBwRaw s
  | .bwFinish => Sys2Proof.Machine.execBwFinish s

end Sys2Proof.Machine
end

