-- ==== Sys2Proof/WellFormed.lean ====
section
/-! DEFINITION. Which terms of `Instr` are commands of the encoding (30_encoding.md R84). -/

namespace Sys2Proof

/-- The one check beyond the field widths: "OP = 0x11 and N > 8" is illegal (30_encoding.md R84). -/
def Instr.wellFormed : Instr → Bool
  | .bwBits _ n => decide (n.toNat ≤ 8)
  | .nop | .compress | .transform | .quantize | .encode | .qtEncode | .bwReset
  | .bwNibble _ | .bwNibbles | .bwRaw | .bwFinish => true

end Sys2Proof
end

