-- ==== Sys2Proof/Decode.lean ====
section
/-! DEFINITION. Command word CMD32 (30_encoding.md R80 to R84): the decoder, and after it the encoder. -/

namespace Sys2Proof

/-- OP, bits 7:0 (30_encoding.md R80). -/
def opField (w : Word) : Byte := w.extractLsb' 0 8

/-- IMM8, bits 15:8. -/
def imm8Field (w : Word) : Byte := w.extractLsb' 8 8

/-- N, bits 19:16. -/
def nField (w : Word) : Nibble := w.extractLsb' 16 4

/-- RSV, bits 31:20. -/
def rsvField (w : Word) : BitVec 12 := w.extractLsb' 20 12

/-- The opcode map of 30_encoding.md R83. -/
def opcode : Instr → Byte
  | .nop => 0x00
  | .compress => 0x01
  | .transform => 0x02
  | .quantize => 0x03
  | .encode => 0x04
  | .qtEncode => 0x08
  | .bwReset => 0x10
  | .bwBits _ _ => 0x11
  | .bwNibble _ => 0x12
  | .bwNibbles => 0x13
  | .bwRaw => 0x14
  | .bwFinish => 0x15

/-- The commands that use neither IMM8 nor N (30_encoding.md R82, R83). -/
def plainCommands : List Instr :=
  [.nop, .compress, .transform, .quantize, .encode, .qtEncode, .bwReset, .bwNibbles, .bwRaw, .bwFinish]

/-- The command a word stands for, or none where the word is illegal (30_encoding.md R84): an unassigned OP, a nonzero
RSV, a nonzero field the command does not use, or BW_BITS with N > 8. -/
def decode (w : Word) : Option Instr :=
  if rsvField w ≠ 0 then none
  else if opField w = 0x11 then
    if (nField w).toNat ≤ 8 then some (.bwBits (imm8Field w) (nField w)) else none
  else if opField w = 0x12 then
    if nField w = 0 then some (.bwNibble (imm8Field w)) else none
  else if imm8Field w = 0 ∧ nField w = 0 then
    plainCommands.find? fun i => opcode i == opField w
  else none

/-- The decoder on a row of spec/opcode_table.json: bit 0 of `w` is bit 0 of the 32-bit command word, and every bit
above `nbits` is 0. -/
def decodeTableWord (nbits w : Nat) : Option Instr :=
  decode (BitVec.ofNat 32 (w % 2 ^ nbits))

/-- IMM8 of a command's word; 0 where the command does not use it (30_encoding.md R82). -/
def imm8Of : Instr → Byte
  | .bwBits value _ => value
  | .bwNibble imm8 => imm8
  | .nop | .compress | .transform | .quantize | .encode | .qtEncode | .bwReset
  | .bwNibbles | .bwRaw | .bwFinish => 0

/-- N of a command's word; 0 where the command does not use it (30_encoding.md R82). -/
def nOf : Instr → Nibble
  | .bwBits _ n => n
  | .nop | .compress | .transform | .quantize | .encode | .qtEncode | .bwReset
  | .bwNibble _ | .bwNibbles | .bwRaw | .bwFinish => 0

/-- The word of a command, `OP | (IMM8 << 8) | (N << 16)` with RSV = 0 (30_encoding.md R80). -/
def encode (i : Instr) : Word :=
  (0 : BitVec 12) ++ nOf i ++ imm8Of i ++ opcode i

end Sys2Proof
end

