-- ==== Sys2Proof/Machine/HostPort.lean ====
section
/-! DEFINITION. The Host's transactions (20_memory.md R60 to R73), reset (70_reset_and_hazards.md R270, R271), and
whose turn it is. -/

namespace Sys2Proof.Machine

open Sys2Proof (Byte Word Elem Nibble)

/-! ## The register file (10_state.md R20) -/

/-- A register slot (10_state.md R20). -/
inductive Reg where
  | cmd
  | status
  | nx
  | ny
  | scale
  | capacity
  | arg0
  | arg1
  | arg2
  | arg3
  | bytesUsed
  | bwCursor
  | bwState
  | bitcountLo
  | bitcountHi
  | nbp
  | dcLo
  | dcHi
  | bwCap
  | config
  | nmaxReg
  | outBytesReg
  | stageBytesReg
  /-- 0x5C to 0xFC (10_state.md R39). -/
  | reserved
deriving DecidableEq, Repr

/-- The named registers in offset order, from 0x00 in steps of 4 (10_state.md R20). -/
def registerMap : List Reg :=
  [.cmd, .status, .nx, .ny, .scale, .capacity, .arg0, .arg1, .arg2, .arg3, .bytesUsed, .bwCursor, .bwState,
   .bitcountLo, .bitcountHi, .nbp, .dcLo, .dcHi, .bwCap, .config, .nmaxReg, .outBytesReg, .stageBytesReg]

/-- The register at a byte offset; none where the access is a host-duty violation: an offset that is not a multiple of 4,
or ≥ 0x100 (10_state.md R39). -/
def regAt (off : Nat) : Option Reg :=
  if off % 4 = 0 ∧ off < 0x100 then some (registerMap.getD (off / 4) .reserved) else none

/-- The result registers, which read as any value while BUSY (20_memory.md R73). -/
def Reg.isResult : Reg → Bool
  | .bytesUsed | .bwCursor | .bwState | .bitcountLo | .bitcountHi | .nbp | .dcLo | .dcHi | .bwCap => true
  | .cmd | .status | .nx | .ny | .scale | .capacity | .arg0 | .arg1 | .arg2 | .arg3
  | .config | .nmaxReg | .outBytesReg | .stageBytesReg | .reserved => false

/-- What a register holds (10_state.md R21 to R39). -/
def State.regValue (s : State) : Reg → Word
  | .cmd => 0
  | .status => s.statusWord
  | .nx => s.cfg.nx
  | .ny => s.cfg.ny
  | .scale => s.cfg.scale
  | .capacity => s.cfg.capacity
  | .arg0 => s.cfg.arg0
  | .arg1 => s.cfg.arg1
  | .arg2 => s.cfg.arg2
  | .arg3 => s.cfg.arg3
  | .bytesUsed => s.bytesUsed
  | .bwCursor => s.bw.cur
  | .bwState => s.bw.stateWord
  | .bitcountLo => low32 s.bw.bitcount
  | .bitcountHi => high32 s.bw.bitcount
  | .nbp => s.nbp.word
  | .dcLo => low32 s.dc
  | .dcHi => high32 s.dc
  | .bwCap => s.bw.cap
  | .config => configWord s.params
  | .nmaxReg => s.params.nmax
  | .outBytesReg => s.params.outBytes
  | .stageBytesReg => s.params.stageBytes
  | .reserved => 0

/-- Hand a read's result to the Host. -/
def State.reply (s : State) (r : Reply) : State := { s with replies := r :: s.replies }

/-- One free value used up. -/
def State.drew (s : State) (n : Nat) : State := { s with draws := s.draws + n }

/-- RegRead of a register slot (10_state.md R20 to R39; while BUSY 20_memory.md R73): the value it holds, but for a
result register while BUSY, which reads as any value. -/
def State.readReg (s : State) (r : Reg) : State :=
  if s.busy && r.isResult then (s.drew 1).reply (.reg ((s.drawn 0).setWidth 32))
  else s.reply (.reg (s.regValue r))

/-- A write of CMD: acceptance while idle (10_state.md R41), with the latency drawn (log 4); dropped while BUSY, CMD_LOST
set (R42). -/
def State.writeCmd (s : State) (c : Word) : State :=
  if s.busy then { s with status := { s.status with cmdLost := true } }
  else { (s.accept c).drew 1 with delay := Config.latency s.draws }

/-- A write of a configuration register; a read-only or reserved register ignores it (10_state.md R20, R39). -/
def ConfigRegs.write (c : ConfigRegs) (r : Reg) (v : Word) : ConfigRegs :=
  match r with
  | .nx => { c with nx := v }
  | .ny => { c with ny := v }
  | .scale => { c with scale := v }
  | .capacity => { c with capacity := v }
  | .arg0 => { c with arg0 := v }
  | .arg1 => { c with arg1 := v }
  | .arg2 => { c with arg2 := v }
  | .arg3 => { c with arg3 := v }
  | .cmd | .status | .bytesUsed | .bwCursor | .bwState | .bitcountLo | .bitcountHi | .nbp | .dcLo | .dcHi
  | .bwCap | .config | .nmaxReg | .outBytesReg | .stageBytesReg | .reserved => c

/-- RegWrite of a register slot (10_state.md R20, R21). -/
def State.writeReg (s : State) (r : Reg) (v : Word) : State :=
  if r = .cmd then s.writeCmd v else { s with cfg := s.cfg.write r v }

/-! ## Reset (70_reset_and_hazards.md R270, R271) -/

/-- How many elements of COEF the running command could have written (R271; log 11): none where its checks fail. -/
def State.coefAtRisk (s : State) : Nat :=
  match decode s.latch.cmd with
  | some .transform | some .quantize => if s.geometryError = none then s.rows * s.cols else 0
  | some .encode | some .compress => if s.encodeError = none then s.rows * s.cols else 0
  | _ => 0

/-- How many bytes of OUT the running command could have written: BW.CAP as during the command (R271; log 11). -/
def State.outAtRisk (s : State) : Nat :=
  match decode s.latch.cmd with
  | some .encode | some .compress => if s.encodeError = none then s.latch.cfg.capacity.toNat else 0
  | some .bwReset => if s.badCapacity then s.bw.cap.toNat else max s.bw.cap.toNat s.latch.cfg.capacity.toNat
  | some .qtEncode | some (.bwBits _ _) | some (.bwNibble _) | some .bwNibbles | some .bwRaw | some .bwFinish =>
    s.bw.cap.toNat
  | some .nop | some .transform | some .quantize | none => 0

/-- The memories with any value wherever the abandoned command could have written (R271). -/
def State.abandon (s : State) : State :=
  let n := s.outAtRisk
  let m := s.coefAtRisk
  { s with
    out := Memory.writeList s.out 0 (s.drawnBytes 0 n)
    coef := Memory.writeList s.coef 0 (s.drawnElems n m)
    draws := s.draws + n + m }

/-- The registers after a Reset transaction; the memories, the parameters and the Host's side stay (R270). -/
def State.resetRegisters (s : State) : State :=
  { State.powerOn s.params with
    coef := s.coef, out := s.out, stage := s.stage
    inbox := s.inbox, replies := s.replies, draws := s.draws }

/-- A Reset transaction (R270, R271). -/
def State.resetTxn (s : State) : State := (if s.busy then s.abandon else s).resetRegisters

/-! ## The transactions (20_memory.md R60, R65, R73) -/

/-- CoefRead: any value while BUSY (20_memory.md R73), else the element. -/
def hostCoefRead (e : Nat) (s : State) : Host.Outcome State Fault Refusal :=
  if s.params.nmax.toNat ≤ e then .fault .coefIndex
  else if s.busy then .next ((s.drew 1).reply (.coef (pattern s.params.width.bits (s.drawn 0).toNat)))
  else
    match Memory.read s.coef e with
    | none => .fault .coefUnwritten
    | some v => .next (s.reply (.coef v))

/-- CoefWrite: a whole W-bit element; a host-duty violation while BUSY (20_memory.md R61, R73). -/
def hostCoefWrite (e : Nat) (v : Elem) (s : State) : Host.Outcome State Fault Refusal :=
  if s.params.nmax.toNat ≤ e then .fault .coefIndex
  else if s.busy then .fault .coefWriteBusy
  else .next { s with coef := Memory.write s.coef e (pattern s.params.width.bits v.toNat) }

/-- OutRead: any value while BUSY (20_memory.md R73), else the byte. -/
def hostOutRead (b : Nat) (s : State) : Host.Outcome State Fault Refusal :=
  if s.params.outBytes.toNat ≤ b then .fault .outIndex
  else if s.busy then .next ((s.drew 1).reply (.byte ((s.drawn 0).setWidth 8)))
  else
    match Memory.read s.out b with
    | none => .fault .outUnwritten
    | some v => .next (s.reply (.byte v))

/-- OutWrite: one byte; a host-duty violation while BUSY (20_memory.md R73). -/
def hostOutWrite (b : Nat) (v : Byte) (s : State) : Host.Outcome State Fault Refusal :=
  if s.params.outBytes.toNat ≤ b then .fault .outIndex
  else if s.busy then .fault .outWriteBusy
  else .next { s with out := Memory.write s.out b v }

/-- StageRead: the stored byte, also while BUSY (20_memory.md R73). -/
def hostStageRead (b : Nat) (s : State) : Host.Outcome State Fault Refusal :=
  if s.params.stageBytes.toNat ≤ b then .fault .stageIndex
  else
    match Memory.read s.stage b with
    | none => .fault .stageUnwritten
    | some v => .next (s.reply (.byte v))

/-- StageWrite: one byte; a host-duty violation while BUSY (20_memory.md R73). -/
def hostStageWrite (b : Nat) (v : Byte) (s : State) : Host.Outcome State Fault Refusal :=
  if s.params.stageBytes.toNat ≤ b then .fault .stageIndex
  else if s.busy then .fault .stageWriteBusy
  else .next { s with stage := Memory.write s.stage b v }

/-- RegRead (20_memory.md R67). -/
def hostRegRead (off : Nat) (s : State) : Host.Outcome State Fault Refusal :=
  match regAt off with
  | none => .fault .regOffset
  | some r => .next (s.readReg r)

/-- RegWrite (20_memory.md R67). -/
def hostRegWrite (off : Nat) (v : Word) (s : State) : Host.Outcome State Fault Refusal :=
  match regAt off with
  | none => .fault .regOffset
  | some r => .next (s.writeReg r v)

/-- One host transaction, atomic (20_memory.md R68). -/
def hostStep (t : Txn) (s : State) : Host.Outcome State Fault Refusal :=
  match t with
  | .regRead off => hostRegRead off s
  | .regWrite off v => hostRegWrite off v s
  | .coefRead e => hostCoefRead e s
  | .coefWrite e v => hostCoefWrite e v s
  | .outRead b => hostOutRead b s
  | .outWrite b v => hostOutWrite b v s
  | .stageRead b => hostStageRead b s
  | .stageWrite b v => hostStageWrite b v s
  | .reset => .next s.resetTxn

/-! ## Whose turn it is (20_memory.md R70) -/

/-- The Engine completes the running command when no further host transaction is due before it (log 4). -/
def State.engineTurn (s : State) : Bool := s.busy && (s.delay == 0 || s.inbox.isEmpty)

/-- The oldest pending host transaction taken from the queue. -/
def State.issue (s : State) (rest : List Txn) : State := { s with inbox := rest, delay := s.delay - 1 }

/-- The state with a command word accepted and due to complete next (log 14). -/
def State.holding (s : State) (c : Word) : State := { s.accept c with delay := 0 }

end Sys2Proof.Machine
end

