-- ==== Sys2Proof/Machine/Step.lean ====
section
/-! DEFINITION. One step: the Engine's completion of the running command, or one host transaction (20_memory.md R70). -/

namespace Sys2Proof.Machine

/-- Completion of the latched command word; an illegal word completes with ILLEGAL (30_encoding.md R84, 60_exceptions.md
R245). -/
def engineStep (s : State) : Host.Outcome State Fault Refusal :=
  match decode s.latch.cmd with
  | some i => exec i s
  | none => .next (s.raise .illegal)

/-- One step. With nothing to complete and no transaction pending the core is idle and holds its state
(60_exceptions.md R256; log 18). -/
def step (s : State) : Host.Outcome State Fault Refusal :=
  if s.engineTurn then engineStep s
  else
    match s.inbox with
    | [] => .next s
    | t :: rest => hostStep t (s.issue rest)

/-- `s` with a command word accepted, so that the very next step completes exactly it (log 14). -/
def State.withFetchWord (s : State) (nbits w : Nat) : State := s.holding (BitVec.ofNat 32 (w % 2 ^ nbits))

end Sys2Proof.Machine
end

