-- ==== Sys2Proof/Safety.lean ====
section
/-! DEFINITION. What counts as a safe run: no host-duty violation, and every command IN_RANGE
(93_implementation_defined.md U4, U5, U7, U8). Also the invariant of the states a run reaches. -/

namespace Sys2Proof.Safety

open Sys2Proof.Machine
open Sys2Proof (Byte Word Elem Nibble)

/-! ## Host duties (60_exceptions.md R258) -/

/-- The faults that are host-duty violations; the others are reads of units that hold no value (U9). -/
def isHostDuty : Fault → Bool
  | .regOffset | .coefIndex | .outIndex | .stageIndex | .coefWriteBusy | .outWriteBusy | .stageWriteBusy => true
  | .coefUnwritten | .outUnwritten | .stageUnwritten => false

/-! ## IN_RANGE: no wrap_W changes a value (93_implementation_defined.md U4, 92_eei_decisions.md D38; log 8) -/

/-- One output of a block: neither its sum nor its rounding wraps (41_transform.md R153 to R157). -/
def blockInRange (w k : Nat) (o : BlockOut) : Bool :=
  fits w o.exact && fits w (roundExact k o.rounding (asr (wrap w o.exact) o.shift))

/-- One iteration of the transform. -/
def levelInRange (w k ny nxtop nytop : Nat) (img : List Int) : Bool :=
  (List.range img.length).all fun e =>
    !(decide (e / ny < nxtop) && decide (e % ny < nytop))
      || blockInRange w k (blockOut k ny nxtop nytop img (e / ny) (e % ny))

/-- The iterations from k on. -/
def transformInRangeFrom (w ny : Nat) : (levels k nxtop nytop : Nat) → List Int → Bool
  | 0, _, _, _, _ => true
  | levels + 1, k, nxtop, nytop, img =>
    levelInRange w k ny nxtop nytop img
      && transformInRangeFrom w ny levels (k + 1) ((nxtop + 1) / 2) ((nytop + 1) / 2)
        (shuffleStage ny nxtop nytop (blockStage w k ny nxtop nytop img))

/-- HTransform on an image. -/
def transformInRange (w nx ny : Nat) (img : List Int) : Bool :=
  transformInRangeFrom w ny (levelCount nx ny) 0 nx ny img

/-- Quantization of an image: no bias addition wraps (42_quantize.md R171). -/
def quantizeInRange (w : Nat) (scale : Int) (img : List Int) : Bool :=
  decide (scale ≤ 1) || img.all fun x => fits w (quantExact x scale)

/-- Sign stripping of an image: no element but the DC equals −2^(W−1) (44_driver.md R214). -/
def stripInRange (w : Nat) (img : List Int) : Bool := (zeroDc img).all fun v => fits w (-v)

/-- Whether a command is IN_RANGE on a loaded image. -/
def imageInRange (w nx ny : Nat) (scale : Int) (img : List Int) : Instr → Bool
  | .transform => transformInRange w nx ny img
  | .quantize => quantizeInRange w scale img
  | .encode => stripInRange w img
  | .compress =>
    let t := hTransform w nx ny img
    transformInRange w nx ny img && quantizeInRange w scale t && stripInRange w (t.map fun x => quantize w x scale)
  | .nop | .qtEncode | .bwReset | .bwBits _ _ | .bwNibble _ | .bwNibbles | .bwRaw | .bwFinish => true

/-- Whether the running command is IN_RANGE. A claim that rests on no wrap takes this as a premise (log 8). -/
def inRange (s : State) : Bool :=
  match decode s.latch.cmd, s.loadImage with
  | some i, some img => imageInRange s.w s.rows s.cols s.scale img i
  | _, _ => true

/-- One safe step. -/
def safeStep (s t : State) : Prop := step s = .next t ∧ (s.engineTurn = true → inRange s = true)

/-- A safe run of n steps. -/
def safeRun : Nat → State → State → Prop
  | 0, s, t => s = t
  | n + 1, s, t => ∃ u, safeStep s u ∧ safeRun n u t

/-! ## The writer's bit string (40_bitwriter.md R129) -/

/-- The bits of one byte of OUT, bit 7 first (20_memory.md R66); none where the byte holds no value. -/
def byteBits (out : List Host.Cell) (a : Nat) : List Bool :=
  ((Memory.read out a).map fun b => msbBits 8 b.toNat).getD []

/-- OUT[0] ++ … ++ OUT[CUR − 1] as bits. -/
def storedBits (k : Sink) : List Bool := (List.range k.bw.cur.toNat).flatMap (byteBits k.out)

/-- ACC[7 − FREE : 0], the 8 − FREE pending bits. -/
def pendingBits (b : Writer) : List Bool := msbBits (8 - b.free.toNat) b.acc.toNat

/-- Every byte below the cursor has been stored. -/
abbrev Stored (k : Sink) : Prop := ∀ a < k.bw.cur.toNat, (Memory.read k.out a).isSome

/-- What one bit-path operation does to the writer: PutBits(v, n) or finish (40_bitwriter.md R129). -/
inductive WriterOp where
  | put (v n : Nat)
  | finish
deriving DecidableEq, Repr

/-- "0 ≤ n ≤ 8" (40_bitwriter.md R122). -/
def WriterOp.legal : WriterOp → Bool
  | .put _ n => decide (n ≤ 8)
  | .finish => true

/-- The operation on the writer. -/
def WriterOp.apply (k : Sink) : WriterOp → Sink
  | .put v n => k.putBits v n
  | .finish => k.finish

/-- The bits it appends: v's low n bits, or the padding zeros (40_bitwriter.md R129). -/
def WriterOp.bits (k : Sink) : WriterOp → List Bool
  | .put v n => msbBits n v
  | .finish => if k.bw.free.toNat < 8 then List.replicate k.bw.free.toNat false else []

/-- The writer after a list of operations, and B, the bits they appended in order. -/
def runOps : Sink → List WriterOp → Sink × List Bool
  | k, [] => (k, [])
  | k, op :: ops =>
    let r := runOps (op.apply k) ops
    (r.1, op.bits k ++ r.2)

/-! ## What commands read (20_memory.md R61, R62) -/

/-- The value of COEF[e]; 0 where it holds none (claims take `imageWritten` as a premise). -/
def coefValue (s : State) (e : Nat) : Int := sint s.w ((Memory.read s.coef e).getD 0)

/-- The image COEF[0 .. nx·ny − 1] of the latched geometry. -/
def image (s : State) : List Int := (List.range (s.rows * s.cols)).map (coefValue s)

/-- Every element of the image has been written since power-on (U9). -/
abbrev imageWritten (s : State) : Prop := ∀ e < s.rows * s.cols, (Memory.read s.coef e).isSome

/-- The first n bytes of STAGE have been written since power-on (U9). -/
abbrev stageWritten (s : State) (n : Nat) : Prop := ∀ b < n, (Memory.read s.stage b).isSome

/-- The first n bytes of STAGE. -/
def stageBytes (s : State) (n : Nat) : List Byte :=
  (List.range n).map fun b => (Memory.read s.stage b).getD 0

/-- Commands run one after another, stopping at the first fault or refusal. -/
def runCommands : List Instr → State → Host.Outcome State Fault Refusal
  | [], s => .next s
  | i :: is, s =>
    match exec i s with
    | .next t => runCommands is t
    | .fault f => .fault f
    | .refused r => .refused r

/-- Positions 0, 2, 4, … then 1, 3, 5, … (41_transform.md R159). -/
def shuffleList {α : Type} : List α → List α
  | v => (List.range ((v.length + 1) / 2)).flatMap (fun p => v[2 * p]?.toList)
      ++ (List.range (v.length / 2)).flatMap (fun p => v[2 * p + 1]?.toList)

/-! ## The argument checks as 60_exceptions.md R243 and R244 write them -/

/-- The geometry commands with NX < 1 or NY < 1 (60_exceptions.md R244). -/
abbrev badGeometry (s : State) : Prop := s.latch.cfg.nx.toInt < 1 ∨ s.latch.cfg.ny.toInt < 1

/-- The conditions of BADARG, by command (60_exceptions.md R244). -/
def badArgument (s : State) : Instr → Prop
  | .transform | .quantize => badGeometry s
  | .encode | .compress => badGeometry s ∨ s.params.outBytes.toNat < s.latch.cfg.capacity.toNat
  | .bwReset => s.params.outBytes.toNat < s.latch.cfg.capacity.toNat
  | .bwNibbles | .bwRaw => s.params.stageBytes.toNat < s.latch.cfg.arg0.toNat
  | .qtEncode =>
    s.latch.cfg.ny.toInt < 1 ∨ s.w < s.latch.cfg.arg3.toNat ∨
      (1 ≤ s.latch.cfg.arg1.toNat ∧ 1 ≤ s.latch.cfg.arg2.toNat ∧
        (s.params.nmax.toNat : Int) ≤
          s.latch.cfg.arg0.toNat + (s.latch.cfg.arg1.toNat - 1 : Int) * s.latch.cfg.ny.toInt
            + (s.latch.cfg.arg2.toNat - 1 : Int))
  | .nop | .bwBits _ _ | .bwNibble _ | .bwFinish => False

/-- The conditions of ALLOC, by command (60_exceptions.md R243). -/
def oversized (s : State) : Instr → Prop
  | .transform | .quantize | .encode | .compress =>
    (s.params.nmax.toNat : Int) < s.latch.cfg.nx.toInt * s.latch.cfg.ny.toInt
  | .qtEncode => s.params.nmax.toNat < s.latch.cfg.arg1.toNat * s.latch.cfg.arg2.toNat
  | .nop | .bwReset | .bwBits _ _ | .bwNibble _ | .bwNibbles | .bwRaw | .bwFinish => False

/-! ## Outcomes that claims name -/

/-- STATUS after a successful completion; RESULT, CMD_LOST as they were (10_state.md R43). -/
def doneStatus (s : State) : Status := { s.status with done := true, err := false, cause := .none }

/-- STATUS after an error completion (60_exceptions.md R248). -/
def errorStatus (s : State) (c : Cause) : Status := { s.status with done := true, err := true, cause := c }

/-- Nothing but STATUS (with SEQ) and the given writer, OUT and COEF differ from s, and the command is over. -/
def completedAs (s t : State) (status : Status) (bw : Writer) (out : List Host.Cell) (coef : Store Elem) : Prop :=
  t = { s with seq := .idle, status := status, bw := bw, out := out, coef := coef, delay := 0 }

/-- OUT holds `bytes` from index a on, and every other byte as in s. -/
def storesAt (s t : State) (a : Nat) (bytes : List Byte) : Prop :=
  (∀ k < bytes.length, Memory.read t.out (a + k) = bytes[k]?) ∧
  ∀ b, b < a ∨ a + bytes.length ≤ b → Memory.read t.out b = Memory.read s.out b

/-- The image is `vals`, and every other element of COEF as in s (20_memory.md R62). -/
def imageBecomes (s t : State) (vals : List Int) : Prop :=
  (∀ e < s.rows * s.cols, (Memory.read t.coef e).isSome ∧ coefValue t e = vals.getD e 0) ∧
  ∀ e, s.rows * s.cols ≤ e → Memory.read t.coef e = Memory.read s.coef e

/-- The length L of the stream an image gives (44_driver.md R219). -/
def streamLength (s : State) (img : List Int) : Nat := (encodeStream s.w s.latch.cfg s.rows s.cols img).length

/-- The table of 44_driver.md R220: the state t after ENCODE, or COMPRESS, succeeds on `img`. -/
structure encodedAs (s t : State) (img : List Int) : Prop where
  stream    : storesAt s t 0 (encodeStream s.w s.latch.cfg s.rows s.cols img)
  bytesUsed : t.bytesUsed.toNat = streamLength s img
  cap       : t.bw.cap = s.latch.cfg.capacity
  cur       : t.bw.cur.toNat = streamLength s img
  acc       : t.bw.acc = 0
  free      : t.bw.free = 8
  ovf       : t.bw.ovf = false
  bitcount  : t.bw.bitcount = BitVec.ofNat 64 (8 * (planeBytes s.w s.rows s.cols (magnitudes s.w img)).length)
  nbp       : t.nbp = planeCounts s.rows s.cols (magnitudes s.w img)
  dc        : t.dc = BitVec.ofInt 64 (img.getD 0 0)
  coef      : imageBecomes s t ((img.map fun v => wrap s.w |v|).set 0 0)
  frame     : t = { s with
    seq := .idle, status := doneStatus s, delay := 0, out := t.out, coef := t.coef, bw := t.bw
    bytesUsed := t.bytesUsed, nbp := t.nbp, dc := t.dc }

/-- The table of 44_driver.md R221: the state t after ENCODE, or COMPRESS, fails with CAPACITY. -/
structure overflowedAs (s t : State) : Prop where
  out    : ∀ a, s.latch.cfg.capacity.toNat ≤ a → Memory.read t.out a = Memory.read s.out a
  coef   : ∀ e, s.rows * s.cols ≤ e → Memory.read t.coef e = Memory.read s.coef e
  cap    : t.bw.cap = s.latch.cfg.capacity
  free   : 1 ≤ t.bw.free.toNat ∧ t.bw.free.toNat ≤ 8
  acc    : t.bw.acc.toNat < 2 ^ (8 - t.bw.free.toNat)
  cur    : t.bw.cur.toNat ≤ t.bw.cap.toNat
  frame  : t = { s with
    seq := .idle, status := errorStatus s .capacity, delay := 0, out := t.out, coef := t.coef, bw := t.bw
    bytesUsed := t.bytesUsed, nbp := t.nbp, dc := t.dc, draws := t.draws }

/-! ## The invariant -/

/-- The writer's invariants: 1 ≤ FREE ≤ 8, ACC < 2^(8 − FREE), CUR ≤ CAP (10_state.md R44, 40_bitwriter.md R128). -/
structure WriterOk (b : Writer) : Prop where
  freePos : 1 ≤ b.free.toNat
  freeLe  : b.free.toNat ≤ 8
  accLt   : b.acc.toNat < 2 ^ (8 - b.free.toNat)
  curLe   : b.cur.toNat ≤ b.cap.toNat

/-- The three memories: canonical, inside their spaces, elements of W bits (20_memory.md R60, R61, R65). -/
structure MemoriesOk (s : State) : Prop where
  coefWf     : Memory.wf s.coef
  outWf      : Memory.wf s.out
  stageWf    : Memory.wf s.stage
  coefWithin : Memory.within s.params.nmax.toNat s.coef
  outWithin  : Memory.within s.params.outBytes.toNat s.out
  stageWithin : Memory.within s.params.stageBytes.toNat s.stage
  coefFits   : ∀ c ∈ s.coef, c.2.toNat < 2 ^ s.w

/-- STATUS: BUSY shows a cleared status (10_state.md R41); ERR = 0 exactly with CAUSE = 0, and an error only once DONE
(60_exceptions.md R240). -/
structure StatusOk (s : State) : Prop where
  busyClear : s.seq = .busy →
    s.status.done = false ∧ s.status.err = false ∧ s.status.result = false ∧ s.status.cause = .none
  errCause  : s.status.err = true ↔ s.status.cause ≠ .none
  errDone   : s.status.err = true → s.status.done = true

/-- The invariant every step keeps. -/
structure Inv (s : State) : Prop where
  params   : s.params.Legal
  memories : MemoriesOk s
  writer   : WriterOk s.bw
  capIn    : s.bw.cap.toNat ≤ s.params.outBytes.toNat
  status   : StatusOk s

end Sys2Proof.Safety
end

