-- ==== Sys2Proof/Certificates/Slice0/Obligations.lean ====
section
/-! DEFINITION. The statements for the provers. -/

open Sys2Proof Sys2Proof.Machine Sys2Proof.Safety

/-! ## Command words (30_encoding.md section 1) -/

/-- Decoding an encoded well-formed command gives it back, with every operand, and encoding what the decoder read from
any word gives that word back: each legal word has one meaning. -/
def Obligations.DecodeAndEncodeAgree : Prop :=
  (∀ i : Instr, i.wellFormed = true → decode (encode i) = some i) ∧
  ∀ (w : Word) (i : Instr), decode w = some i → i.wellFormed = true ∧ encode i = w

/-- 30_encoding.md R84: which words are illegal, that they are accepted, and that they complete with ILLEGAL. -/
def Obligations.IllegalWordsAreThoseOfTheRule : Prop :=
  (∀ w : Word,
    let op := w.toNat % 256
    let imm8 := w.toNat / 2 ^ 8 % 256
    let n := w.toNat / 2 ^ 16 % 16
    let rsv := w.toNat / 2 ^ 20
    decode w = none ↔
      op ∉ [0x00, 0x01, 0x02, 0x03, 0x04, 0x08, 0x10, 0x11, 0x12, 0x13, 0x14, 0x15] ∨ rsv ≠ 0 ∨
      (op ∉ [0x11, 0x12] ∧ (imm8 ≠ 0 ∨ n ≠ 0)) ∨ (op = 0x12 ∧ n ≠ 0) ∨ (op = 0x11 ∧ 8 < n)) ∧
  (∀ (s : State) (w : Word), s.seq = .idle → ∃ t, hostStep (.regWrite 0x00 w) s = .next t ∧
    t.seq = .busy ∧ t.latch.cmd = w) ∧
  ∀ s : State, decode s.latch.cmd = none →
    engineStep s = .next { s with seq := .idle, status := errorStatus s .illegal, delay := 0 }

/-- A word of every command written out from the encoding (30_encoding.md R80, R83) decodes to it; two illegal words do
not decode. -/
def Obligations.SpecWordsDecode : Prop :=
  decode 0x00000000 = some .nop ∧ decode 0x00000001 = some .compress ∧ decode 0x00000002 = some .transform ∧
  decode 0x00000003 = some .quantize ∧ decode 0x00000004 = some .encode ∧ decode 0x00000008 = some .qtEncode ∧
  decode 0x00000010 = some .bwReset ∧ decode 0x00030511 = some (.bwBits 5 3) ∧
  decode 0x00000C12 = some (.bwNibble 0x0C) ∧ decode 0x00000013 = some .bwNibbles ∧
  decode 0x00000014 = some .bwRaw ∧ decode 0x00000015 = some .bwFinish ∧
  decode 0x00090011 = none ∧ decode 0x00100001 = none

/-- A step is the completion of the latched command when the Engine is due, else the oldest host transaction, else
nothing; and `withFetchWord` makes the next step complete exactly the word given (logs 4, 14, 18). -/
def Obligations.StepRunsTheLatchedCommand : Prop :=
  (∀ (s : State) (i : Instr), s.engineTurn = true → decode s.latch.cmd = some i → step s = exec i s) ∧
  (∀ (s : State) (w : Word) (i : Instr), decode w = some i →
    step (s.withFetchWord 32 w.toNat) = exec i (s.withFetchWord 32 w.toNat) ∧
    (s.withFetchWord 32 w.toNat).latch = { cmd := w, cfg := s.cfg }) ∧
  (∀ (s : State) (t : Txn) (rest : List Txn), s.engineTurn = false → s.inbox = t :: rest →
    step s = hostStep t { s with inbox := rest, delay := s.delay - 1 }) ∧
  ∀ s : State, s.engineTurn = false → s.inbox = [] → step s = .next s

/-! ## Acceptance, completion, errors -/

/-- A CMD write is accepted while idle (10_state.md R41) and dropped, setting CMD_LOST, while BUSY (R42); the rest of the
core's state stays. -/
def Obligations.CommandWritesAreLatchedOrDropped : Prop :=
  (∀ (s : State) (c : Word), s.seq = .idle → ∃ t, hostStep (.regWrite 0x00 c) s = .next t ∧
    t.latch.cmd = c ∧ t.latch.cfg.nx = s.cfg.nx ∧ t.latch.cfg.ny = s.cfg.ny ∧ t.latch.cfg.scale = s.cfg.scale ∧
    t.latch.cfg.capacity = s.cfg.capacity ∧ t.latch.cfg.arg0 = s.cfg.arg0 ∧ t.latch.cfg.arg1 = s.cfg.arg1 ∧
    t.latch.cfg.arg2 = s.cfg.arg2 ∧ t.latch.cfg.arg3 = s.cfg.arg3 ∧
    t.seq = .busy ∧ t.busy = true ∧ t.status.done = false ∧ t.status.err = false ∧ t.status.cause = .none ∧
    t.status.result = false ∧ t.status.cmdLost = false ∧
    t = { s with latch := t.latch, seq := t.seq, status := t.status, delay := t.delay, draws := t.draws }) ∧
  ∀ (s : State) (c : Word), s.seq = .busy →
    hostStep (.regWrite 0x00 c) s = .next { s with status := { s.status with cmdLost := true } }

/-- 60_exceptions.md R240: every command that completes ends idle and DONE, in success with CAUSE 0 or in an error. -/
def Obligations.EveryCommandEndsInSuccessOrError : Prop :=
  ∀ s t : State, engineStep s = .next t →
    t.seq = .idle ∧ t.busy = false ∧ t.status.done = true ∧
    ((t.status.err = false ∧ t.status.cause = .none ∧ t.status.cause.code = 0) ∨
      (t.status.err = true ∧ t.status.cause ≠ .none ∧ t.status.cause.code ≠ 0))

/-- 60_exceptions.md R244: BADARG exactly on the conditions of its table, with no state change but STATUS. -/
def Obligations.BadArgumentsAreRefused : Prop :=
  ∀ (i : Instr) (s : State),
    (badArgument s i → exec i s = .next { s with seq := .idle, status := errorStatus s .badArg, delay := 0 }) ∧
    ∀ t, exec i s = .next t → t.status.cause = .badArg → badArgument s i

/-- 60_exceptions.md R243: ALLOC exactly where the working set exceeds NMAX (BADARG comes first, R247), with no state
change but STATUS. -/
def Obligations.AllocIsTheSizeCheck : Prop :=
  ∀ (i : Instr) (s : State), ¬ badArgument s i →
    (oversized s i → exec i s = .next { s with seq := .idle, status := errorStatus s .alloc, delay := 0 }) ∧
    ∀ t, exec i s = .next t → t.status.cause = .alloc → oversized s i

/-- 60_exceptions.md R242: CAPACITY of ENCODE and COMPRESS exactly when L ≥ cap, of QT_ENCODE when BW.OVF = 1 at its end,
and never of a BW command. -/
def Obligations.CapacityErrorsAreTheLengthTest : Prop :=
  (∀ s t : State, ¬ badArgument s .encode → ¬ oversized s .encode → exec .encode s = .next t →
    (t.status.cause = .capacity ↔ s.latch.cfg.capacity.toNat ≤ streamLength s (image s))) ∧
  (∀ s t : State, ¬ badArgument s .compress → ¬ oversized s .compress → exec .compress s = .next t →
    (t.status.cause = .capacity ↔
      s.latch.cfg.capacity.toNat ≤ streamLength s (compressImage s.w s.rows s.cols s.scale (image s)))) ∧
  (∀ s t : State, ¬ badArgument s .qtEncode → ¬ oversized s .qtEncode → exec .qtEncode s = .next t →
    (t.status.cause = .capacity ↔ t.bw.ovf = true)) ∧
  ∀ (s t : State) (value imm8 : Byte) (n : Nibble),
    ∀ i ∈ [Instr.bwReset, .bwBits value n, .bwNibble imm8, .bwNibbles, .bwRaw, .bwFinish],
      exec i s = .next t → t.status.cause ≠ .capacity

/-- 10_state.md R22 with the codes of 60_exceptions.md R241: where each field stands in the STATUS word; a RegRead of
offset 0x04 replies this word, between commands and while BUSY; and while BUSY it shows BUSY = 1, the current CMD_LOST
(20_memory.md R73) and BW.OVF, which a host transaction that leaves the command running does not change (R43, R68,
log 9). -/
def Obligations.StatusWordFields : Prop :=
  (∀ s : State,
    s.statusWord.getLsbD 0 = s.busy ∧ s.statusWord.getLsbD 1 = s.status.done ∧
    s.statusWord.getLsbD 2 = s.status.err ∧ s.statusWord.getLsbD 3 = s.status.result ∧
    s.statusWord.extractLsb' 4 4 = (match s.status.cause with
      | .none => 0
      | .capacity => 1
      | .alloc => 2
      | .badArg => 3
      | .illegal => 4) ∧
    s.statusWord.getLsbD 8 = s.bw.ovf ∧ s.statusWord.getLsbD 9 = s.status.cmdLost ∧
    s.statusWord.extractLsb' 10 22 = 0) ∧
  (∀ s : State, hostStep (.regRead 0x04) s = .next { s with replies := .reg s.statusWord :: s.replies }) ∧
  (∀ s : State, s.seq = .busy →
    s.statusWord.getLsbD 0 = true ∧ s.statusWord.getLsbD 9 = s.status.cmdLost ∧
    s.statusWord.getLsbD 8 = s.bw.ovf) ∧
  (∀ (s t : State) (x : Txn), hostStep x s = .next t → x ≠ .reset → t.statusWord.getLsbD 8 = s.statusWord.getLsbD 8)

/-! ## The Host's transactions (20_memory.md, 10_state.md) -/

/-- 60_exceptions.md R258 with 20_memory.md R65: the host-duty violations end the run as faults: an index outside its
space, a COEF, OUT or STAGE write while BUSY, a REG offset that is not a multiple of 4 or ≥ 0x100. -/
def Obligations.HostDutyViolationsFault : Prop :=
  ∀ (s : State) (a : Nat) (v : Elem) (b : Byte) (x : Word),
    (s.params.nmax.toNat ≤ a →
      hostStep (.coefRead a) s = .fault .coefIndex ∧ hostStep (.coefWrite a v) s = .fault .coefIndex) ∧
    (s.params.outBytes.toNat ≤ a →
      hostStep (.outRead a) s = .fault .outIndex ∧ hostStep (.outWrite a b) s = .fault .outIndex) ∧
    (s.params.stageBytes.toNat ≤ a →
      hostStep (.stageRead a) s = .fault .stageIndex ∧ hostStep (.stageWrite a b) s = .fault .stageIndex) ∧
    (s.seq = .busy →
      (a < s.params.nmax.toNat → hostStep (.coefWrite a v) s = .fault .coefWriteBusy) ∧
      (a < s.params.outBytes.toNat → hostStep (.outWrite a b) s = .fault .outWriteBusy) ∧
      (a < s.params.stageBytes.toNat → hostStep (.stageWrite a b) s = .fault .stageWriteBusy)) ∧
    (a % 4 ≠ 0 ∨ 0x100 ≤ a →
      hostStep (.regRead a) s = .fault .regOffset ∧ hostStep (.regWrite a x) s = .fault .regOffset)

/-- 10_state.md R39: reserved offsets read 0 and ignore writes; a misaligned or too large offset faults. -/
def Obligations.ReservedAndBadOffsets : Prop :=
  ∀ (s : State) (off : Nat) (v : Word),
    (off % 4 = 0 → 0x5C ≤ off → off < 0x100 →
      hostStep (.regRead off) s = .next { s with replies := .reg 0 :: s.replies } ∧
      hostStep (.regWrite off v) s = .next s) ∧
    (off % 4 ≠ 0 ∨ 0x100 ≤ off →
      hostStep (.regRead off) s = .fault .regOffset ∧ hostStep (.regWrite off v) s = .fault .regOffset)

/-- Each configuration register's offset and field (10_state.md R20, R23 to R27); one written reads back, also while
BUSY, and no other register changes; a write to a read-only register is ignored; CMD reads 0 (10_state.md R20, R21;
20_memory.md R73). -/
def Obligations.RegisterWritesReadBackOrAreIgnored : Prop :=
  (∀ (s : State) (v : Word),
    hostStep (.regWrite 0x08 v) s = .next { s with cfg := { s.cfg with nx := v } } ∧
    hostStep (.regWrite 0x0C v) s = .next { s with cfg := { s.cfg with ny := v } } ∧
    hostStep (.regWrite 0x10 v) s = .next { s with cfg := { s.cfg with scale := v } } ∧
    hostStep (.regWrite 0x14 v) s = .next { s with cfg := { s.cfg with capacity := v } } ∧
    hostStep (.regWrite 0x18 v) s = .next { s with cfg := { s.cfg with arg0 := v } } ∧
    hostStep (.regWrite 0x1C v) s = .next { s with cfg := { s.cfg with arg1 := v } } ∧
    hostStep (.regWrite 0x20 v) s = .next { s with cfg := { s.cfg with arg2 := v } } ∧
    hostStep (.regWrite 0x24 v) s = .next { s with cfg := { s.cfg with arg3 := v } }) ∧
  (∀ (s : State) (off : Nat) (v : Word), off ∈ [0x08, 0x0C, 0x10, 0x14, 0x18, 0x1C, 0x20, 0x24] →
    ∃ t, hostStep (.regWrite off v) s = .next t ∧
      hostStep (.regRead off) t = .next { t with replies := .reg v :: t.replies } ∧
      t = { s with cfg := t.cfg } ∧
      ∀ (r : Reg), regAt off ≠ some r → t.regValue r = s.regValue r) ∧
  (∀ (s : State) (off : Nat) (v : Word),
    off ∈ [0x04, 0x28, 0x2C, 0x30, 0x34, 0x38, 0x3C, 0x40, 0x44, 0x48, 0x4C, 0x50, 0x54, 0x58] →
    hostStep (.regWrite off v) s = .next s) ∧
  ∀ s : State, hostStep (.regRead 0x00) s = .next { s with replies := .reg 0 :: s.replies }

/-- 10_state.md R35 to R38: CONFIG, NMAX_REG, OUT_BYTES_REG and STAGE_BYTES_REG read as W (0x20 or 0x40) and the
parameters, also while BUSY; a write to one is ignored; and their values are constant over every step. -/
def Obligations.ParameterRegistersAreConstant : Prop :=
  ∀ s : State,
    (s.w = 0x20 ∨ s.w = 0x40) ∧
    hostStep (.regRead 0x4C) s = .next { s with replies := .reg (BitVec.ofNat 32 s.w) :: s.replies } ∧
    hostStep (.regRead 0x50) s = .next { s with replies := .reg s.params.nmax :: s.replies } ∧
    hostStep (.regRead 0x54) s = .next { s with replies := .reg s.params.outBytes :: s.replies } ∧
    hostStep (.regRead 0x58) s = .next { s with replies := .reg s.params.stageBytes :: s.replies } ∧
    (∀ (off : Nat) (v : Word), off ∈ [0x4C, 0x50, 0x54, 0x58] → hostStep (.regWrite off v) s = .next s) ∧
    ∀ t, step s = .next t → t.params = s.params

/-- A unit written by the Host between commands reads back, and every other unit of that space and every other space
keeps its contents (20_memory.md R60, R61, R67, R68). -/
def Obligations.HostMemoryWritesReadBack : Prop :=
  ∀ s : State, s.seq = .idle →
    (∀ (e : Nat) (v : Elem), e < s.params.nmax.toNat → ∃ t, hostStep (.coefWrite e v) s = .next t ∧
      hostStep (.coefRead e) t =
        .next { t with replies := .coef (BitVec.ofNat 64 (v.toNat % 2 ^ s.w)) :: t.replies } ∧
      t = { s with coef := t.coef } ∧ ∀ d, d ≠ e → Memory.read t.coef d = Memory.read s.coef d) ∧
    (∀ (b : Nat) (v : Byte), b < s.params.outBytes.toNat → ∃ t, hostStep (.outWrite b v) s = .next t ∧
      hostStep (.outRead b) t = .next { t with replies := .byte v :: t.replies } ∧
      t = { s with out := t.out } ∧ ∀ d, d ≠ b → Memory.read t.out d = Memory.read s.out d) ∧
    (∀ (b : Nat) (v : Byte), b < s.params.stageBytes.toNat → ∃ t, hostStep (.stageWrite b v) s = .next t ∧
      hostStep (.stageRead b) t = .next { t with replies := .byte v :: t.replies } ∧
      t = { s with stage := t.stage } ∧ ∀ d, d ≠ b → Memory.read t.stage d = Memory.read s.stage d)

/-- A read transaction returns one value and has no side effect on the core, also while BUSY (10_state.md R22;
20_memory.md R68, R73). Between commands CoefRead and OutRead reply the stored unit, and StageRead does also while BUSY
(20_memory.md R61, R63, R64, R73); and a RegRead of 0x28 to 0x48 replies the result register of 10_state.md R28 to R34,
each field at its place. -/
def Obligations.ReadsHaveNoSideEffect : Prop :=
  (∀ (s t : State) (a : Nat),
    ∀ x ∈ [Txn.regRead a, .coefRead a, .outRead a, .stageRead a], hostStep x s = .next t →
      ∃ r, t = { s with replies := r :: s.replies, draws := t.draws }) ∧
  (∀ (s : State) (e : Nat) (v : Elem), s.seq = .idle → e < s.params.nmax.toNat → Memory.read s.coef e = some v →
    hostStep (.coefRead e) s = .next { s with replies := .coef v :: s.replies }) ∧
  (∀ (s : State) (b : Nat) (v : Byte), s.seq = .idle → b < s.params.outBytes.toNat → Memory.read s.out b = some v →
    hostStep (.outRead b) s = .next { s with replies := .byte v :: s.replies }) ∧
  (∀ (s : State) (b : Nat) (v : Byte), b < s.params.stageBytes.toNat → Memory.read s.stage b = some v →
    hostStep (.stageRead b) s = .next { s with replies := .byte v :: s.replies }) ∧
  ∀ s : State, s.seq = .idle →
    let replied := fun (v : Word) => Host.Outcome.next { s with replies := .reg v :: s.replies }
    hostStep (.regRead 0x28) s = replied s.bytesUsed ∧
    hostStep (.regRead 0x2C) s = replied s.bw.cur ∧
    (∃ v : Word, hostStep (.regRead 0x30) s = replied v ∧
      v.extractLsb' 0 8 = s.bw.acc ∧ v.extractLsb' 8 4 = s.bw.free ∧ v.extractLsb' 12 20 = 0) ∧
    hostStep (.regRead 0x34) s = replied (BitVec.ofNat 32 s.bw.bitcount.toNat) ∧
    hostStep (.regRead 0x38) s = replied (BitVec.ofNat 32 (s.bw.bitcount.toNat / 2 ^ 32)) ∧
    (∃ v : Word, hostStep (.regRead 0x3C) s = replied v ∧
      v.extractLsb' 0 8 = s.nbp.c0 ∧ v.extractLsb' 8 8 = s.nbp.c1 ∧ v.extractLsb' 16 8 = s.nbp.c2 ∧
      v.extractLsb' 24 8 = 0) ∧
    hostStep (.regRead 0x40) s = replied (BitVec.ofNat 32 s.dc.toNat) ∧
    hostStep (.regRead 0x44) s = replied (BitVec.ofNat 32 (s.dc.toNat / 2 ^ 32)) ∧
    hostStep (.regRead 0x48) s = replied s.bw.cap

/-- 10_state.md R45: a running command reads only LATCH: with other live configuration registers it does the same; its
rows, columns and scale are LATCH.NX, LATCH.NY and LATCH.SCALE, signed (R23 to R25). -/
def Obligations.CommandsReadOnlyTheLatch : Prop :=
  (∀ s : State, s.rows = s.latch.cfg.nx.toInt.toNat ∧ s.cols = s.latch.cfg.ny.toInt.toNat ∧
    s.scale = s.latch.cfg.scale.toInt) ∧
  ∀ (i : Instr) (s : State) (c : ConfigRegs),
    exec i { s with cfg := c } =
      match exec i s with
      | .next t => .next { t with cfg := c }
      | .fault f => .fault f
      | .refused r => .refused r

/-- While a command runs and another host transaction comes first, the command stays latched and its completion comes
nearer, so it is eventually taken (70_reset_and_hazards.md R279; the countdown is the model's, log 4). -/
def Obligations.CompletionComesNearer : Prop :=
  (∀ s t : State, s.seq = .busy → s.engineTurn = false → step s = .next t → t.seq = .busy →
    t.latch = s.latch ∧ t.delay < s.delay) ∧
  ∀ s : State, s.seq = .busy → s.delay = 0 ∨ s.inbox = [] → step s = engineStep s

/-! ## Reset (70_reset_and_hazards.md) -/

/-- 70_reset_and_hazards.md R270: what every register reads after a Reset transaction and right after power-on, for
every choice of the parameters: 0, but BW_STATE = 0x800 and the constants; SEQ is IDLE; and a Reset between commands
leaves COEF, OUT and STAGE as they are (while BUSY, STAGE). -/
def Obligations.ResetLeavesTheRulesValues : Prop :=
  (∀ (s : State) (p : Config.Params),
    s = State.powerOn p ∨ (∃ u, u.params = p ∧ hostStep .reset u = .next s) →
    s.seq = .idle ∧ ∀ r : Reg, s.regValue r =
      match r with
        | .bwState => 0x800
        | .config => BitVec.ofNat 32 p.width.bits
        | .nmaxReg => p.nmax
        | .outBytesReg => p.outBytes
        | .stageBytesReg => p.stageBytes
        | _ => 0) ∧
  ∀ s : State, ∃ t, hostStep .reset s = .next t ∧ t.stage = s.stage ∧
    (s.seq = .idle → t.coef = s.coef ∧ t.out = s.out)

/-- A Reset while BUSY leaves alone what the abandoned command could not have written (70_reset_and_hazards.md R271):
COEF outside the image, all of COEF for the other commands, OUT at and past the writer's capacity; for BW_RESET the larger
of BW.CAP and the latched CAPACITY, and everything for an illegal word (log 11). -/
def Obligations.ResetWhileBusyTouchesOnlyTheCommandsMemory : Prop :=
  ∀ s t : State, s.seq = .busy → hostStep .reset s = .next t →
    (∀ i ∈ [Instr.transform, .quantize], decode s.latch.cmd = some i →
      t.out = s.out ∧ ∀ e, s.rows * s.cols ≤ e → Memory.read t.coef e = Memory.read s.coef e) ∧
    (∀ i ∈ [Instr.encode, .compress], decode s.latch.cmd = some i →
      (∀ e, s.rows * s.cols ≤ e → Memory.read t.coef e = Memory.read s.coef e) ∧
      ∀ a, s.latch.cfg.capacity.toNat ≤ a → Memory.read t.out a = Memory.read s.out a) ∧
    (∀ (value imm8 : Byte) (n : Nibble),
      ∀ i ∈ [Instr.qtEncode, .bwBits value n, .bwNibble imm8, .bwNibbles, .bwRaw, .bwFinish],
        decode s.latch.cmd = some i →
        t.coef = s.coef ∧ ∀ a, s.bw.cap.toNat ≤ a → Memory.read t.out a = Memory.read s.out a) ∧
    (decode s.latch.cmd = some .bwReset →
      t.coef = s.coef ∧
      ∀ a, s.bw.cap.toNat ≤ a → s.latch.cfg.capacity.toNat ≤ a → Memory.read t.out a = Memory.read s.out a) ∧
    (decode s.latch.cmd = some .nop → t.coef = s.coef ∧ t.out = s.out) ∧
    (decode s.latch.cmd = none → t.coef = s.coef ∧ t.out = s.out)

/-! ## Invariants and whole-machine rules -/

/-- The invariant holds right after power-on, for all legal parameters and for the ones chosen (log 1). -/
def Obligations.InvariantHoldsAtPowerOn : Prop :=
  (∀ p : Config.Params, p.Legal → Inv (State.powerOn p)) ∧ Inv State.reset

/-- Every step keeps the invariant: memories canonical, inside their spaces, elements of W bits; the writer's invariants
(40_bitwriter.md R128); BW.CAP inside OUT; a coherent STATUS. -/
def Obligations.EveryStepKeepsTheInvariant : Prop :=
  ∀ s t : State, Inv s → step s = .next t → Inv t

/-- No command writes a configuration register, LATCH, STAGE or a parameter, and none touches the Host's side
(10_state.md R20, R45; 20_memory.md R64). -/
def Obligations.CommandsLeaveTheHostsStateAlone : Prop :=
  ∀ s t : State, engineStep s = .next t →
    t.params = s.params ∧ t.cfg = s.cfg ∧ t.latch = s.latch ∧ t.stage = s.stage ∧ t.inbox = s.inbox ∧
    t.replies = s.replies ∧ t.status.cmdLost = s.status.cmdLost

/-- 20_memory.md R63: no command stores in OUT at an index ≥ BW.CAP, and those bytes keep their values. -/
def Obligations.NoStorePastTheCapacity : Prop :=
  ∀ s t : State, Inv s → engineStep s = .next t →
    ∀ a, t.bw.cap.toNat ≤ a → Memory.read t.out a = Memory.read s.out a

/-! ## The bit-stream writer (40_bitwriter.md) -/

/-- The writer's primitives, line by line: Emit stores at the cursor while capacity remains and otherwise drops the byte
(40_bitwriter.md R120); PutBits (R122), which emits at most one byte and keeps the writer's invariants. (BITCOUNT grows in
64 bits, so modulo 2^64, log 12.) -/
def Obligations.EmitAndPutBitsFollowTheirRules : Prop :=
  (∀ (k : Sink) (b : Byte),
    (k.bw.cur.toNat < k.bw.cap.toNat →
      (k.emit b).bw = { k.bw with cur := BitVec.ofNat 32 (k.bw.cur.toNat + 1) } ∧
      Memory.read (k.emit b).out k.bw.cur.toNat = some b ∧
      ∀ a, a ≠ k.bw.cur.toNat → Memory.read (k.emit b).out a = Memory.read k.out a) ∧
    (k.bw.cap.toNat ≤ k.bw.cur.toNat → k.emit b = { k with bw := { k.bw with ovf := true } })) ∧
  ∀ (k : Sink) (v n : Nat), WriterOk k.bw → n ≤ 8 →
    let t := (k.bw.acc.toNat <<< n) ||| (v &&& (2 ^ n - 1))
    let f := (k.bw.free.toNat : Int) - n
    let k1 := if f ≤ 0 then k.emit (BitVec.ofNat 8 ((t >>> (-f).toNat) &&& 0xFF)) else k
    let f' := if f ≤ 0 then f + 8 else f
    (k.putBits v n).out = k1.out ∧ (k.putBits v n).bw.cap = k1.bw.cap ∧ (k.putBits v n).bw.cur = k1.bw.cur ∧
    (k.putBits v n).bw.ovf = k1.bw.ovf ∧
    (k.putBits v n).bw.acc.toNat = t &&& (2 ^ (8 - f').toNat - 1) ∧
    ((k.putBits v n).bw.free.toNat : Int) = f' ∧
    (k.putBits v n).bw.bitcount = k.bw.bitcount + BitVec.ofNat 64 n ∧ WriterOk (k.putBits v n).bw

/-- BW_RESET (40_bitwriter.md R121): its word, BADARG for CAPACITY > OUT_BYTES, and the fresh writer otherwise. -/
def Obligations.BwResetStartsAFreshStream : Prop :=
  decode 0x00000010 = some .bwReset ∧
  ∀ s : State,
    (s.params.outBytes.toNat < s.latch.cfg.capacity.toNat → ∃ t, exec .bwReset s = .next t ∧
      completedAs s t (errorStatus s .badArg) s.bw s.out s.coef) ∧
    (s.latch.cfg.capacity.toNat ≤ s.params.outBytes.toNat → ∃ t, exec .bwReset s = .next t ∧
      t.bw.cap = s.latch.cfg.capacity ∧ t.bw.cur = 0 ∧ t.bw.acc = 0 ∧ t.bw.free = 8 ∧ t.bw.bitcount = 0 ∧
      t.bw.ovf = false ∧ completedAs s t (doneStatus s) t.bw s.out s.coef)

/-- BW_BITS, BW_NIBBLE, BW_NIBBLES and BW_FINISH complete with the writer's primitive (40_bitwriter.md R122 to R124, R126,
R130) and change nothing else; BW_BITS with N > 8 completes with ILLEGAL. -/
def Obligations.BitPathCommandsComplete : Prop :=
  (∀ (s : State) (value : Byte) (n : Nibble), n.toNat ≤ 8 → ∃ t, exec (.bwBits value n) s = .next t ∧
    completedAs s t (doneStatus s) (s.sink.putBits value.toNat n.toNat).bw
      (s.sink.putBits value.toNat n.toNat).out s.coef) ∧
  (∀ (s : State) (value : Byte) (n : Nibble), 8 < n.toNat → ∃ t, exec (.bwBits value n) s = .next t ∧
    completedAs s t (errorStatus s .illegal) s.bw s.out s.coef) ∧
  (∀ (s : State) (imm8 : Byte), ∃ t, exec (.bwNibble imm8) s = .next t ∧
    completedAs s t (doneStatus s) (s.sink.putBits (imm8.toNat % 16) 4).bw
      (s.sink.putBits (imm8.toNat % 16) 4).out s.coef) ∧
  (∀ s : State, ¬ badArgument s .bwNibbles → stageWritten s s.latch.cfg.arg0.toNat →
    ∃ t, exec .bwNibbles s = .next t ∧
      completedAs s t (doneStatus s)
        (s.sink.putAll ((stageBytes s s.latch.cfg.arg0.toNat).map fun b => (b.toNat % 16, 4))).bw
        (s.sink.putAll ((stageBytes s s.latch.cfg.arg0.toNat).map fun b => (b.toNat % 16, 4))).out s.coef) ∧
  ∀ s : State, ∃ t, exec .bwFinish s = .next t ∧
    completedAs s t (doneStatus s) s.sink.finish.bw s.sink.finish.out s.coef

/-- 40_bitwriter.md R126, its pseudocode: with pending bits one byte is emitted, left-justified, the padding counted,
FREE 8 and ACC 0; with nothing pending nothing changes. (BITCOUNT grows modulo 2^64, log 12.) -/
def Obligations.FinishFlushesLeftJustified : Prop :=
  ∀ s : State, WriterOk s.bw → ∃ t, exec .bwFinish s = .next t ∧
    (s.bw.free.toNat = 8 → completedAs s t (doneStatus s) s.bw s.out s.coef) ∧
    (s.bw.free.toNat < 8 →
      let e := s.sink.emit (BitVec.ofNat 8 ((s.bw.acc.toNat <<< s.bw.free.toNat) &&& 0xFF))
      completedAs s t (doneStatus s)
        { e.bw with free := 8, acc := 0, bitcount := s.bw.bitcount + BitVec.ofNat 64 s.bw.free.toNat } e.out s.coef)

/-- BW_NIBBLES leaves the same state as that many BW_NIBBLE commands with the same values (40_bitwriter.md R124, R129). -/
def Obligations.NibblesEqualSingleNibbles : Prop :=
  ∀ s : State, ¬ badArgument s .bwNibbles → stageWritten s s.latch.cfg.arg0.toNat →
    1 ≤ s.latch.cfg.arg0.toNat →
    ∃ t, exec .bwNibbles s = .next t ∧
      runCommands ((stageBytes s s.latch.cfg.arg0.toNat).map Instr.bwNibble) s = .next t

/-- BW_RAW (40_bitwriter.md R125): its word, BADARG for n > STAGE_BYTES, else all n bytes at the cursor and RESULT = 1, or
nothing and RESULT = 0; ACC, FREE, BITCOUNT and OVF stay. -/
def Obligations.RawBytesAllOrNothing : Prop :=
  decode 0x00000014 = some .bwRaw ∧
  ∀ s : State,
    let n := s.latch.cfg.arg0.toNat
    (s.params.stageBytes.toNat < n → ∃ t, exec .bwRaw s = .next t ∧
      completedAs s t (errorStatus s .badArg) s.bw s.out s.coef) ∧
    (n ≤ s.params.stageBytes.toNat → s.bw.cap.toNat < s.bw.cur.toNat + n → ∃ t, exec .bwRaw s = .next t ∧
      completedAs s t { doneStatus s with result := false } s.bw s.out s.coef) ∧
    (n ≤ s.params.stageBytes.toNat → s.bw.cur.toNat + n ≤ s.bw.cap.toNat → stageWritten s n → ∃ t, exec .bwRaw s = .next t ∧
      storesAt s t s.bw.cur.toNat (stageBytes s n) ∧ t.bw.cur.toNat = s.bw.cur.toNat + n ∧
      completedAs s t { doneStatus s with result := true } { s.bw with cur := t.bw.cur } t.out s.coef)

/-- The frame of the commands that store through the bit path: they store only in OUT from the cursor as it was up to
the cursor they leave, and keep COEF, STAGE, CAP, BYTES_USED, NBP, DC, RESULT and CMD_LOST (40_bitwriter.md R120 to R130;
43_quadtree.md R180). -/
def Obligations.BitPathFrame : Prop :=
  ∀ (s t : State) (value imm8 : Byte) (n : Nibble),
    ∀ i ∈ [Instr.bwBits value n, .bwNibble imm8, .bwNibbles, .bwFinish, .bwRaw, .qtEncode], exec i s = .next t →
      s.bw.cur.toNat ≤ s.bw.cap.toNat →
      (∀ a, a < s.bw.cur.toNat ∨ t.bw.cur.toNat ≤ a → Memory.read t.out a = Memory.read s.out a) ∧
      s.bw.cur.toNat ≤ t.bw.cur.toNat ∧ t.bw.cur.toNat ≤ t.bw.cap.toNat ∧
      (i ≠ .bwRaw → t.status.result = s.status.result) ∧
      t = { s with seq := .idle, status := t.status, bw := t.bw, out := t.out, delay := 0 } ∧
      t.bw.cap = s.bw.cap ∧ t.status.cmdLost = s.status.cmdLost

/-- The bit-string view (40_bitwriter.md R129): from a writer reset, any list of PutBits and finishes. Without overflow
the stored bytes and the pending bits are the bits passed, in order; with overflow the stored bytes are the first CAP
bytes of that string; either way BITCOUNT is its length (modulo 2^64, log 12). -/
def Obligations.WriterHoldsItsBitString : Prop :=
  ∀ (cap : Word) (out : List Host.Cell) (ops : List WriterOp), (∀ op ∈ ops, op.legal = true) →
    let k := (runOps ⟨Writer.fresh cap, out⟩ ops).1
    let bits := (runOps ⟨Writer.fresh cap, out⟩ ops).2
    k.bw.bitcount = BitVec.ofNat 64 bits.length ∧
    (k.bw.ovf = false →
      storedBits k ++ pendingBits k.bw = bits ∧ bits.length = 8 * k.bw.cur.toNat + (8 - k.bw.free.toNat)) ∧
    (k.bw.ovf = true → k.bw.cur = cap ∧ storedBits k = bits.take (8 * cap.toNat))

/-! ## TRANSFORM (41_transform.md) -/

/-- 41_transform.md R154 with the constants of R152, as bitwise masks, and wrap_W itself: the value of W bits in two's
complement congruent to its argument (00_scope.md section 5, R8). (The constants are the legacy format's,
92_eei_decisions.md D12, log 15.) -/
def Obligations.RoundingFollowsTheMasks : Prop :=
  (∀ (w : Nat) (n : Int), 0 < w →
    -(2 ^ (w - 1)) ≤ wrap w n ∧ wrap w n < 2 ^ (w - 1) ∧ (wrap w n) % 2 ^ w = n % 2 ^ w) ∧
  ∀ (w k : Nat) (h : Int),
    roundW w k .one h = wrap w (Int.land (if 0 ≤ h then h + 2 ^ k else h) (-(2 ^ (k + 1)))) ∧
    roundW w k .two h =
      wrap w (Int.land (if 0 ≤ h then h + 2 ^ (k + 1) else h + (2 ^ (k + 1) - 1)) (-(2 ^ (k + 2)))) ∧
    roundW w k .none h = h

/-- 41_transform.md R153: the four outputs of a full 2×2 block of iteration k (legacy formulas, 92_eei_decisions.md D12,
log 15). -/
def Obligations.FullBlockOutputs : Prop :=
  ∀ (w k ny nxtop nytop : Nat) (img : List Int) (i j : Nat),
    nytop ≤ ny → nxtop * ny ≤ img.length → i % 2 = 0 → j % 2 = 0 →
    i < nxtop - nxtop % 2 → j < nytop - nytop % 2 →
    let out := blockStage w k ny nxtop nytop img
    let shift : Nat := if k = 0 then 0 else 1
    let elem := fun (a : List Int) (r c : Nat) => a.getD (r * ny + c) 0
    let a00 := elem img i j
    let a01 := elem img i (j + 1)
    let a10 := elem img (i + 1) j
    let a11 := elem img (i + 1) (j + 1)
    elem out (i + 1) (j + 1) = wrap w (a11 - a10 - a01 + a00) >>> shift ∧
    elem out (i + 1) j = roundW w k .one (wrap w (a11 + a10 - a01 - a00) >>> shift) ∧
    elem out i (j + 1) = roundW w k .one (wrap w (a11 - a10 + a01 - a00) >>> shift) ∧
    elem out i j = roundW w k .two (wrap w (a11 + a10 + a01 + a00) >>> shift)

/-- 41_transform.md R155 to R157: trailing column, trailing row and corner of iteration k (legacy formulas,
92_eei_decisions.md D12, log 15); outside the active rectangle nothing changes (R161). -/
def Obligations.OneSidedBlockOutputs : Prop :=
  ∀ (w k ny nxtop nytop : Nat) (img : List Int),
    nytop ≤ ny → nxtop * ny ≤ img.length → 1 ≤ nxtop → 1 ≤ nytop →
    let out := blockStage w k ny nxtop nytop img
    let shift : Nat := if k = 0 then 0 else 1
    let elem := fun (a : List Int) (r c : Nat) => a.getD (r * ny + c) 0
    let px := elem img
    (nytop % 2 = 1 → ∀ i, i % 2 = 0 → i < nxtop - nxtop % 2 →
      elem out (i + 1) (nytop - 1) =
        roundW w k .one (wrap w ((px (i + 1) (nytop - 1) - px i (nytop - 1)) * 2 ^ (1 - shift))) ∧
      elem out i (nytop - 1) =
        roundW w k .two (wrap w ((px (i + 1) (nytop - 1) + px i (nytop - 1)) * 2 ^ (1 - shift)))) ∧
    (nxtop % 2 = 1 → ∀ j, j % 2 = 0 → j < nytop - nytop % 2 →
      elem out (nxtop - 1) (j + 1) =
        roundW w k .one (wrap w ((px (nxtop - 1) (j + 1) - px (nxtop - 1) j) * 2 ^ (1 - shift))) ∧
      elem out (nxtop - 1) j =
        roundW w k .two (wrap w ((px (nxtop - 1) (j + 1) + px (nxtop - 1) j) * 2 ^ (1 - shift)))) ∧
    (nxtop % 2 = 1 → nytop % 2 = 1 →
      elem out (nxtop - 1) (nytop - 1) =
        roundW w k .two (wrap w (px (nxtop - 1) (nytop - 1) * 2 ^ (2 - shift)))) ∧
    ∀ e, nxtop ≤ e / ny ∨ nytop ≤ e % ny → out.getD e 0 = img.getD e 0

/-- 41_transform.md R159: each active row and each active column is permuted, even positions first; the rest keeps its
place (direction: legacy, 92_eei_decisions.md D12, log 15). -/
def Obligations.ShufflePutsEvensFirst : Prop :=
  ∀ (ny nxtop nytop : Nat) (img : List Int), nytop ≤ ny → nxtop * ny ≤ img.length →
    let out := shuffleStage ny nxtop nytop img
    let elem := fun (a : List Int) (r c : Nat) => a.getD (r * ny + c) 0
    (∀ i < nxtop, ∃ r, (shuffleList (List.range nxtop))[i]? = some r ∧
      (List.range nytop).map (elem out i) = shuffleList ((List.range nytop).map (elem img r))) ∧
    ∀ e, nxtop ≤ e / ny ∨ nytop ≤ e % ny → out.getD e 0 = img.getD e 0

/-- 41_transform.md R151, R160: the number of levels is the least L with 2^L ≥ max(nx, ny), and halving (rounding up) L
times leaves a 1 × 1 rectangle; and ceil_log2 for every argument, 0 at 0 (00_scope.md section 5). -/
def Obligations.LevelsReachASingleElement : Prop :=
  (∀ n k : Nat, ceilLog2 n ≤ k ↔ n ≤ 2 ^ k) ∧
  ∀ nx ny : Nat, 1 ≤ nx → 1 ≤ ny →
    (∀ k, levelCount nx ny ≤ k ↔ max nx ny ≤ 2 ^ k) ∧
    (fun n => (n + 1) / 2)^[levelCount nx ny] nx = 1 ∧ (fun n => (n + 1) / 2)^[levelCount nx ny] ny = 1

/-- 41_transform.md R151, R160: HTransform is its iterations k = 0, 1, …, each on the rectangle of the last one halved
rounding up, the blocks before the shuffles (what an iteration does: legacy, 92_eei_decisions.md D12, log 15). -/
def Obligations.TransformRunsItsIterations : Prop :=
  ∀ (w nx ny : Nat) (img : List Int), 1 ≤ nx → 1 ≤ ny →
    hTransform w nx ny img =
      (List.range (levelCount nx ny)).foldl (fun a k =>
        let nxtop := (nx + (2 ^ k - 1)) / 2 ^ k
        let nytop := (ny + (2 ^ k - 1)) / 2 ^ k
        shuffleStage ny nxtop nytop (blockStage w k ny nxtop nytop a)) img

/-- TRANSFORM completes on every image that passes its checks, with HTransform in COEF[0 .. nx·ny − 1] and nothing else
changed but STATUS (41_transform.md R150, R161). -/
def Obligations.TransformCompletes : Prop :=
  ∀ s : State, ¬ badArgument s .transform → ¬ oversized s .transform → imageWritten s →
    ∃ t, exec .transform s = .next t ∧ imageBecomes s t (hTransform s.w s.rows s.cols (image s)) ∧
      completedAs s t (doneStatus s) s.bw s.out t.coef

/-- A whole 2×2 TRANSFORM: one level, k = 0, no shuffle to see (41_transform.md R150 to R160). -/
def Obligations.TransformOfTwoByTwo : Prop :=
  ∀ s : State, s.latch.cfg.nx = 2 → s.latch.cfg.ny = 2 → 4 ≤ s.params.nmax.toNat → imageWritten s →
    ∃ t, exec .transform s = .next t ∧
      let a := coefValue s 0
      let b := coefValue s 1
      let c := coefValue s 2
      let d := coefValue s 3
      coefValue t 0 = roundW s.w 0 .two (wrap s.w (d + c + b + a)) ∧
      coefValue t 1 = roundW s.w 0 .one (wrap s.w (d - c + b - a)) ∧
      coefValue t 2 = roundW s.w 0 .one (wrap s.w (d + c - b - a)) ∧
      coefValue t 3 = wrap s.w (d - c - b + a)

/-! ## QUANTIZE (42_quantize.md) -/

/-- 42_quantize.md R171, with its bias and truncating division. -/
def Obligations.QuantizeFollowsTheFormula : Prop :=
  ∀ (w : Nat) (x s : Int),
    (s ≤ 1 → quantize w x s = x) ∧
    (2 ≤ s → 0 < x → quantize w x s = wrap w (Int.tdiv (wrap w (x + (Int.tdiv (s + 1) 2 - 1))) s)) ∧
    (2 ≤ s → x ≤ 0 → quantize w x s = wrap w (Int.tdiv (wrap w (x - (Int.tdiv (s + 1) 2 - 1))) s))

/-- The error bound of 42_quantize.md R173 (derived there from R171): |Q(x, s)·s − x| ≤ s/2 where no wrap occurs, that
is where x with its bias fits W bits. -/
def Obligations.QuantizeErrorBound : Prop :=
  ∀ (w : Nat) (x s : Int), 0 < w → 2 ≤ s →
    let d := (s + 1) / 2 - 1
    let biased := if 0 < x then x + d else x - d
    biased < 2 ^ (w - 1) → -(2 ^ (w - 1)) ≤ biased →
    2 * |quantize w x s * s - x| ≤ s

/-- QUANTIZE (42_quantize.md R170): its word, its two checks in order, and otherwise Q of each element of
COEF[0 .. nx·ny − 1], the DC included, with nothing else changed but STATUS. -/
def Obligations.QuantizeCompletes : Prop :=
  decode 0x00000003 = some .quantize ∧
  ∀ s : State,
    (badGeometry s → ∃ t, exec .quantize s = .next t ∧
      completedAs s t (errorStatus s .badArg) s.bw s.out s.coef) ∧
    (¬ badGeometry s → oversized s .quantize → ∃ t, exec .quantize s = .next t ∧
      completedAs s t (errorStatus s .alloc) s.bw s.out s.coef) ∧
    (¬ badGeometry s → ¬ oversized s .quantize → imageWritten s → ∃ t, exec .quantize s = .next t ∧
      imageBecomes s t ((image s).map fun x => quantize s.w x s.latch.cfg.scale.toInt) ∧
      completedAs s t (doneStatus s) s.bw s.out t.coef)

/-! ## QT_ENCODE (43_quadtree.md) -/

/-- The size and codes of the finest grid (43_quadtree.md R182) and of a grid's reduction (R183). (The places of the four
members in a code are the legacy ones, 92_eei_decisions.md D9, log 15.) And what a member is: bit b of the W-bit pattern of
the COEF element, also of a negative one (R181), whose value is sint_W of that pattern (00_scope.md section 5, 20_memory.md
R61). -/
def Obligations.GridCodesFollowTheirMembers : Prop :=
  (∀ (s : State) (e b : Nat) (v : Elem), Memory.read s.coef e = some v → v.toNat < 2 ^ s.w → b < s.w →
    bitOf s.w (coefValue s e) b = v.getLsbD b ∧
    coefValue s e = if v.getLsbD (s.w - 1) then (v.toNat : Int) - 2 ^ s.w else v.toNat) ∧
  (∀ (w nqx nqy b : Nat) (px : Nat → Nat → Int),
    let g := finestGrid w nqx nqy px b
    let m := fun i j => if i < nqx ∧ j < nqy then (bitOf w (px i j) b).toNat else 0
    g.rows = (nqx + 1) / 2 ∧ g.cols = (nqy + 1) / 2 ∧ g.codes.length = g.rows * g.cols ∧
    ∀ r < g.rows, ∀ c < g.cols, (g.at r c).toNat =
      8 * m (2 * r) (2 * c) + 4 * m (2 * r) (2 * c + 1) + 2 * m (2 * r + 1) (2 * c) + m (2 * r + 1) (2 * c + 1)) ∧
  ∀ g : Grid,
    let n := fun r c => if r < g.rows ∧ c < g.cols ∧ g.at r c ≠ 0 then 1 else 0
    g.reduce.rows = (g.rows + 1) / 2 ∧ g.reduce.cols = (g.cols + 1) / 2 ∧
    g.reduce.codes.length = g.reduce.rows * g.reduce.cols ∧
    ∀ r < g.reduce.rows, ∀ c < g.reduce.cols, (g.reduce.at r c).toNat =
      8 * n (2 * r) (2 * c) + 4 * n (2 * r) (2 * c + 1) + 2 * n (2 * r + 1) (2 * c) + n (2 * r + 1) (2 * c + 1)

/-- The grids of a plane: max(Lq, 1) of them, first the finest grid, then each the reduction of the one before, the last
one the 1 × 1 apex of a nonempty block (43_quadtree.md R184; the level count is the spec's resolution of 90_conflicts.md C1,
from the legacy format, log 15). -/
def Obligations.LastGridIsTheApex : Prop :=
  ∀ (w nqx nqy b : Nat) (px : Nat → Nat → Int),
    let grids := planeGrids w nqx nqy px b
    grids.length = max (ceilLog2 (max nqx nqy)) 1 ∧ grids[0]? = some (finestGrid w nqx nqy px b) ∧
    (∀ k, k + 1 < grids.length → grids[k + 1]? = grids[k]?.map Grid.reduce) ∧
    (1 ≤ nqx → 1 ≤ nqy → ∃ g, grids.getLast? = some g ∧ g.rows = 1 ∧ g.cols = 1)

/-- The path of a plane (43_quadtree.md R186 to R188, 30_encoding.md R94), its code list written out: every nonzero code
of G0 in row-major order, then of G1, and so on (R184, R185): literal exactly when ⌊T/8⌋ ≥ max(bmax, 1); and a plane with
no set bit, like every plane of an empty block, is the marker 1111 and the placeholder 111110 (R192). (Order, test, markers
and placeholder are the legacy ones, 92_eei_decisions.md D6, D8, D13, D14, log 15.) -/
def Obligations.PlanePathFollowsTheBudget : Prop :=
  ∀ (w nqx nqy b : Nat) (px : Nat → Nat → Int),
    let g0 := finestGrid w nqx nqy px b
    let rowMajor := fun g : Grid =>
      (List.range g.rows).flatMap fun r => (List.range g.cols).map fun col => g.at r col
    let c := (List.range (max (ceilLog2 (max nqx nqy)) 1)).flatMap fun k =>
      (rowMajor (Grid.reduce^[k] g0)).filter fun code => code ≠ 0
    let total := (c.map fun s => (Rom.code s).2).sum
    let bmax := ((nqx + 1) / 2 * ((nqy + 1) / 2) + 1) / 2
    codeList (planeGrids w nqx nqy px b) = c ∧
    (max bmax 1 ≤ total / 8 →
      planeChunks w nqx nqy px b = (0x0, 4) :: (rowMajor g0).map fun s => (s.toNat, 4)) ∧
    (total / 8 < max bmax 1 →
      planeChunks w nqx nqy px b = (0xF, 4) :: (if c = [] then [(0x3E, 6)] else c.reverse.map Rom.code)) ∧
    ((∀ i < nqx, ∀ j < nqy, bitOf w (px i j) b = false) →
      chunkBits (planeChunks w nqx nqy px b) = [true, true, true, true, true, true, true, true, true, false])

/-- The Huffman table ROM: the 16 entries of 30_encoding.md R95 (code, length), symbol by symbol (legacy,
92_eei_decisions.md D7, log 15); and they are a complete prefix code (R96, derived there from R95). -/
def Obligations.HuffmanIsACompletePrefixCode : Prop :=
  (Rom.code 0 = (0x3E, 6) ∧ Rom.code 1 = (0x00, 3) ∧ Rom.code 2 = (0x01, 3) ∧ Rom.code 3 = (0x08, 4) ∧
    Rom.code 4 = (0x02, 3) ∧ Rom.code 5 = (0x09, 4) ∧ Rom.code 6 = (0x1A, 5) ∧ Rom.code 7 = (0x1B, 5) ∧
    Rom.code 8 = (0x03, 3) ∧ Rom.code 9 = (0x1C, 5) ∧ Rom.code 10 = (0x0A, 4) ∧ Rom.code 11 = (0x1D, 5) ∧
    Rom.code 12 = (0x0B, 4) ∧ Rom.code 13 = (0x1E, 5) ∧ Rom.code 14 = (0x3F, 6) ∧ Rom.code 15 = (0x0C, 4)) ∧
  (∀ s t : Fin 16, s ≠ t →
    ¬ (msbBits (Rom.code (BitVec.ofFin s)).2 (Rom.code (BitVec.ofFin s)).1 <+:
        msbBits (Rom.code (BitVec.ofFin t)).2 (Rom.code (BitVec.ofFin t)).1)) ∧
  (Rom.huffman.map fun c => 2 ^ (6 - c.2)).sum = 2 ^ 6

/-- QT_ENCODE completes on every block that passes its checks: the planes' bits appended to the writer, COEF untouched,
CAPACITY exactly when BW.OVF = 1 at its end, BITCOUNT grown by the bits emitted (43_quadtree.md R180, R189 to R191). -/
def Obligations.QtEncodeCompletes : Prop :=
  ∀ s : State, ¬ badArgument s .qtEncode → ¬ oversized s .qtEncode →
    (∀ i < s.latch.cfg.arg1.toNat, ∀ j < s.latch.cfg.arg2.toNat,
      (Memory.read s.coef (s.latch.cfg.arg0.toNat + i * s.latch.cfg.ny.toInt.toNat + j)).isSome) →
    let px := fun i j => coefValue s (s.latch.cfg.arg0.toNat + i * s.latch.cfg.ny.toInt.toNat + j)
    let chunks := ((List.range s.latch.cfg.arg3.toNat).reverse.flatMap
      fun b => planeChunks s.w s.latch.cfg.arg1.toNat s.latch.cfg.arg2.toNat px b)
    let k := s.sink.putAll chunks
    ∃ t, exec .qtEncode s = .next t ∧
      completedAs s t (if k.bw.ovf = true then errorStatus s .capacity else doneStatus s) k.bw k.out s.coef ∧
      t.bw.bitcount = s.bw.bitcount + BitVec.ofNat 64 (chunkBits chunks).length

/-! ## ENCODE, COMPRESS and NOP (44_driver.md) -/

/-- NOP only completes (44_driver.md R223); after a dropped command it leaves STATUS = 2 if BW_OVF = 0. -/
def Obligations.NopOnlyCompletes : Prop :=
  ∀ s : State, (∃ t, exec .nop s = .next t ∧ completedAs s t (doneStatus s) s.bw s.out s.coef) ∧
    ∀ t u, s.seq = .idle → s.bw.ovf = false → hostStep (.regWrite 0x00 0x00000000) s = .next t →
      engineStep t = .next u → u.statusWord = 0x00000002

/-- ENCODE, and COMPRESS on the transformed and quantized image, complete with the state of 44_driver.md R220 when their
checks pass and L < cap (R219, R222); its row RESULT = 0 where the state is a running core's, with the invariant. (BITCOUNT
= 8·P modulo 2^64, log 12; the stream's constants are legacy, log 15.) -/
def Obligations.EncodeAndCompressSucceed : Prop :=
  ∀ s : State, ¬ badArgument s .encode → ¬ oversized s .encode → imageWritten s →
    (streamLength s (image s) < s.latch.cfg.capacity.toNat →
      ∃ t, exec .encode s = .next t ∧ encodedAs s t (image s) ∧
        (Inv s → s.seq = .busy → t.status.result = false)) ∧
    (streamLength s ((hTransform s.w s.rows s.cols (image s)).map fun x => quantize s.w x s.latch.cfg.scale.toInt)
        < s.latch.cfg.capacity.toNat →
      ∃ t, exec .compress s = .next t ∧ encodedAs s t
        ((hTransform s.w s.rows s.cols (image s)).map fun x => quantize s.w x s.latch.cfg.scale.toInt) ∧
        (Inv s → s.seq = .busy → t.status.result = false))

/-- ENCODE and COMPRESS with L ≥ cap end in the state of 44_driver.md R221, whatever the values left open (log 10). -/
def Obligations.CapacityFailureState : Prop :=
  ∀ s : State, ¬ badArgument s .encode → ¬ oversized s .encode → imageWritten s →
    (s.latch.cfg.capacity.toNat ≤ streamLength s (image s) →
      ∃ t, exec .encode s = .next t ∧ overflowedAs s t) ∧
    (s.latch.cfg.capacity.toNat ≤ streamLength s (compressImage s.w s.rows s.cols s.scale (image s)) →
      ∃ t, exec .compress s = .next t ∧ overflowedAs s t)

/-- COMPRESS leaves the state that TRANSFORM, QUANTIZE and ENCODE leave when issued in turn with the same latched
registers, when each of them succeeds (44_driver.md R222). -/
def Obligations.CompressIsThePipeline : Prop :=
  ∀ s a b t : State, Inv s → exec .transform s = .next a → a.status.err = false →
    exec .quantize a = .next b → b.status.err = false → exec .encode b = .next t → t.status.err = false →
    exec .compress s = .next t

/-- The stream layout of 30_encoding.md R88 with the fields of R89 to R92 and R100: every byte of the header, the plane
bytes, the sign bits, 8 a byte from bit 7 down and zero-filled, and the length L = 25 + P + S. (The magic is the legacy
one, 92_eei_decisions.md D5, log 15.) -/
def Obligations.StreamLayout : Prop :=
  ∀ (w : Nat) (c : ConfigRegs) (nx ny : Nat) (img : List Int),
    let stream := encodeStream w c nx ny img
    let mags := magnitudes w img
    let p := (chunkBits (planeStreamChunks w nx ny mags)).length
    let nsigns := ((img.set 0 0).filter (· != 0)).length
    stream.length = 25 + (p + 7) / 8 + (nsigns + 7) / 8 ∧
    stream[0]? = some 0xDD ∧ stream[1]? = some 0x99 ∧
    (∀ k < 4, stream[2 + k]? = some (c.nx.extractLsb' (24 - 8 * k) 8) ∧
      stream[6 + k]? = some (c.ny.extractLsb' (24 - 8 * k) 8) ∧
      stream[10 + k]? = some (c.scale.extractLsb' (24 - 8 * k) 8)) ∧
    (∀ k < 8, stream[14 + k]? = some ((BitVec.ofInt 64 (img.getD 0 0)).extractLsb' (56 - 8 * k) 8)) ∧
    (∀ q < 3, stream[22 + q]? = some (BitVec.ofNat 8 (planeCount nx ny mags q))) ∧
    (∀ k < (p + 7) / 8, stream[25 + k]? = (planeBytes w nx ny mags)[k]?) ∧
    ∀ k < (nsigns + 7) / 8, ∀ j < 8,
      (stream[25 + (p + 7) / 8 + k]?).map (fun y => y.getLsbD (7 - j)) =
        some ((signBits (img.set 0 0)).getD (8 * k + j) false)

/-- 30_encoding.md R102, 44_driver.md R216, R217: the plane stream is the planes of the four quadrants, each from its
highest plane down, top-left, top-right, bottom-left, bottom-right, then the terminator nibble (the quadrant order and the
planes' coding are legacy, 92_eei_decisions.md D10, log 15). -/
def Obligations.PlaneStreamIsTheFourQuadrants : Prop :=
  ∀ (w nx ny : Nat) (mags : List Int),
    let nx2 := (nx + 1) / 2
    let ny2 := (ny + 1) / 2
    let m := fun i j => mags.getD (i * ny + j) 0
    let planes := fun (rows cols : Nat) (px : Nat → Nat → Int) (c : Nat) =>
      (List.range (planeCount nx ny mags c)).reverse.flatMap fun b => planeChunks w rows cols px b
    planeStreamChunks w nx ny mags =
      planes nx2 ny2 (fun i j => m i j) 0 ++
      planes nx2 (ny - ny2) (fun i j => m i (ny2 + j)) 1 ++
      planes (nx - nx2) ny2 (fun i j => m (nx2 + i) j) 1 ++
      planes (nx - nx2) (ny - ny2) (fun i j => m (nx2 + i) (ny2 + j)) 2 ++ [(0x0, 4)]

/-- The plane bytes are what the bit-stream writer itself stores: with room for them, PutBits of the plane stream and a
finish leave exactly these bytes in OUT, nothing pending, and BITCOUNT = 8·P (44_driver.md R211, R217, R220), modulo 2^64
(log 12). -/
def Obligations.PlaneBytesAreTheWritersOwn : Prop :=
  ∀ (cap : Word) (out : List Host.Cell) (w nx ny : Nat) (mags : List Int), (planeBytes w nx ny mags).length ≤ cap.toNat →
    let k := (Sink.putAll ⟨Writer.fresh cap, out⟩ (planeStreamChunks w nx ny mags)).finish
    (∀ a < (planeBytes w nx ny mags).length, Memory.read k.out a = (planeBytes w nx ny mags)[a]?) ∧
    k.bw.cur.toNat = (planeBytes w nx ny mags).length ∧ k.bw.ovf = false ∧ k.bw.free = 8 ∧ k.bw.acc = 0 ∧
    k.bw.bitcount = BitVec.ofNat 64 (8 * (planeBytes w nx ny mags).length)

/-- 44_driver.md R215: nbitplanes[c] is the least bit count that holds every magnitude of category c. -/
def Obligations.PlaneCountIsTheLeastBitLength : Prop :=
  ∀ (nx ny : Nat) (mags : List Int) (c n : Nat),
    planeCount nx ny mags c ≤ n ↔
      ∀ i < nx, ∀ j < ny,
        (if (ny + 1) / 2 ≤ j then 1 else 0) + (if (nx + 1) / 2 ≤ i then 1 else 0) = c →
        mags.getD (i * ny + j) 0 < 2 ^ n

/-- 44_driver.md R214, 30_encoding.md R100 (polarity: legacy, 92_eei_decisions.md D11, log 15): one sign bit for each
nonzero element in index order, 1 for negative; and stripped elements are their magnitudes. -/
def Obligations.SignsAreStrippedInOrder : Prop :=
  ∀ (w : Nat) (img : List Int),
    signBits img = img.flatMap (fun v => if v = 0 then [] else [decide (v < 0)]) ∧
    (∀ e, 1 ≤ e → e < img.length → (magnitudes w img).getD e 0 =
      if img.getD e 0 < 0 then wrap w (-(img.getD e 0)) else img.getD e 0) ∧
    (magnitudes w img).getD 0 0 = 0

/-- Every stream has at least 26 bytes, so ENCODE with CAPACITY ≤ 26 never succeeds (44_driver.md R219, R226). -/
def Obligations.StreamsHaveAtLeast26Bytes : Prop :=
  (∀ (w : Nat) (c : ConfigRegs) (nx ny : Nat) (img : List Int), 26 ≤ (encodeStream w c nx ny img).length) ∧
  ∀ s t : State, s.latch.cfg.capacity.toNat ≤ 26 → exec .encode s = .next t → t.status.err = true

/-- 44_driver.md R225: the stream of an all-zero image is the header, a zero DC, 00 00 00 and one byte 00. -/
def Obligations.AllZeroImageStream : Prop :=
  ∀ (w : Nat) (c : ConfigRegs) (nx ny : Nat),
    encodeStream w c nx ny (List.replicate (nx * ny) 0) =
      headerBytes c ++ List.replicate 8 0 ++ [0, 0, 0] ++ [0] ∧
    (encodeStream w c nx ny (List.replicate (nx * ny) 0)).length = 26

/-- ENCODE and COMPRESS are functions of the latched registers and the image: two cores with the same parameters (W, NMAX,
OUT_BYTES, STAGE_BYTES) that agree on those store the same stream and the same results (44_driver.md R224). -/
def Obligations.EncodingIsDeterministic : Prop :=
  ∀ i ∈ [Instr.encode, .compress], ∀ s t a b : State,
    s.params = t.params → s.latch.cfg = t.latch.cfg → (∀ e < s.rows * s.cols, Memory.read s.coef e = Memory.read t.coef e) →
    exec i s = .next a → exec i t = .next b → a.status.err = false →
    b.status.err = false ∧ a.bytesUsed = b.bytesUsed ∧ a.nbp = b.nbp ∧ a.dc = b.dc ∧ a.bw = b.bw ∧
    ∀ k < a.bytesUsed.toNat, Memory.read a.out k = Memory.read b.out k
end

