-- ==== Sys2Proof/Laws/Arith.lean ====
section
/-! SUPPORT. Element arithmetic and bit strings: what wrap, patterns, logarithms and packing do. -/

namespace Sys2Proof.Machine

open Sys2Proof (Byte)

/-! ## wrap_W and patterns -/

theorem two_pow_pos_int (w : Nat) : (0 : Int) < 2 ^ w := by positivity

theorem two_pow_half (w : Nat) (hw : 0 < w) : (2 : Int) ^ w = 2 * 2 ^ (w - 1) := by
  obtain ⟨k, rfl⟩ : ∃ k, w = k + 1 := ⟨w - 1, by omega⟩
  simp [pow_succ, Int.mul_comm]

@[simp] theorem wrap_wrap (w : Nat) (n : Int) : wrap w (wrap w n) = wrap w n := by
  simp [wrap]

theorem wrap_emod (w : Nat) (n : Int) : wrap w (n % 2 ^ w) = wrap w n := by
  have := @Int.emod_bmod n (2 ^ w)
  simpa [wrap] using this

theorem wrap_mod_eq (w : Nat) (n : Int) : wrap w n % 2 ^ w = n % 2 ^ w := by
  have := @Int.bmod_emod n (2 ^ w)
  simpa [wrap] using this

/-- The range of W-bit signed values. -/
theorem wrap_range {w : Nat} (hw : 0 < w) (n : Int) : -(2 ^ (w - 1)) ≤ wrap w n ∧ wrap w n < 2 ^ (w - 1) := by
  have hp := two_pow_half w hw
  have hpos : (0 : Int) < 2 ^ (w - 1) := two_pow_pos_int _
  have h1 := @Int.le_bmod n (2 ^ w) (by positivity)
  have h2 := @Int.bmod_lt n (2 ^ w) (by positivity)
  simp only [wrap]
  push_cast at h1 h2 ⊢
  rw [hp] at h1 h2
  rw [show (2 : Int) ^ w = 2 * 2 ^ (w - 1) from hp] at *
  omega

theorem wrap_eq_self {w : Nat} (hw : 0 < w) {n : Int} (h1 : -(2 ^ (w - 1)) ≤ n) (h2 : n < 2 ^ (w - 1)) :
    wrap w n = n := by
  have hp := two_pow_half w hw
  have hpos : (0 : Int) < 2 ^ (w - 1) := two_pow_pos_int _
  simp only [wrap]
  refine Int.bmod_eq_of_le ?_ ?_
  · push_cast; rw [hp]; omega
  · push_cast; rw [hp]; omega

theorem fits_iff (w : Nat) (n : Int) : fits w n = true ↔ wrap w n = n := by simp [fits]

theorem Width.bits_pos (p : Config.Width) : 0 < p.bits := by cases p <;> decide

theorem Width.bits_le (p : Config.Width) : p.bits ≤ 64 := by cases p <;> decide

theorem State.w_pos (s : State) : 0 < s.w := Width.bits_pos _

theorem State.w_le (s : State) : s.w ≤ 64 := Width.bits_le _

theorem pattern_toNat {w : Nat} (hw : w ≤ 64) (n : Int) : (pattern w n).toNat = (n % 2 ^ w).toNat := by
  have h1 : (0 : Int) ≤ n % 2 ^ w := Int.emod_nonneg _ (two_pow_pos_int w).ne'
  have h2 : n % 2 ^ w < 2 ^ w := Int.emod_lt_of_pos _ (two_pow_pos_int w)
  have h3 : (2 : Nat) ^ w ≤ 2 ^ 64 := Nat.pow_le_pow_right (by decide) hw
  have h4 : (n % 2 ^ w).toNat < 2 ^ w := by
    have : ((n % 2 ^ w).toNat : Int) < ((2 ^ w : Nat) : Int) := by rw [Int.toNat_of_nonneg h1]; push_cast; exact h2
    exact_mod_cast this
  simp only [pattern, BitVec.toNat_ofNat]
  exact Nat.mod_eq_of_lt (by omega)

theorem pattern_lt {w : Nat} (hw : w ≤ 64) (n : Int) : (pattern w n).toNat < 2 ^ w := by
  rw [pattern_toNat hw]
  have h1 : (0 : Int) ≤ n % 2 ^ w := Int.emod_nonneg _ (two_pow_pos_int w).ne'
  have h2 : n % 2 ^ w < 2 ^ w := Int.emod_lt_of_pos _ (two_pow_pos_int w)
  have : ((n % 2 ^ w).toNat : Int) < ((2 ^ w : Nat) : Int) := by rw [Int.toNat_of_nonneg h1]; push_cast; exact h2
  exact_mod_cast this

/-- A value stored and read back is its wrap. -/
theorem sint_pattern {w : Nat} (hw : w ≤ 64) (n : Int) : sint w (pattern w n) = wrap w n := by
  have h1 : (0 : Int) ≤ n % 2 ^ w := Int.emod_nonneg _ (two_pow_pos_int w).ne'
  rw [sint, pattern_toNat hw, Int.toNat_of_nonneg h1, wrap_emod]

@[simp] theorem wrap_sint (w : Nat) (p : Elem) : wrap w (sint w p) = sint w p := by simp [sint]

/-- A pattern of W bits read and stored again is itself. -/
theorem pattern_sint {w : Nat} (hw : w ≤ 64) {p : Elem} (hp : p.toNat < 2 ^ w) : pattern w (sint w p) = p := by
  apply BitVec.eq_of_toNat_eq
  rw [pattern_toNat hw, sint, wrap_mod_eq, Int.emod_eq_of_lt (by omega) (by exact_mod_cast hp)]
  simp

/-- Bit b of an element is bit b of its stored pattern, whatever its sign (43_quadtree.md R181). -/
theorem bitOf_sint {w : Nat} {p : Elem} (hp : p.toNat < 2 ^ w) (b : Nat) : bitOf w (sint w p) b = p.getLsbD b := by
  rw [bitOf, sint, wrap_mod_eq, Int.emod_eq_of_lt (by omega) (by exact_mod_cast hp), Int.toNat_natCast]
  rfl

/-- The signed value of a W-bit pattern, its top bit the sign (00_scope.md section 5). -/
theorem sint_eq {w : Nat} (hw : 0 < w) {p : Elem} (hp : p.toNat < 2 ^ w) :
    sint w p = if p.getLsbD (w - 1) then (p.toNat : Int) - 2 ^ w else p.toNat := by
  have h2 := two_pow_half w hw
  have hN : (2 : Nat) ^ w = 2 * 2 ^ (w - 1) := by exact_mod_cast h2
  have htop : p.getLsbD (w - 1) = decide (2 ^ (w - 1) ≤ p.toNat) := by
    rw [BitVec.getLsbD, Nat.testBit_eq_decide_div_mod_eq]
    have hpos : 0 < 2 ^ (w - 1) := Nat.two_pow_pos _
    by_cases h : 2 ^ (w - 1) ≤ p.toNat
    · have : p.toNat / 2 ^ (w - 1) = 1 := Nat.div_eq_of_lt_le (by omega) (by omega)
      simp [h, this]
    · have : p.toNat / 2 ^ (w - 1) = 0 := Nat.div_eq_of_lt (by omega)
      simp [h, this]
  have hcast : ((2 ^ (w - 1) : Nat) : Int) = 2 ^ (w - 1) := by push_cast; rfl
  rw [htop, sint]
  by_cases h : 2 ^ (w - 1) ≤ p.toNat
  · have hshift : wrap w (p.toNat : Int) = wrap w ((p.toNat : Int) - 2 ^ w) := by
      rw [← wrap_emod w ((p.toNat : Int) - 2 ^ w), Int.sub_emod_right, wrap_emod]
    have hge : (2 ^ (w - 1) : Int) ≤ p.toNat := by exact_mod_cast h
    have hlt : (p.toNat : Int) < 2 ^ w := by exact_mod_cast hp
    rw [hshift, wrap_eq_self hw (by rw [h2]; omega) (by have := two_pow_pos_int (w - 1); omega)]
    simp [h]
  · have hlt : (p.toNat : Int) < 2 ^ (w - 1) := by exact_mod_cast (Nat.not_le.mp h)
    rw [wrap_eq_self hw (by have := two_pow_pos_int (w - 1); omega) hlt]
    simp [h]

/-! ## Shifts and masks -/

theorem clearLow_le (k : Nat) (x : Int) : clearLow k x ≤ x ∧ x < clearLow k x + 2 ^ k := by
  have hp := two_pow_pos_int k
  have h1 := Int.emod_add_mul_ediv x (2 ^ k)
  have h2 := Int.emod_nonneg x hp.ne'
  have h3 := Int.emod_lt_of_pos x hp
  simp only [clearLow, asr]
  rw [Int.mul_comm]
  omega

/-! ## Logarithms -/

theorem ceilLog2_le {n k : Nat} (h : n ≤ 2 ^ k) : ceilLog2 n ≤ k := by
  simp only [ceilLog2]
  split
  · omega
  · have : n - 1 < 2 ^ k := by omega
    have := (Nat.log2_lt (by omega)).mpr this
    omega

theorem le_two_pow_ceilLog2 (n : Nat) : n ≤ 2 ^ ceilLog2 n := by
  simp only [ceilLog2]
  split
  · simp; omega
  · have := @Nat.lt_log2_self (n - 1)
    omega

/-- `ceil_log2(n)` is the least k with 2^k ≥ n (00_scope.md section 5). -/
theorem ceilLog2_le_iff (n k : Nat) : ceilLog2 n ≤ k ↔ n ≤ 2 ^ k :=
  ⟨fun h => (le_two_pow_ceilLog2 n).trans (Nat.pow_le_pow_right (by decide) h), ceilLog2_le⟩

/-- `bitlen(n)` is the least k with n < 2^k (44_driver.md R215). -/
theorem bitLen_le_iff (n k : Nat) : bitLen n ≤ k ↔ n < 2 ^ k := by
  simp only [bitLen]
  split
  · subst n; simp
  · rename_i h
    rw [← Nat.log2_lt h]
    omega

/-! ## Bit strings -/

@[simp] theorem msbBits_length (n v : Nat) : (msbBits n v).length = n := by simp [msbBits]

@[simp] theorem bigEndian_length (n v : Nat) : (bigEndian n v).length = n := by simp [bigEndian]

@[simp] theorem packBytes_length (n : Nat) (bs : List Bool) : (packBytes n bs).length = n := by
  induction n generalizing bs with
  | zero => rfl
  | succ n ih => simp [packBytes, ih]

@[simp] theorem packBits_length (bs : List Bool) : (packBits bs).length = (bs.length + 7) / 8 := by
  simp [packBits]

/-- The most significant of n + 1 bits comes first. -/
theorem msbBits_succ (n v : Nat) : msbBits (n + 1) v = v.testBit n :: msbBits n v := by
  simp only [msbBits, List.range_succ_eq_map, List.map_cons, List.map_map]
  congr 1
  refine List.map_congr_left fun i _ => ?_
  simp only [Function.comp_apply]
  congr 1
  omega

/-- The bits of a value in m + n bits: the upper m, then the lower n. -/
theorem msbBits_add (m n v : Nat) : msbBits (m + n) v = msbBits m (v / 2 ^ n) ++ msbBits n v := by
  induction m with
  | zero => simp [msbBits]
  | succ m ih =>
    rw [show m + 1 + n = (m + n) + 1 by omega, msbBits_succ, ih, msbBits_succ]
    simp [Nat.testBit_div_two_pow, Nat.add_comm]

/-- Only the low n bits of a value matter. -/
theorem msbBits_mod (n v : Nat) : msbBits n (v % 2 ^ n) = msbBits n v := by
  simp only [msbBits]
  refine List.map_congr_left fun i hi => ?_
  have : i < n := List.mem_range.mp hi
  rw [Nat.testBit_mod_two_pow]
  simp
  omega

theorem msbBits_append_low (m n a v : Nat) : msbBits (m + n) (a * 2 ^ n + v % 2 ^ n) = msbBits m a ++ msbBits n v := by
  have hp : 0 < 2 ^ n := Nat.two_pow_pos n
  rw [msbBits_add]
  congr 1
  · rw [Nat.add_comm, Nat.add_mul_div_right _ _ hp, Nat.div_eq_of_lt (Nat.mod_lt _ hp), Nat.zero_add]
  · rw [← msbBits_mod, Nat.add_comm, Nat.add_mul_mod_self_right, Nat.mod_mod, msbBits_mod]

end Sys2Proof.Machine
end

