-- ==== Sys2Proof/Laws/Memory.lean ====
section
/-! SUPPORT. The memory operations: read after write, frames, and the canonical form that every one of them keeps. -/

namespace Sys2Proof.Machine

variable {α : Type}

/-! ## One unit -/

@[simp] theorem Memory.read_nil (a : Nat) : Memory.read ([] : Store α) a = none := rfl

theorem Memory.read_write_same (m : Store α) (a : Nat) (v : α) : Memory.read (Memory.write m a v) a = some v := by
  induction m with
  | nil => simp [Memory.write, Memory.read]
  | cons c m ih =>
    obtain ⟨b, u⟩ := c
    simp only [Memory.write]
    split
    · simp [Memory.read]
    · split
      · simp [Memory.read]
      · simp only [Memory.read, ih]
        split
        · contradiction
        · rfl

theorem Memory.read_write_other (m : Store α) {a b : Nat} (v : α) (h : b ≠ a) :
    Memory.read (Memory.write m a v) b = Memory.read m b := by
  induction m with
  | nil => simp [Memory.write, Memory.read, h]
  | cons c m ih =>
    obtain ⟨d, u⟩ := c
    simp only [Memory.write]
    split
    · simp [Memory.read, h]
    · split
      · subst d; simp [Memory.read, h]
      · simp only [Memory.read, ih]

theorem Memory.mem_write {m : Store α} {a : Nat} {v : α} {c : Nat × α} (h : c ∈ Memory.write m a v) :
    c = (a, v) ∨ c ∈ m := by
  induction m with
  | nil => simpa [Memory.write] using h
  | cons d m ih =>
    obtain ⟨b, u⟩ := d
    simp only [Memory.write] at h
    split at h
    · simpa using h
    · split at h
      · rcases List.mem_cons.mp h with h | h
        · exact .inl h
        · exact .inr (List.mem_cons_of_mem _ h)
      · rcases List.mem_cons.mp h with h | h
        · exact .inr (by simp [h])
        · exact (ih h).imp id (List.mem_cons_of_mem _)

theorem Memory.wf_write {m : Store α} (h : Memory.wf m) (a : Nat) (v : α) : Memory.wf (Memory.write m a v) := by
  induction m with
  | nil => simp [Memory.write, Memory.wf]
  | cons c m ih =>
    obtain ⟨b, u⟩ := c
    obtain ⟨hb, hm⟩ := List.pairwise_cons.mp h
    simp only [Memory.write]
    split
    · rename_i hlt
      refine List.pairwise_cons.mpr ⟨fun d hd => ?_, h⟩
      rcases List.mem_cons.mp hd with rfl | hd
      · exact hlt
      · exact Nat.lt_trans hlt (hb d hd)
    · split
      · subst a
        exact List.pairwise_cons.mpr ⟨hb, hm⟩
      · refine List.pairwise_cons.mpr ⟨fun d hd => ?_, ih hm⟩
        rcases Memory.mem_write hd with rfl | hd
        · show b < a
          omega
        · exact hb d hd

theorem Memory.within_write {m : Store α} {n a : Nat} (h : Memory.within n m) (ha : a < n) (v : α) :
    Memory.within n (Memory.write m a v) := by
  intro c hc
  rcases Memory.mem_write hc with rfl | hc
  · exact ha
  · exact h c hc

/-- In a canonical memory the listed units are what a read returns. -/
theorem Memory.read_eq_some_iff {m : Store α} (h : Memory.wf m) (a : Nat) (v : α) :
    Memory.read m a = some v ↔ (a, v) ∈ m := by
  induction m with
  | nil => simp
  | cons c m ih =>
    obtain ⟨b, u⟩ := c
    obtain ⟨hb, hm⟩ := List.pairwise_cons.mp h
    simp only [Memory.read]
    split
    · subst a
      constructor
      · intro e; simp_all
      · intro e
        rcases List.mem_cons.mp e with e | e
        · simp_all
        · exact absurd (hb _ e) (Nat.lt_irrefl _)
    · rename_i hne
      rw [ih hm]
      constructor
      · exact List.mem_cons_of_mem _
      · intro e
        rcases List.mem_cons.mp e with e | e
        · exact absurd (Prod.mk.inj e).1 hne
        · exact e

/-- Equal memories are equal data: two canonical memories that read alike are the same list. -/
theorem Memory.ext_of_wf {m n : Store α} (hm : Memory.wf m) (hn : Memory.wf n)
    (h : ∀ a, Memory.read m a = Memory.read n a) : m = n := by
  induction m generalizing n with
  | nil =>
    cases n with
    | nil => rfl
    | cons c n => have := h c.1; simp [Memory.read] at this
  | cons c m ih =>
    cases n with
    | nil => have := h c.1; simp [Memory.read] at this
    | cons d n =>
      obtain ⟨hc, hm'⟩ := List.pairwise_cons.mp hm
      obtain ⟨hd, hn'⟩ := List.pairwise_cons.mp hn
      have h1 : (c.1, c.2) ∈ d :: n := (Memory.read_eq_some_iff hn _ _).mp (by rw [← h]; simp [Memory.read])
      have h2 : (d.1, d.2) ∈ c :: m := (Memory.read_eq_some_iff hm _ _).mp (by rw [h]; simp [Memory.read])
      have hcd : c = d := by
        rcases List.mem_cons.mp h1 with e | e
        · exact e
        · rcases List.mem_cons.mp h2 with f | f
          · exact f.symm
          · have := hd _ e
            have := hc _ f
            simp only at *
            omega
      subst hcd
      congr 1
      refine ih hm' hn' fun a => ?_
      have ha := h a
      simp only [Memory.read] at ha
      split at ha
      · rename_i hac
        subst hac
        have key : ∀ l : Store α, (∀ x ∈ l, c.1 < x.1) → Memory.read l c.1 = none := by
          intro l hl
          induction l with
          | nil => rfl
          | cons x l ihl =>
            have hx := hl x (by simp)
            simp only [Memory.read]
            split
            · omega
            · exact ihl fun y hy => hl y (List.mem_cons_of_mem _ hy)
        rw [key m hc, key n hd]
      · exact ha

/-! ## Runs of units -/

theorem Memory.wf_writeList {m : Store α} (h : Memory.wf m) (a : Nat) (vs : List α) :
    Memory.wf (Memory.writeList m a vs) := by
  induction vs generalizing m a with
  | nil => exact h
  | cons v vs ih => exact ih (Memory.wf_write h a v) (a + 1)

theorem Memory.within_writeList {m : Store α} {n a : Nat} (h : Memory.within n m) (vs : List α)
    (ha : a + vs.length ≤ n) : Memory.within n (Memory.writeList m a vs) := by
  induction vs generalizing m a with
  | nil => exact h
  | cons v vs ih =>
    simp only [List.length_cons] at ha
    exact ih (Memory.within_write h (by omega) v) (by omega)

theorem Memory.mem_writeList {m : Store α} {a : Nat} {vs : List α} {c : Nat × α}
    (h : c ∈ Memory.writeList m a vs) : c.2 ∈ vs ∨ c ∈ m := by
  induction vs generalizing m a with
  | nil => exact .inr h
  | cons v vs ih =>
    rcases ih h with h | h
    · exact .inl (List.mem_cons_of_mem _ h)
    · rcases Memory.mem_write h with rfl | h
      · exact .inl (by simp)
      · exact .inr h

theorem Memory.read_writeList_outside (m : Store α) {a b : Nat} (vs : List α) (h : b < a ∨ a + vs.length ≤ b) :
    Memory.read (Memory.writeList m a vs) b = Memory.read m b := by
  induction vs generalizing m a with
  | nil => rfl
  | cons v vs ih =>
    simp only [List.length_cons] at h
    simp only [Memory.writeList]
    rw [ih _ (by omega), Memory.read_write_other _ _ (by omega)]

theorem Memory.read_writeList_inside (m : Store α) (a : Nat) {k : Nat} (vs : List α) (h : k < vs.length) :
    Memory.read (Memory.writeList m a vs) (a + k) = some vs[k] := by
  induction vs generalizing m a k with
  | nil => simp at h
  | cons v vs ih =>
    simp only [Memory.writeList]
    cases k with
    | zero => rw [Memory.read_writeList_outside _ _ (by omega), Nat.add_zero, Memory.read_write_same]; rfl
    | succ k =>
      have h' : k < vs.length := by simpa using h
      have := ih (Memory.write m a v) (a + 1) h'
      rw [show a + 1 + k = a + (k + 1) by omega] at this
      simpa using this

/-- A run written over by another of the same length is forgotten. -/
theorem Memory.writeList_writeList {m : Store α} (h : Memory.wf m) (a : Nat) (us vs : List α)
    (hl : us.length = vs.length) :
    Memory.writeList (Memory.writeList m a us) a vs = Memory.writeList m a vs := by
  refine Memory.ext_of_wf (wf_writeList (wf_writeList h _ _) _ _) (wf_writeList h _ _) fun b => ?_
  by_cases hb : b < a ∨ a + vs.length ≤ b
  · rw [read_writeList_outside _ _ hb, read_writeList_outside _ _ (by omega), read_writeList_outside _ _ hb]
  · obtain ⟨k, rfl⟩ : ∃ k, b = a + k := ⟨b - a, by omega⟩
    rw [read_writeList_inside _ _ vs (by omega), read_writeList_inside _ _ vs (by omega)]

/-! ## Gathering -/

theorem Memory.readAll_eq_some_iff (m : Store α) (as : List Nat) (vs : List α) :
    Memory.readAll m as = some vs ↔ as.map (Memory.read m) = vs.map some := by
  induction as generalizing vs with
  | nil => cases vs <;> simp [Memory.readAll]
  | cons a as ih =>
    simp only [Memory.readAll, List.map_cons]
    split
    · rename_i v us hv hus
      have := (ih us).mp hus
      rw [hv, this]
      cases vs with
      | nil => simp
      | cons u vs =>
        simp only [Option.some.injEq, List.cons.injEq, List.map_cons]
        exact and_congr_right fun _ =>
          ⟨fun h => by rw [h], fun h => List.map_injective_iff.mpr (Option.some_injective α) h⟩
    · rename_i hno
      cases vs with
      | nil => simp
      | cons u vs =>
        simp only [reduceCtorEq, List.map_cons, List.cons.injEq, false_iff, not_and]
        intro hu hvs
        exact hno u vs hu ((ih vs).mpr hvs)

theorem Memory.readAll_length {m : Store α} {as : List Nat} {vs : List α} (h : Memory.readAll m as = some vs) :
    vs.length = as.length := by
  have := congrArg List.length ((Memory.readAll_eq_some_iff m as vs).mp h)
  simpa using this.symm

/-- Where every unit has been written, gathering succeeds. -/
theorem Memory.readAll_isSome {m : Store α} {as : List Nat} (h : ∀ a ∈ as, (Memory.read m a).isSome) :
    (Memory.readAll m as).isSome := by
  induction as with
  | nil => rfl
  | cons a as ih =>
    obtain ⟨v, hv⟩ := Option.isSome_iff_exists.mp (h a (by simp))
    obtain ⟨vs, hvs⟩ := Option.isSome_iff_exists.mp (ih fun b hb => h b (List.mem_cons_of_mem _ hb))
    simp [Memory.readAll, hv, hvs]

theorem Memory.readAll_writeList (m : Store α) (vs : List α) :
    Memory.readAll (Memory.writeList m 0 vs) (List.range vs.length) = some vs := by
  rw [Memory.readAll_eq_some_iff]
  refine List.ext_getElem (by simp) fun k h1 h2 => ?_
  have hk : k < vs.length := by simpa using h1
  have := Memory.read_writeList_inside m 0 vs hk
  simpa using this

/-! ## Reset -/

theorem State.powerOn_memories_wf (p : Config.Params) :
    Memory.wf (State.powerOn p).coef ∧ Memory.wf (State.powerOn p).out ∧ Memory.wf (State.powerOn p).stage := by
  simp [State.powerOn, Memory.wf]

theorem State.reset_memories_wf :
    Memory.wf State.reset.coef ∧ Memory.wf State.reset.out ∧ Memory.wf State.reset.stage :=
  State.powerOn_memories_wf Config.chosen

end Sys2Proof.Machine
end

