-- ==== Sys2Proof/Laws/Writer.lean ====
section
/-! SUPPORT. The writer's primitives: the invariants they keep, what they leave alone, and the bits they append. -/

namespace Sys2Proof.Machine

open Sys2Proof (Byte Word)
open Sys2Proof.Safety

/-! ## Emit (40_bitwriter.md R120) -/

/-- Everything Emit can do. -/
theorem Sink.emit_cases (k : Sink) (b : Byte) :
    (k.bw.cur < k.bw.cap ∧
      k.emit b = ⟨{ k.bw with cur := k.bw.cur + 1 }, Memory.write k.out k.bw.cur.toNat b⟩) ∨
    (¬ k.bw.cur < k.bw.cap ∧ k.emit b = ⟨{ k.bw with ovf := true }, k.out⟩) := by
  unfold Sink.emit
  split
  · exact .inl ⟨‹_›, rfl⟩
  · exact .inr ⟨‹_›, rfl⟩

theorem succ_toNat_of_lt {a b : Word} (h : a < b) : (a + 1).toNat = a.toNat + 1 := by
  have h1 : a.toNat < b.toNat := h
  have h2 := b.isLt
  rw [BitVec.toNat_add]
  simp
  omega

@[simp] theorem Sink.setBits_out (k : Sink) (t f n : Nat) : (k.setBits t f n).out = k.out := rfl
@[simp] theorem Sink.setBits_cap (k : Sink) (t f n : Nat) : (k.setBits t f n).bw.cap = k.bw.cap := rfl
@[simp] theorem Sink.setBits_cur (k : Sink) (t f n : Nat) : (k.setBits t f n).bw.cur = k.bw.cur := rfl
@[simp] theorem Sink.setBits_ovf (k : Sink) (t f n : Nat) : (k.setBits t f n).bw.ovf = k.bw.ovf := rfl
@[simp] theorem Sink.setBits_bitcount (k : Sink) (t f n : Nat) :
    (k.setBits t f n).bw.bitcount = k.bw.bitcount + BitVec.ofNat 64 n := rfl
theorem Sink.setBits_free (k : Sink) (t n : Nat) {f : Nat} (hf : f ≤ 8) :
    (k.setBits t f n).bw.free.toNat = f := by
  simp [Sink.setBits]; omega
theorem Sink.setBits_acc (k : Sink) (t n : Nat) (f : Nat) :
    (k.setBits t f n).bw.acc.toNat = t % 2 ^ (8 - f) := by
  have h : t % 2 ^ (8 - f) < 2 ^ (8 - f) := Nat.mod_lt _ (Nat.two_pow_pos _)
  have h2 : (2 : Nat) ^ (8 - f) ≤ 2 ^ 8 := Nat.pow_le_pow_right (by decide) (by omega)
  simp [Sink.setBits]
  omega

@[simp] theorem Sink.emit_cap (k : Sink) (b : Byte) : (k.emit b).bw.cap = k.bw.cap := by
  rcases k.emit_cases b with ⟨_, h⟩ | ⟨_, h⟩ <;> rw [h]
@[simp] theorem Sink.emit_bitcount (k : Sink) (b : Byte) : (k.emit b).bw.bitcount = k.bw.bitcount := by
  rcases k.emit_cases b with ⟨_, h⟩ | ⟨_, h⟩ <;> rw [h]
@[simp] theorem Sink.emit_free (k : Sink) (b : Byte) : (k.emit b).bw.free = k.bw.free := by
  rcases k.emit_cases b with ⟨_, h⟩ | ⟨_, h⟩ <;> rw [h]
@[simp] theorem Sink.emit_acc (k : Sink) (b : Byte) : (k.emit b).bw.acc = k.bw.acc := by
  rcases k.emit_cases b with ⟨_, h⟩ | ⟨_, h⟩ <;> rw [h]

/-- What one writer step leaves alone and keeps: CAP, the bytes below the cursor and at or past the new cursor, the
sticky overflow, the canonical form of OUT, and CUR ≤ CAP. -/
structure Sink.Grows (k k' : Sink) : Prop where
  cap    : k'.bw.cap = k.bw.cap
  curLe  : k.bw.cur.toNat ≤ k'.bw.cur.toNat
  capLe  : k.bw.cur.toNat ≤ k.bw.cap.toNat → k'.bw.cur.toNat ≤ k'.bw.cap.toNat
  frame  : ∀ a, a < k.bw.cur.toNat ∨ k'.bw.cur.toNat ≤ a → Memory.read k'.out a = Memory.read k.out a
  ovf    : k.bw.ovf = true → k'.bw.ovf = true
  wf     : Memory.wf k.out → Memory.wf k'.out
  within : ∀ n, k.bw.cap.toNat ≤ n → Memory.within n k.out → Memory.within n k'.out

theorem Sink.Grows.refl (k : Sink) : k.Grows k :=
  ⟨rfl, Nat.le_refl _, id, fun _ _ => rfl, id, id, fun _ _ h => h⟩

theorem Sink.Grows.trans {a b c : Sink} (h : a.Grows b) (g : b.Grows c) : a.Grows c where
  cap := g.cap.trans h.cap
  curLe := h.curLe.trans g.curLe
  capLe := fun e => g.capLe (h.capLe e)
  frame := fun x hx => by
    have := h.curLe; have := g.curLe
    rw [g.frame x (by omega), h.frame x (by omega)]
  ovf := fun e => g.ovf (h.ovf e)
  wf := fun e => g.wf (h.wf e)
  within := fun n hn e => g.within n (h.cap ▸ hn) (h.within n hn e)

theorem Sink.emit_grows (k : Sink) (b : Byte) : k.Grows (k.emit b) := by
  rcases k.emit_cases b with ⟨hlt, h⟩ | ⟨_, h⟩ <;> rw [h]
  · have hs := succ_toNat_of_lt hlt
    have hl : k.bw.cur.toNat < k.bw.cap.toNat := hlt
    refine ⟨rfl, ?_, ?_, ?_, id, ?_, ?_⟩
    · simp only; omega
    · intro _; simp only; omega
    · intro a ha
      simp only at ha ⊢
      exact Memory.read_write_other _ _ (by omega)
    · exact fun e => Memory.wf_write e _ _
    · exact fun n hn e => Memory.within_write e (by omega) _
  · exact ⟨rfl, Nat.le_refl _, id, fun _ _ => rfl, fun _ => rfl, id, fun _ _ h => h⟩

theorem Sink.setBits_grows (k : Sink) (t f n : Nat) : k.Grows (k.setBits t f n) :=
  ⟨rfl, Nat.le_refl _, id, fun _ _ => rfl, id, id, fun _ _ h => h⟩

/-! ## PutBits and finish (40_bitwriter.md R122, R126) -/

/-- The two shapes of PutBits. -/
theorem Sink.putBits_cases (k : Sink) (v n : Nat) :
    (k.bw.free.toNat ≤ n ∧ k.putBits v n =
      (k.emit (BitVec.ofNat 8 ((k.bw.acc.toNat * 2 ^ n + v % 2 ^ n) / 2 ^ (n - k.bw.free.toNat)))).setBits
        (k.bw.acc.toNat * 2 ^ n + v % 2 ^ n) (k.bw.free.toNat + 8 - n) n) ∨
    (n < k.bw.free.toNat ∧ k.putBits v n =
      k.setBits (k.bw.acc.toNat * 2 ^ n + v % 2 ^ n) (k.bw.free.toNat - n) n) := by
  simp only [Sink.putBits]
  split
  · exact .inl ⟨‹_›, rfl⟩
  · exact .inr ⟨by omega, rfl⟩

theorem Sink.putBits_grows (k : Sink) (v n : Nat) : k.Grows (k.putBits v n) := by
  rcases k.putBits_cases v n with ⟨_, h⟩ | ⟨_, h⟩ <;> rw [h]
  · exact (k.emit_grows _).trans (Sink.setBits_grows _ _ _ _)
  · exact Sink.setBits_grows _ _ _ _

@[simp] theorem Sink.putBits_bitcount (k : Sink) (v n : Nat) :
    (k.putBits v n).bw.bitcount = k.bw.bitcount + BitVec.ofNat 64 n := by
  rcases k.putBits_cases v n with ⟨_, h⟩ | ⟨_, h⟩ <;> simp [h]

/-- PutBits keeps the invariants of R128. -/
theorem Sink.putBits_ok {k : Sink} (hk : WriterOk k.bw) {n : Nat} (hn : n ≤ 8) (v : Nat) :
    WriterOk (k.putBits v n).bw := by
  have hc := (k.putBits_grows v n).capLe hk.curLe
  have h1 := hk.freePos
  have h2 := hk.freeLe
  rcases k.putBits_cases v n with ⟨hle, h⟩ | ⟨hlt, h⟩ <;> rw [h] at hc ⊢
  · refine ⟨?_, ?_, ?_, hc⟩
    · rw [Sink.setBits_free _ _ _ (by omega)]; omega
    · rw [Sink.setBits_free _ _ _ (by omega)]; omega
    · rw [Sink.setBits_free _ _ _ (by omega), Sink.setBits_acc]
      exact Nat.mod_lt _ (Nat.two_pow_pos _)
  · refine ⟨?_, ?_, ?_, hc⟩
    · rw [Sink.setBits_free _ _ _ (by omega)]; omega
    · rw [Sink.setBits_free _ _ _ (by omega)]; omega
    · rw [Sink.setBits_free _ _ _ (by omega), Sink.setBits_acc]
      exact Nat.mod_lt _ (Nat.two_pow_pos _)

/-- Finish is a PutBits of zeros that fills the headroom, or nothing. -/
theorem Sink.finish_eq (k : Sink) :
    k.finish = if k.bw.free.toNat < 8 then k.putBits 0 k.bw.free.toNat else k := by
  simp only [Sink.finish, Sink.putBits]
  split
  · simp [Sink.setBits, Nat.mod_one]
  · rfl

theorem Sink.finish_grows (k : Sink) : k.Grows k.finish := by
  rw [k.finish_eq]
  split
  · exact k.putBits_grows _ _
  · exact Sink.Grows.refl k

theorem Sink.finish_ok {k : Sink} (hk : WriterOk k.bw) : WriterOk k.finish.bw := by
  rw [k.finish_eq]
  split
  · exact Sink.putBits_ok hk (by omega) _
  · exact hk

/-! ## Runs of PutBits -/

@[simp] theorem Sink.putAll_nil (k : Sink) : k.putAll [] = k := rfl
@[simp] theorem Sink.putAll_cons (k : Sink) (c : Nat × Nat) (cs : List (Nat × Nat)) :
    k.putAll (c :: cs) = (k.putBits c.1 c.2).putAll cs := rfl
theorem Sink.putAll_append (k : Sink) (cs ds : List (Nat × Nat)) :
    k.putAll (cs ++ ds) = (k.putAll cs).putAll ds := by simp [Sink.putAll]

theorem Sink.putAll_grows (k : Sink) (cs : List (Nat × Nat)) : k.Grows (k.putAll cs) := by
  induction cs generalizing k with
  | nil => exact Sink.Grows.refl k
  | cons c cs ih => exact (k.putBits_grows c.1 c.2).trans (ih _)

theorem Sink.putAll_ok {k : Sink} (hk : WriterOk k.bw) {cs : List (Nat × Nat)} (hc : ∀ c ∈ cs, c.2 ≤ 8) :
    WriterOk (k.putAll cs).bw := by
  induction cs generalizing k with
  | nil => exact hk
  | cons c cs ih =>
    exact ih (Sink.putBits_ok hk (hc c (by simp)) _) fun d hd => hc d (List.mem_cons_of_mem _ hd)

theorem Sink.putAll_bitcount (k : Sink) (cs : List (Nat × Nat)) :
    (k.putAll cs).bw.bitcount = k.bw.bitcount + BitVec.ofNat 64 (cs.map (·.2)).sum := by
  induction cs generalizing k with
  | nil => simp
  | cons c cs ih =>
    rw [Sink.putAll_cons, ih, Sink.putBits_bitcount, BitVec.add_assoc]
    simp [BitVec.ofNat_add]

/-! ## Raw bytes (40_bitwriter.md R125) -/

theorem Sink.putRaw_grows {k : Sink} {bytes : List Byte} (h : k.bw.cur.toNat + bytes.length ≤ k.bw.cap.toNat) :
    k.Grows (k.putRaw bytes) := by
  have hc : (k.bw.cur + BitVec.ofNat 32 bytes.length).toNat = k.bw.cur.toNat + bytes.length := by
    have := k.bw.cap.isLt
    rw [BitVec.toNat_add, BitVec.toNat_ofNat]
    omega
  refine ⟨rfl, ?_, ?_, ?_, id, fun e => Memory.wf_writeList e _ _, ?_⟩
  · simp only [Sink.putRaw, hc]; omega
  · intro _; simp only [Sink.putRaw, hc]; omega
  · intro a ha
    simp only [Sink.putRaw, hc] at ha ⊢
    exact Memory.read_writeList_outside _ _ (by omega)
  · exact fun n hn e => Memory.within_writeList e _ (by omega)

theorem Sink.putRaw_ok {k : Sink} (hk : WriterOk k.bw) {bytes : List Byte}
    (h : k.bw.cur.toNat + bytes.length ≤ k.bw.cap.toNat) : WriterOk (k.putRaw bytes).bw :=
  ⟨hk.freePos, hk.freeLe, hk.accLt, (Sink.putRaw_grows h).capLe hk.curLe⟩

theorem Writer.fresh_ok (cap : Word) : WriterOk (Writer.fresh cap) :=
  ⟨by simp [Writer.fresh], by simp [Writer.fresh], by simp [Writer.fresh], by simp [Writer.fresh]⟩

end Sys2Proof.Machine
end

