-- ==== Sys2Proof/Laws/BitString.lean ====
section
/-! SUPPORT. The bit string a writer holds (40_bitwriter.md R129): what one PutBits appends to it. -/

namespace Sys2Proof.Machine

open Sys2Proof (Byte Word)
open Sys2Proof.Safety

theorem msbBits_byte (x : Nat) : msbBits 8 (BitVec.ofNat 8 x).toNat = msbBits 8 x := by
  rw [BitVec.toNat_ofNat, msbBits_mod]

theorem storedBits_length {k : Sink} (hs : Stored k) : (storedBits k).length = 8 * k.bw.cur.toNat := by
  have key : ∀ n ≤ k.bw.cur.toNat, ((List.range n).flatMap (byteBits k.out)).length = 8 * n := by
    intro n hn
    induction n with
    | zero => simp
    | succ n ih =>
      obtain ⟨b, hb⟩ := Option.isSome_iff_exists.mp (hs n (by omega))
      rw [List.range_succ, List.flatMap_append, List.length_append, ih (by omega)]
      simp [byteBits, hb]
      omega
  exact key _ (Nat.le_refl _)

/-- The stored bits depend only on the bytes below the cursor. -/
theorem storedBits_congr {k k' : Sink} (hc : k'.bw.cur = k.bw.cur)
    (h : ∀ a < k.bw.cur.toNat, Memory.read k'.out a = Memory.read k.out a) : storedBits k' = storedBits k := by
  rw [storedBits, storedBits, hc]
  exact List.flatMap_congr fun a ha => by rw [byteBits, byteBits, h a (List.mem_range.mp ha)]

/-- An Emit that finds room appends its byte. -/
theorem storedBits_emit {k : Sink} {b : Byte} (h : k.bw.cur < k.bw.cap) :
    storedBits (k.emit b) = storedBits k ++ msbBits 8 b.toNat := by
  have he : k.emit b = ⟨{ k.bw with cur := k.bw.cur + 1 }, Memory.write k.out k.bw.cur.toNat b⟩ := by
    simp [Sink.emit, h]
  rw [he, storedBits, storedBits]
  simp only [succ_toNat_of_lt h, List.range_succ, List.flatMap_append]
  congr 1
  · refine List.flatMap_congr fun a ha => ?_
    have := List.mem_range.mp ha
    rw [byteBits, byteBits, Memory.read_write_other _ _ (by omega)]
  · simp [byteBits, Memory.read_write_same]

theorem storedBits_setBits (k : Sink) (t f n : Nat) : storedBits (k.setBits t f n) = storedBits k := rfl

/-- What the writer's buffer and accumulator say of the bit string `bits` passed to it (40_bitwriter.md R129). -/
structure Sink.Traces (k : Sink) (bits : List Bool) : Prop where
  ok     : WriterOk k.bw
  stored : Stored k
  whole  : k.bw.ovf = false → storedBits k ++ pendingBits k.bw = bits
  dropped : k.bw.ovf = true →
    k.bw.cur = k.bw.cap ∧ storedBits k = bits.take (8 * k.bw.cap.toNat) ∧ 8 * k.bw.cap.toNat + 8 ≤ bits.length

/-- A fresh writer holds the empty string. -/
theorem Sink.traces_fresh (cap : Word) (out : List Host.Cell) : Sink.Traces ⟨Writer.fresh cap, out⟩ [] :=
  ⟨Writer.fresh_ok cap, by simp [Stored, Writer.fresh], by simp [storedBits, pendingBits, Writer.fresh, msbBits],
    by simp [Writer.fresh]⟩

/-- PutBits appends the low n bits of v, most significant first. -/
theorem Sink.traces_putBits {k : Sink} {bits : List Bool} (h : k.Traces bits) {n : Nat} (hn : n ≤ 8) (v : Nat) :
    (k.putBits v n).Traces (bits ++ msbBits n v) := by
  have hok := Sink.putBits_ok h.ok hn v
  have hg := k.putBits_grows v n
  have hf1 := h.ok.freePos
  have hf2 := h.ok.freeLe
  have hlen := storedBits_length h.stored
  have hcur := h.ok.curLe
  rcases k.putBits_cases v n with ⟨hle, he⟩ | ⟨hlt, he⟩
  · -- a byte is flushed
    generalize hb : BitVec.ofNat 8 ((k.bw.acc.toNat * 2 ^ n + v % 2 ^ n) / 2 ^ (n - k.bw.free.toNat)) = b at he
    by_cases hroom : k.bw.cur < k.bw.cap
    · have hovf : (k.putBits v n).bw.ovf = k.bw.ovf := by
        rw [he]; simp [Sink.emit, hroom]
      have hcur' : (k.putBits v n).bw.cur.toNat = k.bw.cur.toNat + 1 := by
        rw [he, Sink.setBits_cur, ← succ_toNat_of_lt hroom]; simp only [Sink.emit, hroom, if_true]
      have hroom' : k.bw.cur.toNat < k.bw.cap.toNat := hroom
      refine ⟨hok, ?_, ?_, ?_⟩
      · intro a ha
        rw [hcur'] at ha
        rcases Nat.lt_succ_iff_lt_or_eq.mp ha with ha | rfl
        · rw [hg.frame a (.inl ha)]; exact h.stored a ha
        · rw [he]; simp [Sink.emit, hroom, Memory.read_write_same]
      · intro h0
        rw [hovf] at h0
        rw [← h.whole h0, he, storedBits_setBits, storedBits_emit hroom, List.append_assoc, List.append_assoc]
        congr 1
        rw [pendingBits, Sink.setBits_free _ _ _ (by omega), Sink.setBits_acc, msbBits_mod, ← hb, msbBits_byte,
          show 8 - (k.bw.free.toNat + 8 - n) = n - k.bw.free.toNat by omega, ← msbBits_add, pendingBits,
          ← msbBits_append_low]
        congr 1
        omega
      · intro h1
        rw [hovf] at h1
        have := (h.dropped h1).1
        rw [this] at hroom'
        omega
    · have hroom' : ¬ k.bw.cur.toNat < k.bw.cap.toNat := hroom
      have hcc : k.bw.cur = k.bw.cap := BitVec.eq_of_toNat_eq (by omega)
      have hout : (k.putBits v n).out = k.out := by rw [he]; simp [Sink.emit, hroom]
      have hcur' : (k.putBits v n).bw.cur = k.bw.cur := by rw [he]; simp [Sink.emit, hroom]
      have hovf : (k.putBits v n).bw.ovf = true := by rw [he]; simp [Sink.emit, hroom]
      have hst : storedBits (k.putBits v n) = storedBits k :=
        storedBits_congr hcur' fun a _ => by rw [hout]
      refine ⟨hok, ?_, fun h0 => by simp [hovf] at h0, fun _ => ?_⟩
      · intro a ha; rw [hcur'] at ha; rw [hout]; exact h.stored a ha
      · rw [hst, hcur', hg.cap]
        cases h0 : k.bw.ovf
        · have hw := h.whole h0
          refine ⟨hcc, ?_, ?_⟩
          · rw [← hw, List.append_assoc, List.take_append_of_le_length (by rw [hlen, hcc]),
              List.take_of_length_le (by rw [hlen, hcc])]
          · have hp : (pendingBits k.bw).length = 8 - k.bw.free.toNat := by simp [pendingBits]
            rw [← hw]; simp [hlen, hcc, hp]; omega
        · obtain ⟨_, h2, h3⟩ := h.dropped h0
          refine ⟨hcc, ?_, by simp; omega⟩
          rw [h2, List.take_append_of_le_length (by omega)]
  · -- nothing is flushed
    have hout : (k.putBits v n).out = k.out := by rw [he]; rfl
    have hcur' : (k.putBits v n).bw.cur = k.bw.cur := by rw [he]; rfl
    have hovf : (k.putBits v n).bw.ovf = k.bw.ovf := by rw [he]; rfl
    have hst : storedBits (k.putBits v n) = storedBits k :=
      storedBits_congr hcur' fun a _ => by rw [hout]
    refine ⟨hok, ?_, ?_, ?_⟩
    · intro a ha; rw [hcur'] at ha; rw [hout]; exact h.stored a ha
    · intro h0
      rw [hovf] at h0
      rw [hst, ← h.whole h0, List.append_assoc]
      congr 1
      rw [he, pendingBits, Sink.setBits_free _ _ _ (by omega), Sink.setBits_acc, msbBits_mod, pendingBits,
        ← msbBits_append_low]
      congr 1
      omega
    · intro h1
      rw [hovf] at h1
      obtain ⟨h2, h3, h4⟩ := h.dropped h1
      rw [hst, hcur', hg.cap]
      exact ⟨h2, by rw [h3, List.take_append_of_le_length (by omega)], by simp; omega⟩

end Sys2Proof.Machine
end

