-- ==== Sys2Proof/Laws/Encoding.lean ====
section
/-! SUPPORT. The fields of a command word as numbers, and the word of a command as a number (30_encoding.md R80). -/

namespace Sys2Proof

theorem toNat_append_eq {m n : Nat} (x : BitVec m) (y : BitVec n) :
    (x ++ y).toNat = x.toNat * 2 ^ n + y.toNat := by
  rw [BitVec.toNat_append, ← Nat.shiftLeft_add_eq_or_of_lt y.isLt, Nat.shiftLeft_eq]

theorem opField_toNat (w : Word) : (opField w).toNat = w.toNat % 256 := by
  simp [opField]

theorem imm8Field_toNat (w : Word) : (imm8Field w).toNat = w.toNat / 2 ^ 8 % 256 := by
  simp [imm8Field, Nat.shiftRight_eq_div_pow]

theorem nField_toNat (w : Word) : (nField w).toNat = w.toNat / 2 ^ 16 % 16 := by
  simp [nField, Nat.shiftRight_eq_div_pow]

theorem rsvField_toNat (w : Word) : (rsvField w).toNat = w.toNat / 2 ^ 20 := by
  have := w.isLt
  simp [rsvField, Nat.shiftRight_eq_div_pow]
  omega

theorem encode_toNat (i : Instr) :
    (encode i).toNat = (nOf i).toNat * 2 ^ 16 + (imm8Of i).toNat * 2 ^ 8 + (opcode i).toNat := by
  simp only [encode, toNat_append_eq]
  simp
  omega

/-- A word is its four fields. -/
theorem word_toNat_eq (w : Word) :
    w.toNat = (rsvField w).toNat * 2 ^ 20 + (nField w).toNat * 2 ^ 16 + (imm8Field w).toNat * 2 ^ 8
      + (opField w).toNat := by
  have := w.isLt
  rw [opField_toNat, imm8Field_toNat, nField_toNat, rsvField_toNat]
  omega

theorem opField_encode (i : Instr) : opField (encode i) = opcode i := by
  apply BitVec.eq_of_toNat_eq
  have := (opcode i).isLt
  rw [opField_toNat, encode_toNat]
  omega

theorem imm8Field_encode (i : Instr) : imm8Field (encode i) = imm8Of i := by
  apply BitVec.eq_of_toNat_eq
  have := (opcode i).isLt
  have := (imm8Of i).isLt
  rw [imm8Field_toNat, encode_toNat]
  omega

theorem nField_encode (i : Instr) : nField (encode i) = nOf i := by
  apply BitVec.eq_of_toNat_eq
  have := (opcode i).isLt
  have := (imm8Of i).isLt
  have := (nOf i).isLt
  rw [nField_toNat, encode_toNat]
  omega

theorem rsvField_encode (i : Instr) : rsvField (encode i) = 0 := by
  apply BitVec.eq_of_toNat_eq
  have := (opcode i).isLt
  have := (imm8Of i).isLt
  have := (nOf i).isLt
  rw [rsvField_toNat, encode_toNat]
  simp
  omega

/-- A word whose fields are a command's is its word. -/
theorem encode_eq_of_fields {w : Word} {i : Instr} (hr : rsvField w = 0) (hn : nField w = nOf i)
    (hi : imm8Field w = imm8Of i) (ho : opField w = opcode i) : encode i = w := by
  apply BitVec.eq_of_toNat_eq
  rw [encode_toNat, word_toNat_eq w, hr, hn, hi, ho]
  simp

/-- The plain commands use neither field, and their opcodes differ. -/
theorem find_plain {op : Byte} {i : Instr} (h : plainCommands.find? (fun i => opcode i == op) = some i) :
    opcode i = op ∧ imm8Of i = 0 ∧ nOf i = 0 ∧ i.wellFormed = true := by
  have h1 := List.find?_some h
  have h2 := List.mem_of_find?_eq_some h
  refine ⟨by simpa using h1, ?_⟩
  simp only [plainCommands, List.mem_cons, List.not_mem_nil, or_false] at h2
  rcases h2 with rfl | rfl | rfl | rfl | rfl | rfl | rfl | rfl | rfl | rfl <;> decide

end Sys2Proof
end

