-- ==== Sys2Proof/Laws/Operands.lean ====
section
/-! SUPPORT. The argument checks and the operand loads, said in the spec's own terms. -/

namespace Sys2Proof.Machine

open Sys2Proof (Byte Elem)
open Sys2Proof.Safety

/-! ## Checks (60_exceptions.md R243, R244) -/

theorem State.badGeometry_iff (s : State) : s.badGeometry = true ↔ Safety.badGeometry s := by
  simp only [State.badGeometry, Bool.or_eq_true, decide_eq_true_eq]
  exact Iff.rfl

theorem State.badCapacity_iff (s : State) :
    s.badCapacity = true ↔ s.params.outBytes.toNat < s.latch.cfg.capacity.toNat := by
  simp [State.badCapacity, BitVec.lt_def]

theorem State.badStageCount_iff (s : State) :
    s.badStageCount = true ↔ s.params.stageBytes.toNat < s.latch.cfg.arg0.toNat := by
  simp [State.badStageCount, BitVec.lt_def]

/-- With a legal geometry the counts are the signed registers. -/
theorem State.counts_of_good {s : State} (h : ¬ Safety.badGeometry s) :
    (s.rows : Int) = s.latch.cfg.nx.toInt ∧ (s.cols : Int) = s.latch.cfg.ny.toInt ∧ 1 ≤ s.rows ∧ 1 ≤ s.cols := by
  simp only [Safety.badGeometry, not_or, Int.not_lt] at h
  have h1 : (s.rows : Int) = s.latch.cfg.nx.toInt := Int.toNat_of_nonneg (by simp only [State.nx]; omega)
  have h2 : (s.cols : Int) = s.latch.cfg.ny.toInt := Int.toNat_of_nonneg (by simp only [State.ny]; omega)
  exact ⟨h1, h2, by omega, by omega⟩

theorem State.tooLarge_iff {s : State} (h : ¬ Safety.badGeometry s) :
    s.tooLarge = true ↔ (s.params.nmax.toNat : Int) < s.latch.cfg.nx.toInt * s.latch.cfg.ny.toInt := by
  obtain ⟨h1, h2, _⟩ := State.counts_of_good h
  rw [← h1, ← h2]
  simp only [State.tooLarge, decide_eq_true_eq]
  exact_mod_cast Iff.rfl

/-- Everything the geometry checks can say. -/
theorem State.geometryError_cases (s : State) :
    (Safety.badGeometry s ∧ s.geometryError = some .badArg) ∨
    (¬ Safety.badGeometry s ∧ (s.params.nmax.toNat : Int) < s.latch.cfg.nx.toInt * s.latch.cfg.ny.toInt ∧
      s.geometryError = some .alloc) ∨
    (¬ Safety.badGeometry s ∧ ¬ (s.params.nmax.toNat : Int) < s.latch.cfg.nx.toInt * s.latch.cfg.ny.toInt ∧
      s.geometryError = none) := by
  by_cases hg : Safety.badGeometry s
  · exact .inl ⟨hg, by simp [State.geometryError, (State.badGeometry_iff s).mpr hg]⟩
  · have hg' : s.badGeometry = false := by simpa using mt (State.badGeometry_iff s).mp hg
    by_cases ht : (s.params.nmax.toNat : Int) < s.latch.cfg.nx.toInt * s.latch.cfg.ny.toInt
    · exact .inr (.inl ⟨hg, ht, by simp [State.geometryError, hg', (State.tooLarge_iff hg).mpr ht]⟩)
    · have ht' : s.tooLarge = false := by simpa using mt (State.tooLarge_iff hg).mp ht
      exact .inr (.inr ⟨hg, ht, by simp [State.geometryError, hg', ht']⟩)

/-- Everything the checks of ENCODE and COMPRESS can say. -/
theorem State.encodeError_cases (s : State) :
    (badArgument s .encode ∧ s.encodeError = some .badArg) ∨
    (¬ badArgument s .encode ∧ oversized s .encode ∧ s.encodeError = some .alloc) ∨
    (¬ badArgument s .encode ∧ ¬ oversized s .encode ∧ s.encodeError = none) := by
  simp only [badArgument, oversized]
  by_cases hg : Safety.badGeometry s
  · exact .inl ⟨.inl hg, by simp [State.encodeError, (State.badGeometry_iff s).mpr hg]⟩
  · have hg' : s.badGeometry = false := by simpa using mt (State.badGeometry_iff s).mp hg
    by_cases hc : s.params.outBytes.toNat < s.latch.cfg.capacity.toNat
    · exact .inl ⟨.inr hc, by simp [State.encodeError, hg', (State.badCapacity_iff s).mpr hc]⟩
    · have hc' : s.badCapacity = false := by simpa using mt (State.badCapacity_iff s).mp hc
      by_cases ht : (s.params.nmax.toNat : Int) < s.latch.cfg.nx.toInt * s.latch.cfg.ny.toInt
      · exact .inr (.inl ⟨by simp [hg, hc], ht,
          by simp [State.encodeError, hg', hc', (State.tooLarge_iff hg).mpr ht]⟩)
      · have ht' : s.tooLarge = false := by simpa using mt (State.tooLarge_iff hg).mp ht
        exact .inr (.inr ⟨by simp [hg, hc], ht, by simp [State.encodeError, hg', hc', ht']⟩)

/-- Passing the geometry checks: positive counts whose product fits COEF. -/
theorem State.geometryError_none {s : State} (h : s.geometryError = none) :
    ¬ Safety.badGeometry s ∧ 1 ≤ s.rows ∧ 1 ≤ s.cols ∧ s.rows * s.cols ≤ s.params.nmax.toNat := by
  rcases s.geometryError_cases with ⟨_, e⟩ | ⟨_, _, e⟩ | ⟨hg, ht, _⟩
  · rw [h] at e; cases e
  · rw [h] at e; cases e
  · obtain ⟨h1, h2, h3, h4⟩ := State.counts_of_good hg
    rw [← h1, ← h2] at ht
    exact ⟨hg, h3, h4, by exact_mod_cast Int.not_lt.mp ht⟩

theorem State.encodeError_none {s : State} (h : s.encodeError = none) :
    s.geometryError = none ∧ s.latch.cfg.capacity.toNat ≤ s.params.outBytes.toNat := by
  simp only [State.encodeError] at h
  split at h
  · cases h
  · split at h
    · cases h
    · rename_i hg hc
      rw [State.badCapacity_iff] at hc
      split at h
      · cases h
      · rename_i ht
        exact ⟨by simp [State.geometryError, hg, ht], by omega⟩

/-- The last element of a block, in the spec's signed arithmetic. -/
theorem ConfigRegs.blockEnd_cast {c : ConfigRegs} (hny : 1 ≤ c.ny.toInt) (h1 : 1 ≤ c.arg1.toNat)
    (h2 : 1 ≤ c.arg2.toNat) : (c.blockEnd : Int) =
      c.arg0.toNat + (c.arg1.toNat - 1 : Int) * c.ny.toInt + (c.arg2.toNat - 1 : Int) := by
  have hc : ((c.ny.toInt.toNat : Nat) : Int) = c.ny.toInt := Int.toNat_of_nonneg (by omega)
  simp only [ConfigRegs.blockEnd, Nat.cast_add, Nat.cast_mul, Nat.cast_sub h1, Nat.cast_sub h2, hc, Nat.cast_one]

/-- Everything the checks of QT_ENCODE can say. -/
theorem State.quadrantError_cases (s : State) :
    (badArgument s .qtEncode ∧ s.quadrantError = some .badArg) ∨
    (¬ badArgument s .qtEncode ∧ oversized s .qtEncode ∧ s.quadrantError = some .alloc) ∨
    (¬ badArgument s .qtEncode ∧ ¬ oversized s .qtEncode ∧ s.quadrantError = none) := by
  simp only [badArgument, oversized, State.quadrantError]
  by_cases h1 : s.ny < 1 ∨ s.w < s.latch.cfg.arg3.toNat
  · exact .inl ⟨h1.imp id .inl, if_pos h1⟩
  · have hny : 1 ≤ s.latch.cfg.ny.toInt := Int.not_lt.mp fun h => h1 (.inl h)
    by_cases h2 : 0 < s.latch.cfg.arg1.toNat ∧ 0 < s.latch.cfg.arg2.toNat ∧
        s.params.nmax.toNat ≤ s.latch.cfg.blockEnd
    · refine .inl ⟨.inr (.inr ⟨h2.1, h2.2.1, ?_⟩), by rw [if_neg h1, if_pos h2]⟩
      rw [← ConfigRegs.blockEnd_cast hny h2.1 h2.2.1]
      exact_mod_cast h2.2.2
    · have hbad : ¬ (s.latch.cfg.ny.toInt < 1 ∨ s.w < s.latch.cfg.arg3.toNat ∨
          (1 ≤ s.latch.cfg.arg1.toNat ∧ 1 ≤ s.latch.cfg.arg2.toNat ∧
            (s.params.nmax.toNat : Int) ≤
              s.latch.cfg.arg0.toNat + (s.latch.cfg.arg1.toNat - 1 : Int) * s.latch.cfg.ny.toInt
                + (s.latch.cfg.arg2.toNat - 1 : Int))) := by
        rintro (h | h | ⟨p, q, r⟩)
        · exact h1 (.inl h)
        · exact h1 (.inr h)
        · rw [← ConfigRegs.blockEnd_cast hny p q] at r
          exact h2 ⟨p, q, by exact_mod_cast r⟩
      by_cases h3 : s.params.nmax.toNat < s.latch.cfg.arg1.toNat * s.latch.cfg.arg2.toNat
      · exact .inr (.inl ⟨hbad, h3, by rw [if_neg h1, if_neg h2, if_pos h3]⟩)
      · exact .inr (.inr ⟨hbad, h3, by rw [if_neg h1, if_neg h2, if_neg h3]⟩)

/-- Passing the argument and size checks of the spec is passing the model's. -/
theorem State.geometryError_eq_none {s : State} (h1 : ¬ badArgument s .transform) (h2 : ¬ oversized s .transform) :
    s.geometryError = none := by
  rcases s.geometryError_cases with ⟨h, _⟩ | ⟨_, h, _⟩ | ⟨_, _, e⟩
  · exact (h1 h).elim
  · exact (h2 h).elim
  · exact e

theorem State.encodeError_eq_none {s : State} (h1 : ¬ badArgument s .encode) (h2 : ¬ oversized s .encode) :
    s.encodeError = none := by
  rcases s.encodeError_cases with ⟨h, _⟩ | ⟨_, h, _⟩ | ⟨_, _, e⟩
  · exact (h1 h).elim
  · exact (h2 h).elim
  · exact e

theorem State.quadrantError_eq_none {s : State} (h1 : ¬ badArgument s .qtEncode) (h2 : ¬ oversized s .qtEncode) :
    s.quadrantError = none := by
  rcases s.quadrantError_cases with ⟨h, _⟩ | ⟨_, h, _⟩ | ⟨_, _, e⟩
  · exact (h1 h).elim
  · exact (h2 h).elim
  · exact e

/-! ## Loads (20_memory.md R61, R64) -/

/-- Loading elements succeeds exactly where each has been written, and gives their values. -/
theorem State.loadCoef_eq_some_iff (s : State) (es : List Nat) (vals : List Int) :
    s.loadCoef es = some vals ↔
      (∀ e ∈ es, (Memory.read s.coef e).isSome) ∧ vals = es.map (coefValue s) := by
  simp only [State.loadCoef, Option.map_eq_some_iff, Memory.readAll_eq_some_iff]
  constructor
  · rintro ⟨ps, h, rfl⟩
    induction es generalizing ps with
    | nil => cases ps <;> simp_all
    | cons e es ih =>
      cases ps with
      | nil => simp at h
      | cons p ps =>
        simp only [List.map_cons, List.cons.injEq] at h
        obtain ⟨h1, h2⟩ := ih ps h.2
        exact ⟨by simpa [h.1] using h1, by simp [h2, coefValue, h.1]⟩
  · rintro ⟨h, rfl⟩
    refine ⟨es.map fun e => (Memory.read s.coef e).getD 0, ?_, by simp [coefValue]⟩
    rw [List.map_map]
    refine List.map_congr_left fun e he => ?_
    obtain ⟨v, hv⟩ := Option.isSome_iff_exists.mp (h e he)
    simp [hv]

theorem State.loadImage_eq_some_iff (s : State) (img : List Int) :
    s.loadImage = some img ↔ imageWritten s ∧ img = image s := by
  rw [State.loadImage, State.loadCoef_eq_some_iff]
  simp [imageWritten, image]

theorem State.loadImage_of_written {s : State} (h : imageWritten s) : s.loadImage = some (image s) :=
  (s.loadImage_eq_some_iff _).mpr ⟨h, rfl⟩

@[simp] theorem image_length (s : State) : (image s).length = s.rows * s.cols := by simp [image]

theorem State.loadImage_length {s : State} {img : List Int} (h : s.loadImage = some img) :
    img.length = s.rows * s.cols := by
  rw [((s.loadImage_eq_some_iff img).mp h).2, image_length]

theorem image_getD {s : State} {e : Nat} (h : e < s.rows * s.cols) : (image s).getD e 0 = coefValue s e := by
  simp [image, List.getD, h]

@[simp] theorem wrap_coefValue (s : State) (e : Nat) : wrap s.w (coefValue s e) = coefValue s e := by
  simp [coefValue]

theorem wrap_of_mem_image {s : State} {v : Int} (h : v ∈ image s) : wrap s.w v = v := by
  obtain ⟨e, _, rfl⟩ := List.mem_map.mp h
  exact wrap_coefValue s e

theorem State.loadStage_eq_some_iff (s : State) (n : Nat) (bytes : List Byte) :
    s.loadStage n = some bytes ↔ stageWritten s n ∧ bytes = stageBytes s n := by
  simp only [State.loadStage, Memory.readAll_eq_some_iff, stageWritten, stageBytes]
  constructor
  · intro h
    have key : ∀ b < n, (Memory.read s.stage b) = bytes[b]? := by
      intro b hb
      have := congrArg (fun l => l[b]?) h
      have hl := congrArg List.length h
      simp only [List.length_map, List.length_range] at hl
      simpa [hb, hl ▸ hb] using this
    have hl := congrArg List.length h
    simp only [List.length_map, List.length_range] at hl
    refine ⟨fun b hb => by rw [key b hb]; simp [← hl, hb], ?_⟩
    refine List.ext_getElem (by simp [hl]) fun b h1 h2 => ?_
    simp [key b (by omega), h1]
  · rintro ⟨h, rfl⟩
    rw [List.map_map]
    refine List.map_congr_left fun b hb => ?_
    obtain ⟨v, hv⟩ := Option.isSome_iff_exists.mp (h b (List.mem_range.mp hb))
    simp [hv]

theorem State.loadStage_length {s : State} {n : Nat} {bytes : List Byte} (h : s.loadStage n = some bytes) :
    bytes.length = n := by
  rw [((s.loadStage_eq_some_iff n bytes).mp h).2]
  simp [stageBytes]

/-! ## Stores -/

/-- An image stored and read back is its wrap, and the rest of COEF keeps its contents. -/
theorem State.storeImage_becomes {s t : State} {vals : List Int} (hl : vals.length = s.rows * s.cols)
    (ht : t.coef = (s.storeImage vals).coef) (hp : t.params = s.params) (hw : ∀ v ∈ vals, wrap s.w v = v) :
    imageBecomes s t vals := by
  have hc : t.coef = Memory.writeList s.coef 0 (vals.map (pattern s.w)) := ht
  have hwt : t.w = s.w := by simp [State.w, hp]
  refine ⟨fun e he => ?_, fun e he => ?_⟩
  · have h := Memory.read_writeList_inside s.coef 0 (k := e) (vals.map (pattern s.w)) (by simpa [hl])
    rw [Nat.zero_add] at h
    rw [coefValue, hc, h]
    have he' : e < vals.length := by omega
    refine ⟨rfl, ?_⟩
    simp only [Option.getD_some, List.getElem_map, hwt]
    rw [sint_pattern s.w_le, hw _ (List.getElem_mem _)]
    simp [List.getD, he']
  · rw [hc, Memory.read_writeList_outside _ _ (by simp only [List.length_map]; omega)]

end Sys2Proof.Machine
end

