-- ==== Sys2Proof/Laws/Quadtree.lean ====
section
/-! SUPPORT. Grids and planes: sizes, codes, and that every PutBits of a plane takes at most 8 bits. -/

namespace Sys2Proof.Machine

open Sys2Proof (Nibble)

@[simp] theorem pairUp_codes_length (nr nc : Nat) (m : Nat → Nat → Bool) :
    (pairUp nr nc m).codes.length = (pairUp nr nc m).rows * (pairUp nr nc m).cols := by simp [pairUp]

/-- The code of a grid at a place inside it. -/
theorem pairUp_at {nr nc : Nat} (m : Nat → Nat → Bool) {r c : Nat} (hr : r < (nr + 1) / 2) (hc : c < (nc + 1) / 2) :
    (pairUp nr nc m).at r c = blockCode (fun i j => decide (i < nr) && decide (j < nc) && m i j) r c := by
  have hpos : 0 < (nc + 1) / 2 := by omega
  have hlt : r * ((nc + 1) / 2) + c < (nr + 1) / 2 * ((nc + 1) / 2) := by
    have : (r + 1) * ((nc + 1) / 2) ≤ (nr + 1) / 2 * ((nc + 1) / 2) := Nat.mul_le_mul_right _ hr
    rw [Nat.add_mul] at this
    omega
  have hd : (r * ((nc + 1) / 2) + c) / ((nc + 1) / 2) = r := by
    rw [Nat.add_comm, Nat.add_mul_div_right _ _ hpos, Nat.div_eq_of_lt hc, Nat.zero_add]
  have hm : (r * ((nc + 1) / 2) + c) % ((nc + 1) / 2) = c := by
    rw [Nat.add_comm, Nat.add_mul_mod_self_right, Nat.mod_eq_of_lt hc]
  simp [Grid.at, pairUp, hr, hc, List.getD, hlt, hd, hm]

theorem blockCode_toNat (m : Nat → Nat → Bool) (r c : Nat) :
    (blockCode m r c).toNat = 8 * (m (2 * r) (2 * c)).toNat + 4 * (m (2 * r) (2 * c + 1)).toNat
      + 2 * (m (2 * r + 1) (2 * c)).toNat + (m (2 * r + 1) (2 * c + 1)).toNat := by
  simp only [blockCode]
  cases m (2 * r) (2 * c) <;> cases m (2 * r) (2 * c + 1) <;> cases m (2 * r + 1) (2 * c) <;>
    cases m (2 * r + 1) (2 * c + 1) <;> rfl

/-- The indices below m·n, row by row. -/
theorem range_mul_eq_flatMap (m n : Nat) :
    List.range (m * n) = (List.range m).flatMap fun r => (List.range n).map fun c => r * n + c := by
  induction m with
  | zero => simp
  | succ m ih => rw [Nat.succ_mul, List.range_add, ih, List.range_succ]; simp

/-- The codes of a whole grid are its codes at (r, c) in row-major order (43_quadtree.md R185). -/
theorem Grid.codes_eq_rowMajor {g : Grid} (h : g.codes.length = g.rows * g.cols) :
    g.codes = (List.range g.rows).flatMap fun r => (List.range g.cols).map fun c => g.at r c := by
  have hcodes : g.codes = (List.range (g.rows * g.cols)).map fun e => g.codes.getD e 0 := by
    refine List.ext_getElem (by simp [h]) fun i h1 _ => ?_
    simp [List.getD, h1]
  rw [range_mul_eq_flatMap, List.map_flatMap] at hcodes
  rw [hcodes]
  refine List.flatMap_congr fun r hr => ?_
  rw [List.map_map]
  refine List.map_congr_left fun c hc => ?_
  simp [Grid.at, List.mem_range.mp hr, List.mem_range.mp hc]

/-- The grids of a chain: the first, then each the reduction of the one before (43_quadtree.md R184). -/
theorem Grid.chain_eq_map (n : Nat) (g : Grid) :
    Grid.chain n g = (List.range (n + 1)).map fun k => Grid.reduce^[k] g := by
  induction n generalizing g with
  | zero => rfl
  | succ n ih => rw [Grid.chain, ih, List.range_succ_eq_map (n := n + 1)]; simp [Function.comp_def]

/-- Every grid of a chain is whole when the first one is. -/
theorem Grid.reduce_iterate_codes_length {g : Grid} (h : g.codes.length = g.rows * g.cols) (k : Nat) :
    (Grid.reduce^[k] g).codes.length = (Grid.reduce^[k] g).rows * (Grid.reduce^[k] g).cols := by
  cases k with
  | zero => exact h
  | succ k => rw [Function.iterate_succ_apply']; exact pairUp_codes_length _ _ _

/-- The code list of a chain: the nonzero codes of each grid in row-major order, the first grid's first
(43_quadtree.md R185). -/
theorem codeList_chain {g : Grid} (h : g.codes.length = g.rows * g.cols) (n : Nat) :
    codeList (Grid.chain n g) = (List.range (n + 1)).flatMap fun k =>
      ((List.range (Grid.reduce^[k] g).rows).flatMap fun r =>
        (List.range (Grid.reduce^[k] g).cols).map fun c => (Grid.reduce^[k] g).at r c).filter (· != 0) := by
  rw [codeList, Grid.chain_eq_map, List.flatMap_map]
  refine List.flatMap_congr fun k _ => ?_
  conv_lhs => rw [Grid.codes_eq_rowMajor (Grid.reduce_iterate_codes_length h k)]

/-- A grid depends only on the members inside its array. -/
theorem pairUp_congr {nr nc : Nat} {m n : Nat → Nat → Bool} (h : ∀ i < nr, ∀ j < nc, m i j = n i j) :
    pairUp nr nc m = pairUp nr nc n := by
  have : (fun i j => decide (i < nr) && decide (j < nc) && m i j)
      = fun i j => decide (i < nr) && decide (j < nc) && n i j := by
    funext i j
    by_cases hi : i < nr
    · by_cases hj : j < nc
      · simp [hi, hj, h i hi j hj]
      · simp [hj]
    · simp [hi]
  simp only [pairUp, this]

theorem finestGrid_congr {w nqx nqy : Nat} {p q : Nat → Nat → Int} (h : ∀ i < nqx, ∀ j < nqy, p i j = q i j) (b : Nat) :
    finestGrid w nqx nqy p b = finestGrid w nqx nqy q b :=
  pairUp_congr fun i hi j hj => by rw [h i hi j hj]

/-- A plane depends only on the elements of its block (43_quadtree.md R191). -/
theorem planeChunks_congr {w nqx nqy : Nat} {p q : Nat → Nat → Int} (h : ∀ i < nqx, ∀ j < nqy, p i j = q i j)
    (b : Nat) : planeChunks w nqx nqy p b = planeChunks w nqx nqy q b := by
  have hf := finestGrid_congr (w := w) h b
  have hg : planeGrids w nqx nqy p b = planeGrids w nqx nqy q b :=
    congrArg (Grid.chain (ceilLog2 (max nqx nqy) - 1)) hf
  unfold planeChunks
  rw [hf, hg]

theorem quadrantChunks_eq_flatMap (w nqx nqy : Nat) (px : Nat → Nat → Int) (nbp : Nat) :
    quadrantChunks w nqx nqy px nbp = (List.range nbp).reverse.flatMap fun b => planeChunks w nqx nqy px b := by
  induction nbp with
  | zero => rfl
  | succ n ih => rw [quadrantChunks, ih, List.range_succ]; simp

/-! ## Counts of at most 8 bits -/

theorem Rom.code_le (s : Nibble) : (Rom.code s).2 ≤ 6 := by
  revert s; decide

theorem planeChunks_le {w nqx nqy : Nat} {px : Nat → Nat → Int} {b : Nat} :
    ∀ c ∈ planeChunks w nqx nqy px b, c.2 ≤ 8 := by
  intro c hc
  simp only [planeChunks] at hc
  split at hc
  · rcases List.mem_cons.mp hc with rfl | hc
    · decide
    · obtain ⟨s, _, rfl⟩ := List.mem_map.mp hc
      show 4 ≤ 8
      decide
  · rcases List.mem_cons.mp hc with rfl | hc
    · decide
    · split at hc
      · have h := List.mem_singleton.mp hc; subst h; decide
      · obtain ⟨s, _, rfl⟩ := List.mem_map.mp hc
        have := Rom.code_le s
        omega

theorem quadrantChunks_le {w nqx nqy : Nat} {px : Nat → Nat → Int} {nbp : Nat} :
    ∀ c ∈ quadrantChunks w nqx nqy px nbp, c.2 ≤ 8 := by
  intro c hc
  rw [quadrantChunks_eq_flatMap] at hc
  obtain ⟨b, _, h⟩ := List.mem_flatMap.mp hc
  exact planeChunks_le c h

theorem planeStreamChunks_le {w nx ny : Nat} {mags : List Int} : ∀ c ∈ planeStreamChunks w nx ny mags, c.2 ≤ 8 := by
  intro c hc
  rcases List.mem_append.mp hc with hc | hc
  · obtain ⟨q, _, h⟩ := List.mem_flatMap.mp hc
    exact quadrantChunks_le c h
  · have h := List.mem_singleton.mp hc; subst h; decide

theorem nibbleChunks_le {bytes : List Sys2Proof.Byte} : ∀ c ∈ nibbleChunks bytes, c.2 ≤ 8 := by
  intro c hc
  obtain ⟨b, _, rfl⟩ := List.mem_map.mp hc
  show 4 ≤ 8
  decide

/-- The bits of a list of PutBits calls: as many as their counts say. -/
theorem chunkBits_length (chunks : List (Nat × Nat)) : (chunkBits chunks).length = (chunks.map (·.2)).sum := by
  induction chunks with
  | nil => rfl
  | cons c cs ih =>
    simp only [chunkBits, List.flatMap_cons, List.length_append, msbBits_length, List.map_cons, List.sum_cons] at ih ⊢
    rw [ih]

end Sys2Proof.Machine
end

