-- ==== Sys2Proof/Laws/State.lean ====
section
/-! SUPPORT. What each state update leaves in each field: one lemma per field per update, true by `rfl`. -/

namespace Sys2Proof.Machine

@[simp] theorem State.complete_eq (s : State) : s.complete = s.finishWith false .none := rfl
@[simp] theorem State.raise_eq (s : State) (c : Cause) : s.raise c = s.finishWith true c := rfl
@[simp] theorem State.sink_bw (s : State) : s.sink.bw = s.bw := rfl
@[simp] theorem State.sink_out (s : State) : s.sink.out = s.out := rfl

/-! ## finishWith -/

@[simp] theorem State.finishWith_params (s : State) (e : Bool) (c : Cause) : (s.finishWith e c).params = s.params := rfl
@[simp] theorem State.finishWith_seq (s : State) (e : Bool) (c : Cause) : (s.finishWith e c).seq = .idle := rfl
@[simp] theorem State.finishWith_status (s : State) (e : Bool) (c : Cause) : (s.finishWith e c).status = { s.status with done := true, err := e, cause := c } := rfl
@[simp] theorem State.finishWith_cfg (s : State) (e : Bool) (c : Cause) : (s.finishWith e c).cfg = s.cfg := rfl
@[simp] theorem State.finishWith_latch (s : State) (e : Bool) (c : Cause) : (s.finishWith e c).latch = s.latch := rfl
@[simp] theorem State.finishWith_bytesUsed (s : State) (e : Bool) (c : Cause) : (s.finishWith e c).bytesUsed = s.bytesUsed := rfl
@[simp] theorem State.finishWith_nbp (s : State) (e : Bool) (c : Cause) : (s.finishWith e c).nbp = s.nbp := rfl
@[simp] theorem State.finishWith_dc (s : State) (e : Bool) (c : Cause) : (s.finishWith e c).dc = s.dc := rfl
@[simp] theorem State.finishWith_bw (s : State) (e : Bool) (c : Cause) : (s.finishWith e c).bw = s.bw := rfl
@[simp] theorem State.finishWith_coef (s : State) (e : Bool) (c : Cause) : (s.finishWith e c).coef = s.coef := rfl
@[simp] theorem State.finishWith_out (s : State) (e : Bool) (c : Cause) : (s.finishWith e c).out = s.out := rfl
@[simp] theorem State.finishWith_stage (s : State) (e : Bool) (c : Cause) : (s.finishWith e c).stage = s.stage := rfl
@[simp] theorem State.finishWith_inbox (s : State) (e : Bool) (c : Cause) : (s.finishWith e c).inbox = s.inbox := rfl
@[simp] theorem State.finishWith_replies (s : State) (e : Bool) (c : Cause) : (s.finishWith e c).replies = s.replies := rfl
@[simp] theorem State.finishWith_delay (s : State) (e : Bool) (c : Cause) : (s.finishWith e c).delay = 0 := rfl
@[simp] theorem State.finishWith_draws (s : State) (e : Bool) (c : Cause) : (s.finishWith e c).draws = s.draws := rfl

/-! ## withSink -/

@[simp] theorem State.withSink_params (s : State) (k : Sink) : (s.withSink k).params = s.params := rfl
@[simp] theorem State.withSink_seq (s : State) (k : Sink) : (s.withSink k).seq = s.seq := rfl
@[simp] theorem State.withSink_status (s : State) (k : Sink) : (s.withSink k).status = s.status := rfl
@[simp] theorem State.withSink_cfg (s : State) (k : Sink) : (s.withSink k).cfg = s.cfg := rfl
@[simp] theorem State.withSink_latch (s : State) (k : Sink) : (s.withSink k).latch = s.latch := rfl
@[simp] theorem State.withSink_bytesUsed (s : State) (k : Sink) : (s.withSink k).bytesUsed = s.bytesUsed := rfl
@[simp] theorem State.withSink_nbp (s : State) (k : Sink) : (s.withSink k).nbp = s.nbp := rfl
@[simp] theorem State.withSink_dc (s : State) (k : Sink) : (s.withSink k).dc = s.dc := rfl
@[simp] theorem State.withSink_bw (s : State) (k : Sink) : (s.withSink k).bw = k.bw := rfl
@[simp] theorem State.withSink_coef (s : State) (k : Sink) : (s.withSink k).coef = s.coef := rfl
@[simp] theorem State.withSink_out (s : State) (k : Sink) : (s.withSink k).out = k.out := rfl
@[simp] theorem State.withSink_stage (s : State) (k : Sink) : (s.withSink k).stage = s.stage := rfl
@[simp] theorem State.withSink_inbox (s : State) (k : Sink) : (s.withSink k).inbox = s.inbox := rfl
@[simp] theorem State.withSink_replies (s : State) (k : Sink) : (s.withSink k).replies = s.replies := rfl
@[simp] theorem State.withSink_delay (s : State) (k : Sink) : (s.withSink k).delay = s.delay := rfl
@[simp] theorem State.withSink_draws (s : State) (k : Sink) : (s.withSink k).draws = s.draws := rfl

/-! ## storeImage -/

@[simp] theorem State.storeImage_params (s : State) (l : List Int) : (s.storeImage l).params = s.params := rfl
@[simp] theorem State.storeImage_seq (s : State) (l : List Int) : (s.storeImage l).seq = s.seq := rfl
@[simp] theorem State.storeImage_status (s : State) (l : List Int) : (s.storeImage l).status = s.status := rfl
@[simp] theorem State.storeImage_cfg (s : State) (l : List Int) : (s.storeImage l).cfg = s.cfg := rfl
@[simp] theorem State.storeImage_latch (s : State) (l : List Int) : (s.storeImage l).latch = s.latch := rfl
@[simp] theorem State.storeImage_bytesUsed (s : State) (l : List Int) : (s.storeImage l).bytesUsed = s.bytesUsed := rfl
@[simp] theorem State.storeImage_nbp (s : State) (l : List Int) : (s.storeImage l).nbp = s.nbp := rfl
@[simp] theorem State.storeImage_dc (s : State) (l : List Int) : (s.storeImage l).dc = s.dc := rfl
@[simp] theorem State.storeImage_bw (s : State) (l : List Int) : (s.storeImage l).bw = s.bw := rfl
@[simp] theorem State.storeImage_coef (s : State) (l : List Int) : (s.storeImage l).coef = Memory.writeList s.coef 0 (l.map (pattern s.w)) := rfl
@[simp] theorem State.storeImage_out (s : State) (l : List Int) : (s.storeImage l).out = s.out := rfl
@[simp] theorem State.storeImage_stage (s : State) (l : List Int) : (s.storeImage l).stage = s.stage := rfl
@[simp] theorem State.storeImage_inbox (s : State) (l : List Int) : (s.storeImage l).inbox = s.inbox := rfl
@[simp] theorem State.storeImage_replies (s : State) (l : List Int) : (s.storeImage l).replies = s.replies := rfl
@[simp] theorem State.storeImage_delay (s : State) (l : List Int) : (s.storeImage l).delay = s.delay := rfl
@[simp] theorem State.storeImage_draws (s : State) (l : List Int) : (s.storeImage l).draws = s.draws := rfl

/-! ## setResult -/

@[simp] theorem State.setResult_params (s : State) (r : Bool) : (s.setResult r).params = s.params := rfl
@[simp] theorem State.setResult_seq (s : State) (r : Bool) : (s.setResult r).seq = s.seq := rfl
@[simp] theorem State.setResult_status (s : State) (r : Bool) : (s.setResult r).status = { s.status with result := r } := rfl
@[simp] theorem State.setResult_cfg (s : State) (r : Bool) : (s.setResult r).cfg = s.cfg := rfl
@[simp] theorem State.setResult_latch (s : State) (r : Bool) : (s.setResult r).latch = s.latch := rfl
@[simp] theorem State.setResult_bytesUsed (s : State) (r : Bool) : (s.setResult r).bytesUsed = s.bytesUsed := rfl
@[simp] theorem State.setResult_nbp (s : State) (r : Bool) : (s.setResult r).nbp = s.nbp := rfl
@[simp] theorem State.setResult_dc (s : State) (r : Bool) : (s.setResult r).dc = s.dc := rfl
@[simp] theorem State.setResult_bw (s : State) (r : Bool) : (s.setResult r).bw = s.bw := rfl
@[simp] theorem State.setResult_coef (s : State) (r : Bool) : (s.setResult r).coef = s.coef := rfl
@[simp] theorem State.setResult_out (s : State) (r : Bool) : (s.setResult r).out = s.out := rfl
@[simp] theorem State.setResult_stage (s : State) (r : Bool) : (s.setResult r).stage = s.stage := rfl
@[simp] theorem State.setResult_inbox (s : State) (r : Bool) : (s.setResult r).inbox = s.inbox := rfl
@[simp] theorem State.setResult_replies (s : State) (r : Bool) : (s.setResult r).replies = s.replies := rfl
@[simp] theorem State.setResult_delay (s : State) (r : Bool) : (s.setResult r).delay = s.delay := rfl
@[simp] theorem State.setResult_draws (s : State) (r : Bool) : (s.setResult r).draws = s.draws := rfl

/-! ## reply -/

@[simp] theorem State.reply_params (s : State) (r : Reply) : (s.reply r).params = s.params := rfl
@[simp] theorem State.reply_seq (s : State) (r : Reply) : (s.reply r).seq = s.seq := rfl
@[simp] theorem State.reply_status (s : State) (r : Reply) : (s.reply r).status = s.status := rfl
@[simp] theorem State.reply_cfg (s : State) (r : Reply) : (s.reply r).cfg = s.cfg := rfl
@[simp] theorem State.reply_latch (s : State) (r : Reply) : (s.reply r).latch = s.latch := rfl
@[simp] theorem State.reply_bytesUsed (s : State) (r : Reply) : (s.reply r).bytesUsed = s.bytesUsed := rfl
@[simp] theorem State.reply_nbp (s : State) (r : Reply) : (s.reply r).nbp = s.nbp := rfl
@[simp] theorem State.reply_dc (s : State) (r : Reply) : (s.reply r).dc = s.dc := rfl
@[simp] theorem State.reply_bw (s : State) (r : Reply) : (s.reply r).bw = s.bw := rfl
@[simp] theorem State.reply_coef (s : State) (r : Reply) : (s.reply r).coef = s.coef := rfl
@[simp] theorem State.reply_out (s : State) (r : Reply) : (s.reply r).out = s.out := rfl
@[simp] theorem State.reply_stage (s : State) (r : Reply) : (s.reply r).stage = s.stage := rfl
@[simp] theorem State.reply_inbox (s : State) (r : Reply) : (s.reply r).inbox = s.inbox := rfl
@[simp] theorem State.reply_replies (s : State) (r : Reply) : (s.reply r).replies = r :: s.replies := rfl
@[simp] theorem State.reply_delay (s : State) (r : Reply) : (s.reply r).delay = s.delay := rfl
@[simp] theorem State.reply_draws (s : State) (r : Reply) : (s.reply r).draws = s.draws := rfl

/-! ## drew -/

@[simp] theorem State.drew_params (s : State) (n : Nat) : (s.drew n).params = s.params := rfl
@[simp] theorem State.drew_seq (s : State) (n : Nat) : (s.drew n).seq = s.seq := rfl
@[simp] theorem State.drew_status (s : State) (n : Nat) : (s.drew n).status = s.status := rfl
@[simp] theorem State.drew_cfg (s : State) (n : Nat) : (s.drew n).cfg = s.cfg := rfl
@[simp] theorem State.drew_latch (s : State) (n : Nat) : (s.drew n).latch = s.latch := rfl
@[simp] theorem State.drew_bytesUsed (s : State) (n : Nat) : (s.drew n).bytesUsed = s.bytesUsed := rfl
@[simp] theorem State.drew_nbp (s : State) (n : Nat) : (s.drew n).nbp = s.nbp := rfl
@[simp] theorem State.drew_dc (s : State) (n : Nat) : (s.drew n).dc = s.dc := rfl
@[simp] theorem State.drew_bw (s : State) (n : Nat) : (s.drew n).bw = s.bw := rfl
@[simp] theorem State.drew_coef (s : State) (n : Nat) : (s.drew n).coef = s.coef := rfl
@[simp] theorem State.drew_out (s : State) (n : Nat) : (s.drew n).out = s.out := rfl
@[simp] theorem State.drew_stage (s : State) (n : Nat) : (s.drew n).stage = s.stage := rfl
@[simp] theorem State.drew_inbox (s : State) (n : Nat) : (s.drew n).inbox = s.inbox := rfl
@[simp] theorem State.drew_replies (s : State) (n : Nat) : (s.drew n).replies = s.replies := rfl
@[simp] theorem State.drew_delay (s : State) (n : Nat) : (s.drew n).delay = s.delay := rfl
@[simp] theorem State.drew_draws (s : State) (n : Nat) : (s.drew n).draws = s.draws + n := rfl

/-! ## accept -/

@[simp] theorem State.accept_params (s : State) (c : Word) : (s.accept c).params = s.params := rfl
@[simp] theorem State.accept_seq (s : State) (c : Word) : (s.accept c).seq = .busy := rfl
@[simp] theorem State.accept_status (s : State) (c : Word) : (s.accept c).status = Status.reset := rfl
@[simp] theorem State.accept_cfg (s : State) (c : Word) : (s.accept c).cfg = s.cfg := rfl
@[simp] theorem State.accept_latch (s : State) (c : Word) : (s.accept c).latch = { cmd := c, cfg := s.cfg } := rfl
@[simp] theorem State.accept_bytesUsed (s : State) (c : Word) : (s.accept c).bytesUsed = s.bytesUsed := rfl
@[simp] theorem State.accept_nbp (s : State) (c : Word) : (s.accept c).nbp = s.nbp := rfl
@[simp] theorem State.accept_dc (s : State) (c : Word) : (s.accept c).dc = s.dc := rfl
@[simp] theorem State.accept_bw (s : State) (c : Word) : (s.accept c).bw = s.bw := rfl
@[simp] theorem State.accept_coef (s : State) (c : Word) : (s.accept c).coef = s.coef := rfl
@[simp] theorem State.accept_out (s : State) (c : Word) : (s.accept c).out = s.out := rfl
@[simp] theorem State.accept_stage (s : State) (c : Word) : (s.accept c).stage = s.stage := rfl
@[simp] theorem State.accept_inbox (s : State) (c : Word) : (s.accept c).inbox = s.inbox := rfl
@[simp] theorem State.accept_replies (s : State) (c : Word) : (s.accept c).replies = s.replies := rfl
@[simp] theorem State.accept_delay (s : State) (c : Word) : (s.accept c).delay = s.delay := rfl
@[simp] theorem State.accept_draws (s : State) (c : Word) : (s.accept c).draws = s.draws := rfl

/-! ## issue -/

@[simp] theorem State.issue_params (s : State) (r : List Txn) : (s.issue r).params = s.params := rfl
@[simp] theorem State.issue_seq (s : State) (r : List Txn) : (s.issue r).seq = s.seq := rfl
@[simp] theorem State.issue_status (s : State) (r : List Txn) : (s.issue r).status = s.status := rfl
@[simp] theorem State.issue_cfg (s : State) (r : List Txn) : (s.issue r).cfg = s.cfg := rfl
@[simp] theorem State.issue_latch (s : State) (r : List Txn) : (s.issue r).latch = s.latch := rfl
@[simp] theorem State.issue_bytesUsed (s : State) (r : List Txn) : (s.issue r).bytesUsed = s.bytesUsed := rfl
@[simp] theorem State.issue_nbp (s : State) (r : List Txn) : (s.issue r).nbp = s.nbp := rfl
@[simp] theorem State.issue_dc (s : State) (r : List Txn) : (s.issue r).dc = s.dc := rfl
@[simp] theorem State.issue_bw (s : State) (r : List Txn) : (s.issue r).bw = s.bw := rfl
@[simp] theorem State.issue_coef (s : State) (r : List Txn) : (s.issue r).coef = s.coef := rfl
@[simp] theorem State.issue_out (s : State) (r : List Txn) : (s.issue r).out = s.out := rfl
@[simp] theorem State.issue_stage (s : State) (r : List Txn) : (s.issue r).stage = s.stage := rfl
@[simp] theorem State.issue_inbox (s : State) (r : List Txn) : (s.issue r).inbox = r := rfl
@[simp] theorem State.issue_replies (s : State) (r : List Txn) : (s.issue r).replies = s.replies := rfl
@[simp] theorem State.issue_delay (s : State) (r : List Txn) : (s.issue r).delay = s.delay - 1 := rfl
@[simp] theorem State.issue_draws (s : State) (r : List Txn) : (s.issue r).draws = s.draws := rfl

/-! ## holding -/

@[simp] theorem State.holding_params (s : State) (c : Word) : (s.holding c).params = s.params := rfl
@[simp] theorem State.holding_seq (s : State) (c : Word) : (s.holding c).seq = .busy := rfl
@[simp] theorem State.holding_status (s : State) (c : Word) : (s.holding c).status = Status.reset := rfl
@[simp] theorem State.holding_cfg (s : State) (c : Word) : (s.holding c).cfg = s.cfg := rfl
@[simp] theorem State.holding_latch (s : State) (c : Word) : (s.holding c).latch = { cmd := c, cfg := s.cfg } := rfl
@[simp] theorem State.holding_bytesUsed (s : State) (c : Word) : (s.holding c).bytesUsed = s.bytesUsed := rfl
@[simp] theorem State.holding_nbp (s : State) (c : Word) : (s.holding c).nbp = s.nbp := rfl
@[simp] theorem State.holding_dc (s : State) (c : Word) : (s.holding c).dc = s.dc := rfl
@[simp] theorem State.holding_bw (s : State) (c : Word) : (s.holding c).bw = s.bw := rfl
@[simp] theorem State.holding_coef (s : State) (c : Word) : (s.holding c).coef = s.coef := rfl
@[simp] theorem State.holding_out (s : State) (c : Word) : (s.holding c).out = s.out := rfl
@[simp] theorem State.holding_stage (s : State) (c : Word) : (s.holding c).stage = s.stage := rfl
@[simp] theorem State.holding_inbox (s : State) (c : Word) : (s.holding c).inbox = s.inbox := rfl
@[simp] theorem State.holding_replies (s : State) (c : Word) : (s.holding c).replies = s.replies := rfl
@[simp] theorem State.holding_delay (s : State) (c : Word) : (s.holding c).delay = 0 := rfl
@[simp] theorem State.holding_draws (s : State) (c : Word) : (s.holding c).draws = s.draws := rfl

/-! ## What commands read of an updated state: the latched operands see only LATCH and the parameters -/

@[simp] theorem State.w_finishWith (s : State) (e : Bool) (c : Cause) : (s.finishWith e c).w = s.w := rfl
@[simp] theorem State.w_withSink (s : State) (k : Sink) : (s.withSink k).w = s.w := rfl
@[simp] theorem State.w_storeImage (s : State) (l : List Int) : (s.storeImage l).w = s.w := rfl
@[simp] theorem State.w_setResult (s : State) (r : Bool) : (s.setResult r).w = s.w := rfl
@[simp] theorem State.w_accept (s : State) (c : Word) : (s.accept c).w = s.w := rfl
@[simp] theorem State.w_holding (s : State) (c : Word) : (s.holding c).w = s.w := rfl
@[simp] theorem State.busy_iff (s : State) : s.busy = true ↔ s.seq = .busy := by
  simp [State.busy]

end Sys2Proof.Machine
end

