-- ==== Sys2Proof/Laws/Transform.lean ====
section
/-! SUPPORT. The transform's stages: lengths, the value at each element, and that every value is a W-bit one. -/

namespace Sys2Proof.Machine

@[simp] theorem mapActive_length (ny nxtop nytop : Nat) (img : List Int) (f : Nat → Nat → Int) :
    (mapActive ny nxtop nytop img f).length = img.length := by simp [mapActive]

theorem mapActive_getD (ny nxtop nytop : Nat) (img : List Int) (f : Nat → Nat → Int) (e : Nat) :
    (mapActive ny nxtop nytop img f).getD e 0 =
      if e < img.length ∧ e / ny < nxtop ∧ e % ny < nytop then f (e / ny) (e % ny) else img.getD e 0 := by
  by_cases he : e < img.length
  · simp [mapActive, List.getD, he]
  · simp [mapActive, List.getD, he]

/-- Inside the active rectangle. -/
theorem pixel_mapActive {ny nxtop nytop : Nat} {img : List Int} (f : Nat → Nat → Int) (hny : nytop ≤ ny)
    (hl : nxtop * ny ≤ img.length) {i j : Nat} (hi : i < nxtop) (hj : j < nytop) :
    pixel (mapActive ny nxtop nytop img f) ny i j = f i j := by
  have hpos : 0 < ny := by omega
  have hd : (i * ny + j) / ny = i := by
    rw [Nat.add_comm, Nat.add_mul_div_right _ _ hpos, Nat.div_eq_of_lt (by omega), Nat.zero_add]
  have hm : (i * ny + j) % ny = j := by
    rw [Nat.add_comm, Nat.add_mul_mod_self_right, Nat.mod_eq_of_lt (by omega)]
  have hlt : i * ny + j < img.length := by
    have : (i + 1) * ny ≤ nxtop * ny := Nat.mul_le_mul_right _ hi
    rw [Nat.add_mul] at this
    omega
  rw [pixel, mapActive_getD, hd, hm, if_pos ⟨hlt, hi, hj⟩]

/-- Outside it. -/
theorem getD_mapActive_outside {ny nxtop nytop : Nat} (img : List Int) (f : Nat → Nat → Int) {e : Nat}
    (h : nxtop ≤ e / ny ∨ nytop ≤ e % ny) : (mapActive ny nxtop nytop img f).getD e 0 = img.getD e 0 := by
  rw [mapActive_getD, if_neg (by omega)]

@[simp] theorem blockStage_length (w k ny nxtop nytop : Nat) (img : List Int) :
    (blockStage w k ny nxtop nytop img).length = img.length := mapActive_length ..

@[simp] theorem shuffleStage_length (ny nxtop nytop : Nat) (img : List Int) :
    (shuffleStage ny nxtop nytop img).length = img.length := mapActive_length ..

@[simp] theorem transformFrom_length (w ny levels k nxtop nytop : Nat) (img : List Int) :
    (transformFrom w ny levels k nxtop nytop img).length = img.length := by
  induction levels generalizing k nxtop nytop img with
  | zero => rfl
  | succ n ih => rw [transformFrom, ih, shuffleStage_length, blockStage_length]

@[simp] theorem hTransform_length (w nx ny : Nat) (img : List Int) : (hTransform w nx ny img).length = img.length :=
  transformFrom_length ..

/-! ## Every value is a W-bit value -/

theorem wrap_zero (w : Nat) : wrap w 0 = 0 := by simp [wrap]

theorem wrap_asr {w : Nat} (hw : 0 < w) (n : Int) (k : Nat) : wrap w (asr (wrap w n) k) = asr (wrap w n) k := by
  obtain ⟨h1, h2⟩ := wrap_range hw n
  have hp := two_pow_pos_int k
  have hq := two_pow_pos_int (w - 1)
  refine wrap_eq_self hw ?_ ?_
  · rw [asr, Int.le_ediv_iff_mul_le hp]
    nlinarith
  · rw [asr]
    exact Int.ediv_lt_of_lt_mul hp (by nlinarith)

theorem wrap_blockValue {w : Nat} (hw : 0 < w) (k : Nat) (o : BlockOut) : wrap w (o.value w k) = o.value w k := by
  cases h : o.rounding <;> simp [BlockOut.value, roundW, h, wrap_asr hw]

/-- Every element is its own wrap. -/
def AllWrapped (w : Nat) (img : List Int) : Prop := ∀ e, wrap w (img.getD e 0) = img.getD e 0

theorem allWrapped_iff (w : Nat) (img : List Int) : AllWrapped w img ↔ ∀ v ∈ img, wrap w v = v := by
  constructor
  · intro h v hv
    obtain ⟨e, he, rfl⟩ := List.mem_iff_getElem.mp hv
    simpa [List.getD, he] using h e
  · intro h e
    by_cases he : e < img.length
    · simpa [List.getD, he] using h _ (List.getElem_mem he)
    · simp [List.getD, he, wrap_zero]

theorem allWrapped_blockStage {w : Nat} (hw : 0 < w) {k ny nxtop nytop : Nat} {img : List Int}
    (h : AllWrapped w img) : AllWrapped w (blockStage w k ny nxtop nytop img) := by
  intro e
  rw [blockStage, mapActive_getD]
  split
  · exact wrap_blockValue hw _ _
  · exact h e

theorem allWrapped_shuffleStage {w ny nxtop nytop : Nat} {img : List Int} (h : AllWrapped w img) :
    AllWrapped w (shuffleStage ny nxtop nytop img) := by
  intro e
  rw [shuffleStage, mapActive_getD]
  split
  · exact h _
  · exact h e

theorem allWrapped_transformFrom {w : Nat} (hw : 0 < w) {ny levels k nxtop nytop : Nat} {img : List Int}
    (h : AllWrapped w img) : AllWrapped w (transformFrom w ny levels k nxtop nytop img) := by
  induction levels generalizing k nxtop nytop img with
  | zero => exact h
  | succ n ih => exact ih (allWrapped_shuffleStage (allWrapped_blockStage hw h))

theorem allWrapped_hTransform {w : Nat} (hw : 0 < w) {nx ny : Nat} {img : List Int} (h : AllWrapped w img) :
    AllWrapped w (hTransform w nx ny img) := allWrapped_transformFrom hw h

theorem wrap_quantize {w : Nat} {x : Int} (h : wrap w x = x) (s : Int) : wrap w (quantize w x s) = quantize w x s := by
  simp only [quantize]
  split
  · exact h
  · exact wrap_wrap _ _

theorem wrap_magnitude {w : Nat} {v : Int} (h : wrap w v = v) : wrap w (magnitude w v) = magnitude w v := by
  simp only [magnitude]
  split
  · exact wrap_wrap _ _
  · exact h

end Sys2Proof.Machine
end

