-- ==== Sys2Proof/Laws/Exec.lean ====
section
/-! SUPPORT. Everything a command's completion can do to the state, said once. -/

namespace Sys2Proof.Machine

open Sys2Proof (Word)
open Sys2Proof.Safety

/-! ## The states of 44_driver.md R220 and R221, field by field -/

@[simp] theorem State.encodeSuccess_params (s : State) (img : List Int) :
    (s.encodeSuccess img).params = s.params := rfl
@[simp] theorem State.encodeSuccess_seq (s : State) (img : List Int) :
    (s.encodeSuccess img).seq = .idle := rfl
@[simp] theorem State.encodeSuccess_status (s : State) (img : List Int) :
    (s.encodeSuccess img).status = { s.status with done := true, err := false, cause := .none } := rfl
@[simp] theorem State.encodeSuccess_cfg (s : State) (img : List Int) :
    (s.encodeSuccess img).cfg = s.cfg := rfl
@[simp] theorem State.encodeSuccess_latch (s : State) (img : List Int) :
    (s.encodeSuccess img).latch = s.latch := rfl
@[simp] theorem State.encodeSuccess_bytesUsed (s : State) (img : List Int) :
    (s.encodeSuccess img).bytesUsed = BitVec.ofNat 32 (streamLength s img) := by
  unfold streamLength; rfl
@[simp] theorem State.encodeSuccess_nbp (s : State) (img : List Int) :
    (s.encodeSuccess img).nbp = planeCounts s.rows s.cols (magnitudes s.w img) := rfl
@[simp] theorem State.encodeSuccess_dc (s : State) (img : List Int) :
    (s.encodeSuccess img).dc = dcOf img := rfl
@[simp] theorem State.encodeSuccess_bw (s : State) (img : List Int) :
    (s.encodeSuccess img).bw = { Writer.fresh s.latch.cfg.capacity with
      cur := BitVec.ofNat 32 (streamLength s img)
      bitcount := BitVec.ofNat 64 (8 * (planeBytes s.w s.rows s.cols (magnitudes s.w img)).length) } := by
  unfold streamLength; rfl
@[simp] theorem State.encodeSuccess_coef (s : State) (img : List Int) :
    (s.encodeSuccess img).coef = Memory.writeList s.coef 0 ((magnitudes s.w img).map (pattern s.w)) := rfl
@[simp] theorem State.encodeSuccess_out (s : State) (img : List Int) :
    (s.encodeSuccess img).out = Memory.writeList s.out 0 (encodeStream s.w s.latch.cfg s.rows s.cols img) := by
  simp only [State.encodeSuccess, State.storeImage, State.complete, State.finishWith]
@[simp] theorem State.encodeSuccess_stage (s : State) (img : List Int) :
    (s.encodeSuccess img).stage = s.stage := rfl
@[simp] theorem State.encodeSuccess_inbox (s : State) (img : List Int) :
    (s.encodeSuccess img).inbox = s.inbox := rfl
@[simp] theorem State.encodeSuccess_replies (s : State) (img : List Int) :
    (s.encodeSuccess img).replies = s.replies := rfl
@[simp] theorem State.encodeSuccess_delay (s : State) (img : List Int) :
    (s.encodeSuccess img).delay = 0 := rfl
@[simp] theorem State.encodeSuccess_draws (s : State) (img : List Int) :
    (s.encodeSuccess img).draws = s.draws := rfl

@[simp] theorem State.encodeOverflow_params (s : State) :
    s.encodeOverflow.params = s.params := rfl
@[simp] theorem State.encodeOverflow_seq (s : State) :
    s.encodeOverflow.seq = .idle := rfl
@[simp] theorem State.encodeOverflow_status (s : State) :
    s.encodeOverflow.status = { s.status with done := true, err := true, cause := .capacity } := rfl
@[simp] theorem State.encodeOverflow_cfg (s : State) :
    s.encodeOverflow.cfg = s.cfg := rfl
@[simp] theorem State.encodeOverflow_latch (s : State) :
    s.encodeOverflow.latch = s.latch := rfl
@[simp] theorem State.encodeOverflow_bytesUsed (s : State) :
    s.encodeOverflow.bytesUsed = (s.drawn (s.latch.cfg.capacity.toNat + s.rows * s.cols + 5)).setWidth 32 := rfl
@[simp] theorem State.encodeOverflow_bw (s : State) :
    s.encodeOverflow.bw = s.drawnWriter s.latch.cfg.capacity (s.latch.cfg.capacity.toNat + s.rows * s.cols) := rfl
@[simp] theorem State.encodeOverflow_coef (s : State) :
    s.encodeOverflow.coef = Memory.writeList s.coef 0 (s.drawnElems s.latch.cfg.capacity.toNat (s.rows * s.cols)) := rfl
@[simp] theorem State.encodeOverflow_out (s : State) :
    s.encodeOverflow.out = Memory.writeList s.out 0 (s.drawnBytes 0 s.latch.cfg.capacity.toNat) := rfl
@[simp] theorem State.encodeOverflow_stage (s : State) :
    s.encodeOverflow.stage = s.stage := rfl
@[simp] theorem State.encodeOverflow_inbox (s : State) :
    s.encodeOverflow.inbox = s.inbox := rfl
@[simp] theorem State.encodeOverflow_replies (s : State) :
    s.encodeOverflow.replies = s.replies := rfl
@[simp] theorem State.encodeOverflow_delay (s : State) :
    s.encodeOverflow.delay = 0 := rfl

@[simp] theorem State.drawnBytes_length (s : State) (k n : Nat) : (s.drawnBytes k n).length = n := by
  simp [State.drawnBytes, State.drawnList]

@[simp] theorem State.drawnElems_length (s : State) (k n : Nat) : (s.drawnElems k n).length = n := by
  simp [State.drawnElems, State.drawnList]

/-- The drawn writer is within the invariants of R128, whatever the values. -/
theorem State.drawnWriter_ok (s : State) (cap : Word) (k : Nat) : WriterOk (s.drawnWriter cap k) := by
  have h1 := Nat.mod_lt (s.drawn k).toNat (show 0 < cap.toNat + 1 by omega)
  have h2 := Nat.mod_lt (s.drawn (k + 1)).toNat (show 0 < 8 by decide)
  have h3 : (1 + (s.drawn (k + 1)).toNat % 8) % 2 ^ 4 = 1 + (s.drawn (k + 1)).toNat % 8 :=
    Nat.mod_eq_of_lt (by omega)
  have hc := cap.isLt
  refine ⟨?_, ?_, ?_, ?_⟩ <;> simp only [State.drawnWriter, BitVec.toNat_ofNat, h3]
  · omega
  · omega
  · exact Nat.lt_of_le_of_lt (Nat.mod_le _ _) (Nat.mod_lt _ (Nat.two_pow_pos _))
  · rw [Nat.mod_eq_of_lt (by omega)]; omega

/-- A writer that grew from the state's own, keeping the invariants of R128. -/
structure Appended (s : State) (k : Sink) : Prop where
  grows : s.sink.Grows k
  ok    : WriterOk s.bw → WriterOk k.bw

/-- The states a command can complete in. -/
inductive Effect (s : State) : State → Prop
  | raised (c : Cause) (hc : c ∈ [Cause.badArg, .alloc, .illegal]) : Effect s (s.raise c)
  | done : Effect s s.complete
  | opened (h : s.latch.cfg.capacity.toNat ≤ s.params.outBytes.toNat) :
    Effect s { s with bw := Writer.fresh s.latch.cfg.capacity }.complete
  | wrote (k : Sink) (hk : Appended s k) : Effect s (s.withSink k).complete
  | full (k : Sink) (hk : Appended s k) (ho : k.bw.ovf = true) : Effect s ((s.withSink k).raise .capacity)
  | raw (k : Sink) (hk : Appended s k) (r : Bool) : Effect s ((s.withSink k).setResult r).complete
  | stored (vals : List Int) (hg : s.geometryError = none) (hl : vals.length = s.rows * s.cols) :
    Effect s (s.storeImage vals).complete
  | encoded (img : List Int) (he : s.encodeError = none) (hl : img.length = s.rows * s.cols)
    (hlt : streamLength s img < s.latch.cfg.capacity.toNat) : Effect s (s.encodeSuccess img)
  | overflowed (he : s.encodeError = none) : Effect s s.encodeOverflow

theorem geometryError_cause {s : State} {c : Cause} (h : s.geometryError = some c) :
    c ∈ [Cause.badArg, .alloc, .illegal] := by
  rcases s.geometryError_cases with ⟨_, e⟩ | ⟨_, _, e⟩ | ⟨_, _, e⟩ <;> rw [h] at e <;> cases e <;> decide

theorem encodeError_cause {s : State} {c : Cause} (h : s.encodeError = some c) :
    c ∈ [Cause.badArg, .alloc, .illegal] := by
  rcases s.encodeError_cases with ⟨_, e⟩ | ⟨_, _, e⟩ | ⟨_, _, e⟩ <;> rw [h] at e <;> cases e <;> decide

theorem quadrantError_cause {s : State} {c : Cause} (h : s.quadrantError = some c) :
    c ∈ [Cause.badArg, .alloc, .illegal] := by
  rcases s.quadrantError_cases with ⟨_, e⟩ | ⟨_, _, e⟩ | ⟨_, _, e⟩ <;> rw [h] at e <;> cases e <;> decide

theorem Appended.putAll {s : State} {cs : List (Nat × Nat)} (hc : ∀ c ∈ cs, c.2 ≤ 8) :
    Appended s (s.sink.putAll cs) :=
  ⟨Sink.putAll_grows _ _, fun hk => Sink.putAll_ok hk hc⟩

theorem Effect.encodeOutcome {s : State} {img : List Int} (he : s.encodeError = none)
    (hl : img.length = s.rows * s.cols) : Effect s (s.encodeOutcome img) := by
  unfold State.encodeOutcome
  split
  · exact .encoded img he hl ‹_›
  · exact .overflowed he

@[simp] theorem compressImage_length (w nx ny : Nat) (scale : Int) (img : List Int) :
    (compressImage w nx ny scale img).length = img.length := by simp [compressImage]

/-- Every completion of a command is one of the effects. -/
theorem exec_effect {i : Instr} {s t : State} (h : exec i s = .next t) : Effect s t := by
  cases i with
  | nop => cases h; exact .done
  | compress =>
    simp only [exec, execCompress] at h
    split at h
    · cases h; exact .raised _ (encodeError_cause ‹_›)
    · split at h
      · cases h
      · cases h; exact .encodeOutcome ‹_› (by rw [compressImage_length]; exact State.loadImage_length ‹_›)
  | transform =>
    simp only [exec, execTransform] at h
    split at h
    · cases h; exact .raised _ (geometryError_cause ‹_›)
    · split at h
      · cases h; exact .done
      · split at h
        · cases h
        · cases h; exact .stored _ ‹_› (by rw [hTransform_length]; exact State.loadImage_length ‹_›)
  | quantize =>
    simp only [exec, execQuantize] at h
    split at h
    · cases h; exact .raised _ (geometryError_cause ‹_›)
    · split at h
      · cases h; exact .done
      · split at h
        · cases h
        · cases h; exact .stored _ ‹_› (by rw [List.length_map]; exact State.loadImage_length ‹_›)
  | encode =>
    simp only [exec, execEncode] at h
    split at h
    · cases h; exact .raised _ (encodeError_cause ‹_›)
    · split at h
      · cases h
      · cases h; exact .encodeOutcome ‹_› (State.loadImage_length ‹_›)
  | qtEncode =>
    simp only [exec, execQtEncode] at h
    split at h
    · cases h; exact .raised _ (quadrantError_cause ‹_›)
    · split at h
      · cases h
      · cases h
        unfold State.finishQuadrant
        split
        · exact .full _ (.putAll quadrantChunks_le) ‹_›
        · exact .wrote _ (.putAll quadrantChunks_le)
  | bwReset =>
    simp only [exec, execBwReset] at h
    split at h
    · cases h; exact .raised _ (by decide)
    · cases h
      rename_i hb
      rw [State.badCapacity_iff] at hb
      exact .opened (by omega)
  | bwBits value n =>
    simp only [exec, execBwBits] at h
    split at h
    · cases h; exact .raised _ (by decide)
    · cases h; exact .wrote _ ⟨Sink.putBits_grows _ _ _, fun hk => Sink.putBits_ok hk (by omega) _⟩
  | bwNibble imm8 =>
    cases h; exact .wrote _ ⟨Sink.putBits_grows _ _ _, fun hk => Sink.putBits_ok hk (by decide) _⟩
  | bwNibbles =>
    simp only [exec, execBwNibbles] at h
    split at h
    · cases h; exact .raised _ (by decide)
    · split at h
      · cases h
      · cases h; exact .wrote _ (.putAll nibbleChunks_le)
  | bwRaw =>
    simp only [exec, execBwRaw] at h
    split at h
    · cases h; exact .raised _ (by decide)
    · split at h
      · cases h; exact .raw s.sink ⟨Sink.Grows.refl _, id⟩ false
      · split at h
        · cases h
        · cases h
          rename_i bytes hb
          have hl := State.loadStage_length hb
          have hle : s.sink.bw.cur.toNat + bytes.length ≤ s.sink.bw.cap.toNat := by
            simp only [State.sink]; omega
          exact .raw _ ⟨Sink.putRaw_grows hle, fun hk => Sink.putRaw_ok hk hle⟩ true
  | bwFinish => cases h; exact .wrote _ ⟨Sink.finish_grows _, fun hk => Sink.finish_ok (k := s.sink) hk⟩

/-- The same of the Engine's step, an illegal word included. -/
theorem engineStep_effect {s t : State} (h : engineStep s = .next t) : Effect s t := by
  unfold engineStep at h
  split at h
  · exact exec_effect h
  · cases h; exact .raised _ (by decide)

/-! ## The two outcomes of ENCODE and COMPRESS (44_driver.md R219) -/

theorem State.encodeOutcome_of_lt {s : State} {img : List Int}
    (h : streamLength s img < s.latch.cfg.capacity.toNat) : s.encodeOutcome img = s.encodeSuccess img := if_pos h

theorem State.encodeOutcome_of_not_lt {s : State} {img : List Int}
    (h : ¬ streamLength s img < s.latch.cfg.capacity.toNat) : s.encodeOutcome img = s.encodeOverflow := if_neg h

theorem exec_encode_of_written {s : State} (he : s.encodeError = none) (hw : imageWritten s) :
    exec .encode s = .next (s.encodeOutcome (image s)) := by
  simp only [exec, execEncode, he, State.loadImage_of_written hw]

theorem exec_compress_of_written {s : State} (he : s.encodeError = none) (hw : imageWritten s) :
    exec .compress s = .next (s.encodeOutcome (compressImage s.w s.rows s.cols s.scale (image s))) := by
  simp only [exec, execCompress, he, State.loadImage_of_written hw]

/-- Two states with equal fields are equal. -/
theorem State.ext_fields {a b : State} (h1 : a.params = b.params) (h2 : a.seq = b.seq) (h3 : a.status = b.status)
    (h4 : a.cfg = b.cfg) (h5 : a.latch = b.latch) (h6 : a.bytesUsed = b.bytesUsed) (h7 : a.nbp = b.nbp)
    (h8 : a.dc = b.dc) (h9 : a.bw = b.bw) (h10 : a.coef = b.coef) (h11 : a.out = b.out) (h12 : a.stage = b.stage)
    (h13 : a.inbox = b.inbox) (h14 : a.replies = b.replies) (h15 : a.delay = b.delay) (h16 : a.draws = b.draws) :
    a = b := by
  cases a; cases b; simp_all

end Sys2Proof.Machine
end

