-- ==== Sys2Proof/Laws/Host.lean ====
section
/-! SUPPORT. Everything a host transaction can do to the state, said once. -/

namespace Sys2Proof.Machine

open Sys2Proof (Byte Word Elem)

/-- The states a host transaction can leave. -/
inductive HostEffect (s : State) : State → Prop
  | replied (r : Reply) (n : Nat) : HostEffect s ((s.drew n).reply r)
  | accepted (c : Word) (h : s.seq = .idle) :
    HostEffect s { (s.accept c).drew 1 with delay := Config.latency s.draws }
  | lost (h : s.seq = .busy) : HostEffect s { s with status := { s.status with cmdLost := true } }
  | configured (c : ConfigRegs) : HostEffect s { s with cfg := c }
  | coef (e : Nat) (v : Elem) (h : s.seq = .idle) (he : e < s.params.nmax.toNat) :
    HostEffect s { s with coef := Memory.write s.coef e (pattern s.params.width.bits v.toNat) }
  | out (b : Nat) (v : Byte) (h : s.seq = .idle) (hb : b < s.params.outBytes.toNat) :
    HostEffect s { s with out := Memory.write s.out b v }
  | stage (b : Nat) (v : Byte) (h : s.seq = .idle) (hb : b < s.params.stageBytes.toNat) :
    HostEffect s { s with stage := Memory.write s.stage b v }
  | reset : HostEffect s s.resetTxn

theorem State.not_busy_iff (s : State) : s.busy = false ↔ s.seq = .idle := by
  cases h : s.seq <;> simp [State.busy, h]

/-! ## The packed registers as numbers (10_state.md R30 to R33) -/

theorem Writer.stateWord_toNat (b : Writer) : b.stateWord.toNat = b.free.toNat * 2 ^ 8 + b.acc.toNat := by
  simp only [Writer.stateWord, toNat_append_eq]
  simp

theorem PlaneCounts.word_toNat (n : PlaneCounts) :
    n.word.toNat = n.c2.toNat * 2 ^ 16 + n.c1.toNat * 2 ^ 8 + n.c0.toNat := by
  simp only [PlaneCounts.word, toNat_append_eq]
  simp
  omega

theorem low32_eq_ofNat (v : BitVec 64) : low32 v = BitVec.ofNat 32 v.toNat := by
  apply BitVec.eq_of_toNat_eq
  simp [low32]

theorem high32_eq_ofNat (v : BitVec 64) : high32 v = BitVec.ofNat 32 (v.toNat / 2 ^ 32) := by
  apply BitVec.eq_of_toNat_eq
  simp [high32, Nat.shiftRight_eq_div_pow]

/-! ## What a register read answers -/

/-- Between commands every register reads as the value it holds. -/
theorem State.readReg_of_idle {s : State} (h : s.seq = .idle) (r : Reg) :
    s.readReg r = s.reply (.reg (s.regValue r)) := by
  simp [State.readReg, s.not_busy_iff.mpr h]

/-- Also while BUSY, every register but a result register reads as the value it holds. -/
theorem State.readReg_of_not_result (s : State) {r : Reg} (h : r.isResult = false) :
    s.readReg r = s.reply (.reg (s.regValue r)) := by
  simp [State.readReg, h]

theorem State.reply_eq_drew_zero (s : State) (r : Reply) : s.reply r = (s.drew 0).reply r := rfl

/-- Every read of the Host answers one value and may draw one. -/
theorem hostRead_effect {x : Txn} {s t : State} {a : Nat}
    (hx : x ∈ [Txn.regRead a, .coefRead a, .outRead a, .stageRead a]) (h : hostStep x s = .next t) :
    ∃ r n, t = (s.drew n).reply r := by
  simp only [List.mem_cons, List.not_mem_nil, or_false] at hx
  rcases hx with rfl | rfl | rfl | rfl
  · simp only [hostStep, hostRegRead] at h
    split at h
    · cases h
    · cases h
      unfold State.readReg
      split
      · exact ⟨_, _, rfl⟩
      · exact ⟨_, 0, rfl⟩
  · simp only [hostStep, hostCoefRead] at h
    split at h
    · cases h
    · split at h
      · cases h; exact ⟨_, _, rfl⟩
      · split at h
        · cases h
        · cases h; exact ⟨_, 0, rfl⟩
  · simp only [hostStep, hostOutRead] at h
    split at h
    · cases h
    · split at h
      · cases h; exact ⟨_, _, rfl⟩
      · split at h
        · cases h
        · cases h; exact ⟨_, 0, rfl⟩
  · simp only [hostStep, hostStageRead] at h
    split at h
    · cases h
    · split at h
      · cases h
      · cases h; exact ⟨_, 0, rfl⟩

/-- Every host transaction that does not fault has one of the effects. -/
theorem hostStep_effect {x : Txn} {s t : State} (h : hostStep x s = .next t) : HostEffect s t := by
  cases x with
  | regRead a => obtain ⟨r, n, rfl⟩ := hostRead_effect (a := a) (by simp) h; exact .replied r n
  | coefRead a => obtain ⟨r, n, rfl⟩ := hostRead_effect (a := a) (by simp) h; exact .replied r n
  | outRead a => obtain ⟨r, n, rfl⟩ := hostRead_effect (a := a) (by simp) h; exact .replied r n
  | stageRead a => obtain ⟨r, n, rfl⟩ := hostRead_effect (a := a) (by simp) h; exact .replied r n
  | regWrite a v =>
    simp only [hostStep, hostRegWrite] at h
    split at h
    · cases h
    · cases h
      unfold State.writeReg
      split
      · unfold State.writeCmd
        split
        · exact .lost (s.busy_iff.mp ‹_›)
        · exact .accepted v (s.not_busy_iff.mp (Bool.eq_false_of_not_eq_true ‹_›))
      · exact .configured _
  | coefWrite e v =>
    simp only [hostStep, hostCoefWrite] at h
    split at h
    · cases h
    · split at h
      · cases h
      · cases h; exact .coef e v (s.not_busy_iff.mp (Bool.eq_false_of_not_eq_true ‹_›)) (by omega)
  | outWrite b v =>
    simp only [hostStep, hostOutWrite] at h
    split at h
    · cases h
    · split at h
      · cases h
      · cases h; exact .out b v (s.not_busy_iff.mp (Bool.eq_false_of_not_eq_true ‹_›)) (by omega)
  | stageWrite b v =>
    simp only [hostStep, hostStageWrite] at h
    split at h
    · cases h
    · split at h
      · cases h
      · cases h; exact .stage b v (s.not_busy_iff.mp (Bool.eq_false_of_not_eq_true ‹_›)) (by omega)
  | reset => cases h; exact .reset

/-- What a step does: the Engine's completion, a host transaction, or nothing. -/
theorem step_cases {s t : State} (h : step s = .next t) :
    (s.engineTurn = true ∧ engineStep s = .next t) ∨
    (∃ x rest, s.engineTurn = false ∧ s.inbox = x :: rest ∧ hostStep x (s.issue rest) = .next t) ∨
    (s.engineTurn = false ∧ s.inbox = [] ∧ t = s) := by
  unfold step at h
  split at h
  · exact .inl ⟨‹_›, h⟩
  · split at h
    · cases h; exact .inr (.inr ⟨Bool.eq_false_of_not_eq_true ‹_›, ‹_›, rfl⟩)
    · exact .inr (.inl ⟨_, _, Bool.eq_false_of_not_eq_true ‹_›, ‹_›, h⟩)

end Sys2Proof.Machine
end

