-- ==== Sys2Proof/Laws/PerInstr.lean ====
section
/-! SUPPORT. Per-instruction facts about the encoding, one lemma per constructor. -/

namespace Sys2Proof.Laws.WordFields

open Sys2Proof

/-- The word of a command has RSV 0, its own OP, and a zero in every field it does not use (30_encoding.md R82, R83). -/
def Statement (i : Instr) : Prop :=
  rsvField (encode i) = 0 ∧ opField (encode i) = opcode i ∧ imm8Field (encode i) = imm8Of i ∧ nField (encode i) = nOf i

theorem of_any (i : Instr) : Statement i :=
  ⟨rsvField_encode i, opField_encode i, imm8Field_encode i, nField_encode i⟩

theorem nop : Statement .nop := of_any _
theorem compress : Statement .compress := of_any _
theorem transform : Statement .transform := of_any _
theorem quantize : Statement .quantize := of_any _
theorem encode : Statement .encode := of_any _
theorem qtEncode : Statement .qtEncode := of_any _
theorem bwReset : Statement .bwReset := of_any _
theorem bwBits (value : Byte) (n : Nibble) : Statement (.bwBits value n) := of_any _
theorem bwNibble (imm8 : Byte) : Statement (.bwNibble imm8) := of_any _
theorem bwNibbles : Statement .bwNibbles := of_any _
theorem bwRaw : Statement .bwRaw := of_any _
theorem bwFinish : Statement .bwFinish := of_any _

end Sys2Proof.Laws.WordFields
end

