-- ==== Sys2Proof/Laws/Stream.lean ====
section
/-! SUPPORT. The stream of ENCODE: its length, its bytes, its plane counts, and the bits its packed bytes hold. -/

namespace Sys2Proof.Machine

open Sys2Proof (Byte Word)
open Sys2Proof.Safety

/-! ## Bytes and bits -/

/-- One packed byte holds its bits, padded with zeros. -/
theorem byteOfBits_bits (bs : List Bool) (h : bs.length ≤ 8) :
    msbBits 8 (byteOfBits bs).toNat = bs ++ List.replicate (8 - bs.length) false := by
  have key : ∀ b0 b1 b2 b3 b4 b5 b6 b7 : Bool,
      msbBits 8 (byteOfBits [b0, b1, b2, b3, b4, b5, b6, b7]).toNat = [b0, b1, b2, b3, b4, b5, b6, b7] := by
    decide +kernel
  have pad : byteOfBits bs = byteOfBits (bs ++ List.replicate (8 - bs.length) false) := by
    unfold byteOfBits
    congr 2
    funext a i
    congr 2
    simp only [List.getD, List.getElem?_append, List.getElem?_replicate]
    split
    · rfl
    · rename_i h; rw [List.getElem?_eq_none (by omega)]; split <;> rfl
  rw [pad]
  have hl : (bs ++ List.replicate (8 - bs.length) false).length = 8 := by simp; omega
  generalize bs ++ List.replicate (8 - bs.length) false = l at hl
  match l, hl with
  | [b0,b1,b2,b3,b4,b5,b6,b7], _ => exact key _ _ _ _ _ _ _ _

theorem packBytes_bits : ∀ n (bs : List Bool), bs.length ≤ 8 * n →
    (packBytes n bs).flatMap (fun b => msbBits 8 b.toNat) = bs ++ List.replicate (8 * n - bs.length) false := by
  intro n
  induction n with
  | zero => intro bs h; have : bs = [] := by simpa using h
            subst this; rfl
  | succ n ih =>
    intro bs h
    rw [packBytes, List.flatMap_cons, ih _ (by simp; omega), byteOfBits_bits _ (by simp)]
    by_cases h8 : 8 ≤ bs.length
    · have e1 : (bs.take 8).length = 8 := by simp; omega
      rw [e1]
      simp only [Nat.sub_self, List.replicate_zero, List.append_nil, List.length_drop]
      rw [← List.append_assoc, List.take_append_drop]
      congr 2; omega
    · have e1 : bs.take 8 = bs := List.take_of_length_le (by omega)
      have e2 : bs.drop 8 = [] := List.drop_of_length_le (by omega)
      rw [e1, e2]
      simp only [List.nil_append, List.append_assoc, List.length_nil, List.replicate_append_replicate]
      congr 2; omega

/-- The packed bytes of a bit string hold it, padded with zeros (30_encoding.md R99, R100). -/
theorem packBits_bits (bs : List Bool) : (packBits bs).flatMap (fun b => msbBits 8 b.toNat) =
    bs ++ List.replicate (8 * ((bs.length + 7) / 8) - bs.length) false :=
  packBytes_bits _ _ (by omega)

/-- One bit of a byte, from its bits. -/
theorem getLsbD_of_msbBits {y : Byte} {bs : List Bool} (h : msbBits 8 y.toNat = bs) {j : Nat} (hj : j < 8) :
    y.getLsbD (7 - j) = bs.getD j false := by
  subst h
  simp [msbBits, hj, BitVec.getLsbD]

theorem packBytes_getElem : ∀ n (bs : List Bool) (k : Nat), k < n →
    (packBytes n bs)[k]? = some (byteOfBits ((bs.drop (8 * k)).take 8)) := by
  intro n
  induction n with
  | zero => intro bs k hk; omega
  | succ n ih =>
    intro bs k hk
    cases k with
    | zero => rfl
    | succ k =>
      rw [packBytes, List.getElem?_cons_succ, ih _ _ (by omega), List.drop_drop, Nat.mul_succ, Nat.add_comm 8]

/-- Bit 7 − j of byte k of the packed bytes is bit 8k + j of the bit string, 0 past its end (30_encoding.md R100). -/
theorem packBits_getLsbD {bs : List Bool} {k j : Nat} (hk : k < (bs.length + 7) / 8) (hj : j < 8) :
    (packBits bs)[k]?.map (fun y => y.getLsbD (7 - j)) = some (bs.getD (8 * k + j) false) := by
  rw [packBits, packBytes_getElem _ _ _ hk, Option.map_some,
    getLsbD_of_msbBits (byteOfBits_bits _ (by simp)) hj]
  simp only [List.getD, List.getElem?_append, List.getElem?_replicate, List.length_take, List.length_drop,
    List.getElem?_take, List.getElem?_drop]
  congr 1
  split
  · rfl
  · rw [List.getElem?_eq_none (l := bs) (by omega)]; split <;> rfl

/-- PutBits calls append their bits, in order. -/
theorem Sink.traces_putAll : ∀ (cs : List (Nat × Nat)) (k : Sink) (bits : List Bool), k.Traces bits →
    (∀ c ∈ cs, c.2 ≤ 8) → (k.putAll cs).Traces (bits ++ chunkBits cs) := by
  intro cs
  induction cs with
  | nil => intro k bits h _; simpa [chunkBits] using h
  | cons c cs ih =>
    intro k bits h hl
    have := ih _ _ (Sink.traces_putBits h (hl c (by simp)) c.1) fun d hd => hl d (List.mem_cons_of_mem _ hd)
    rw [Sink.putAll_cons]
    simpa [chunkBits] using this

/-- A byte is its bits. -/
theorem msbBits_byte_injective : ∀ a b : Byte, msbBits 8 a.toNat = msbBits 8 b.toNat → a = b := by
  intro a b h
  apply BitVec.eq_of_toNat_eq
  have hv : ∀ x : Byte, x.toNat = (msbBits 8 x.toNat).foldl (fun a b => 2 * a + b.toNat) 0 := by
    decide +kernel
  rw [hv a, hv b, h]

theorem bytes_eq_of_bits_eq : ∀ l m : List Byte,
    l.flatMap (fun b => msbBits 8 b.toNat) = m.flatMap (fun b => msbBits 8 b.toNat) → l = m := by
  intro l
  induction l with
  | nil =>
    intro m h
    cases m with
    | nil => rfl
    | cons b m => have := congrArg List.length h; simp at this; omega
  | cons a l ih =>
    intro m h
    cases m with
    | nil => have := congrArg List.length h; simp at this; try omega
    | cons b m =>
      simp only [List.flatMap_cons] at h
      obtain ⟨h1, h2⟩ := List.append_inj h (by simp)
      rw [msbBits_byte_injective a b h1, ih m h2]

/-! ## Fields of the stream (30_encoding.md R88 to R92) -/

/-- The length L of the stream (44_driver.md R219). -/
theorem encodeStream_length (w : Nat) (c : ConfigRegs) (nx ny : Nat) (img : List Int) :
    (encodeStream w c nx ny img).length =
      25 + (planeBytes w nx ny (magnitudes w img)).length + (packBits (signBits (zeroDc img))).length := by
  simp [encodeStream, headerBytes, Rom.magic]; omega

/-- Byte k of a big-endian field. -/
theorem bigEndian_getElem {n : Nat} {v : BitVec (8 * n)} {k : Nat} (h : k < n) :
    (bigEndian n v.toNat)[k]? = some (v.extractLsb' (8 * (n - 1 - k)) 8) := by
  simp [bigEndian, h]
  apply BitVec.eq_of_toNat_eq
  rw [BitVec.toNat_ofNat, BitVec.extractLsb'_toNat, Nat.shiftRight_eq_div_pow, Nat.pow_mul]

/-! ## Plane counts and magnitudes (44_driver.md R214, R215) -/

theorem foldl_max_lt_iff (l : List Nat) (p : Nat → Prop) [DecidablePred p] (f : Nat → Int) (m0 b : Int) :
    l.foldl (fun m e => if p e then max m (f e) else m) m0 < b ↔ m0 < b ∧ ∀ e ∈ l, p e → f e < b := by
  induction l generalizing m0 with
  | nil => simp
  | cons a l ih =>
    rw [List.foldl_cons, ih]
    by_cases h : p a
    · simp [h, and_assoc]
    · simp [h]

/-- On W-bit values the magnitudes are the wrapped absolute values, the DC zeroed. -/
theorem magnitudes_eq {w : Nat} {img : List Int} (h : ∀ v ∈ img, wrap w v = v) :
    magnitudes w img = (img.map fun v => wrap w |v|).set 0 0 := by
  have hz : ∀ v ∈ img, magnitude w v = wrap w |v| := by
    intro v hv
    unfold magnitude
    split
    · rw [abs_of_neg ‹_›]
    · rw [abs_of_nonneg (by omega), h v hv]
  unfold magnitudes zeroDc
  cases img with
  | nil => rfl
  | cons a l =>
    simp only [List.set_cons_zero, List.map_cons]
    rw [List.map_congr_left fun v hv => hz v (List.mem_cons_of_mem _ hv)]
    rfl

/-- COMPRESS encodes W-bit values. -/
theorem compressImage_wrapped (s : State) :
    ∀ v ∈ compressImage s.w s.rows s.cols s.scale (image s), wrap s.w v = v := by
  intro v hv
  obtain ⟨x, hx, rfl⟩ := List.mem_map.mp hv
  apply wrap_quantize
  revert x
  have : ∀ v ∈ hTransform s.w s.rows s.cols (image s), wrap s.w v = v := by
    rw [← allWrapped_iff]
    exact allWrapped_hTransform s.w_pos ((allWrapped_iff _ _).2 fun v hv => wrap_of_mem_image hv)
  exact fun x h _ => this x h

end Sys2Proof.Machine
end

