-- ==== Sys2Proof/Tests/Slice0.lean ====
section
/-! SUPPORT. The model's own tests, and for each statement with hypotheses a state that meets them.
Expected values: 95_test_vectors.md, or hand calculation from the rule named. -/

namespace Sys2Proof.Tests

set_option Elab.async false

open Sys2Proof Sys2Proof.Machine Sys2Proof.Safety

/-! ## Helpers -/

/-- What a run that goes on leaves, seen through `f`; none where it stops. -/
def after {α : Type} (o : Host.Outcome State Fault Refusal) (f : State → α) : Option α :=
  match o with
  | .next t => some (f t)
  | .fault _ => none
  | .refused _ => none

theorem exists_of_after {o : Host.Outcome State Fault Refusal} {f : State → Bool} (h : after o f = some true) :
    ∃ t, o = .next t ∧ f t = true := by
  cases o with
  | next t => exact ⟨t, rfl, by simpa [after] using h⟩
  | fault _ => cases h
  | refused _ => cases h

/-- A small core: W = 32, 64 elements, 64 bytes of OUT, 8 bytes of STAGE. -/
def small : Config.Params := { width := .w32, nmax := 64, outBytes := 64, stageBytes := 8 }

/-- NX, NY, SCALE, CAPACITY. -/
def regs (nx ny scale capacity : Word) : ConfigRegs :=
  { ConfigRegs.reset with nx := nx, ny := ny, scale := scale, capacity := capacity }

/-- NY, CAPACITY and ARG0 to ARG3. -/
def args (ny capacity a0 a1 a2 a3 : Word) : ConfigRegs :=
  { ConfigRegs.reset with ny := ny, capacity := capacity, arg0 := a0, arg1 := a1, arg2 := a2, arg3 := a3 }

/-- A small core that has accepted the word `c`, with an image in COEF, bytes in STAGE, and a writer. -/
def core (c : Word) (cfg : ConfigRegs) (img : List Int) (stage : List Byte) (bw : Writer) : State :=
  { State.powerOn small with
    cfg := cfg, bw := bw
    coef := Memory.writeList [] 0 (img.map (pattern 32)), stage := Memory.writeList [] 0 stage }.holding c

/-- The writer with CAP, CUR, ACC, FREE, BITCOUNT. -/
def writer (cap cur : Word) (acc : Byte) (free : Nibble) (bits : BitVec 64) : Writer :=
  { cap := cap, cur := cur, acc := acc, free := free, bitcount := bits, ovf := false }

/-- COEF as values. -/
def values (t : State) : List Int := t.coef.map fun c => sint t.w c.2

/-- OUT as bytes, of a state whose OUT is listed from index 0 on. -/
def bytes (t : State) : List Byte := t.out.map (·.2)

/-- BW_CURSOR, BW_STATE, BITCOUNT, BW_OVF. -/
def writerRegs (t : State) : Word × Word × BitVec 64 × Bool := (t.bw.cur, t.bw.stateWord, t.bw.bitcount, t.bw.ovf)

/-! ## WellFormed: the one check, and a term it refuses -/

theorem test_wellFormed_refuses_nine_bits : (Instr.bwBits 0x00 9).wellFormed = false := by decide
theorem test_wellFormed_takes_eight_bits : (Instr.bwBits 0xFF 8).wellFormed = true := by decide
theorem test_decoder_refuses_ill_formed_word : decode (encode (.bwBits 0x00 9)) = none := by decide

/-! ## Decoding: every command's word, written out from 30_encoding.md R80 and R83 (95_test_vectors.md section 2.1) -/

theorem test_decode_nop : decode 0x00000000 = some .nop := by decide
theorem test_decode_compress : decode 0x00000001 = some .compress := by decide
theorem test_decode_transform : decode 0x00000002 = some .transform := by decide
theorem test_decode_quantize : decode 0x00000003 = some .quantize := by decide
theorem test_decode_encode : decode 0x00000004 = some .encode := by decide
theorem test_decode_qtEncode : decode 0x00000008 = some .qtEncode := by decide
theorem test_decode_bwReset : decode 0x00000010 = some .bwReset := by decide
theorem test_decode_bwBits : decode 0x00030511 = some (.bwBits 5 3) := by decide
theorem test_decode_bwBits_whole : decode 0x0008FF11 = some (.bwBits 0xFF 8) := by decide
theorem test_decode_bwNibble : decode 0x0000FC12 = some (.bwNibble 0xFC) := by decide
theorem test_decode_bwNibbles : decode 0x00000013 = some .bwNibbles := by decide
theorem test_decode_bwRaw : decode 0x00000014 = some .bwRaw := by decide
theorem test_decode_bwFinish : decode 0x00000015 = some .bwFinish := by decide
theorem test_decode_illegal : [0x00000005, 0x0000000F, 0x00000016, 0x000000FF, 0x00090011, 0x00010C12, 0x00000110,
    0x00100001].all (fun w => decode w == none) = true := by decide +kernel
theorem test_table_words : decodeTableWord 32 0x11 = some (.bwBits 0 0) ∧ decodeTableWord 32 0x12 = some (.bwNibble 0) := by
  decide

/-! ## The bit-stream writer (95_test_vectors.md section 2.2 and program P1) -/

/-- P1: 11 after 1011100. -/
theorem test_bwBits_flushes : after (engineStep (core 0x00020311 (regs 0 0 0 4) [] [] (writer 4 0 0x5C 1 7)))
    (fun t => (bytes t, writerRegs t, t.statusWord)) = some ([0xB9], (1, 0x701, 9, false), 0x2) := by
  decide +kernel

/-- V6: the second byte of a full OUT is dropped. -/
theorem test_bwBits_overflows : after (engineStep (core 0x00085511 (regs 0 0 0 1) [] [] (writer 1 1 0 8 8)))
    (fun t => (bytes t, writerRegs t, t.statusWord)) = some ([], (1, 0x800, 16, true), 0x102) := by
  decide +kernel

/-- P1, with IMM8[7:4] set as in section 2.1. -/
theorem test_bwNibble : after (engineStep (core 0x0000FC12 (regs 0 0 0 4) [] [] (writer 4 0 5 5 3)))
    (fun t => (bytes t, writerRegs t)) = some ([], (0, 0x15C, 7, false)) := by
  decide +kernel

/-- V12. -/
theorem test_bwNibbles : after (engineStep (core 0x00000013 (args 0 4 5 0 0 0) [] [0x0E, 0x0B, 0x07, 0x0D, 0x01]
    (writer 4 0 0 8 0))) (fun t => (bytes t, writerRegs t)) = some ([0xEB, 0x7D], (2, 0x401, 20, false)) := by
  decide +kernel

/-- V7: no partial write. -/
theorem test_bwRaw_refuses : after (engineStep (core 0x00000014 (args 0 2 3 0 0 0) [] [0x12, 0x34, 0x56]
    (writer 2 0 0 8 0))) (fun t => (bytes t, writerRegs t, t.statusWord)) = some ([], (0, 0x800, 0, false), 0x2) := by
  decide +kernel

/-- V8: the raw byte goes before the pending bits. -/
theorem test_bwRaw_keeps_pending_bits : after (engineStep (core 0x00000014 (args 0 4 1 0 0 0) [] [0x11]
    (writer 4 0 5 5 3))) (fun t => (bytes t, writerRegs t, t.statusWord)) = some ([0x11], (1, 0x505, 3, false), 0xA) := by
  decide +kernel

/-- V3b. -/
theorem test_bwFinish : after (engineStep (core 0x00000015 (regs 0 0 0 4) [] [] (writer 4 0 0xB 4 4)))
    (fun t => (bytes t, writerRegs t)) = some ([0xB0], (1, 0x800, 8, false)) := by
  decide +kernel

/-- R121, from a writer that has overflowed. -/
theorem test_bwReset : after (engineStep (core 0x00000010 (regs 0 0 0 64) [] []
    { writer 1 1 3 5 99 with ovf := true })) (fun t => (t.bw.cap, writerRegs t)) = some (64, (0, 0x800, 0, false)) := by
  decide +kernel

/-- V14. -/
theorem test_bwReset_badArg : after (engineStep (core 0x00000010 (regs 0 0 0 65) [] [] (writer 4 1 3 5 99)))
    (fun t => (t.bw.cap, writerRegs t, t.statusWord)) = some (4, (1, 0x503, 99, false), 0x36) := by
  decide +kernel

/-! ## TRANSFORM and QUANTIZE (95_test_vectors.md sections 2.3 and 2.4) -/

theorem test_transform_two_by_three : after (engineStep (core 0x00000002 (regs 2 3 0 0) [7, -3, 0, 2, 5, -1] []
    Writer.reset)) values = some [8, -16, -8, 4, -2, 13] := by decide +kernel

theorem test_transform_three_by_three : after (engineStep (core 0x00000002 (regs 3 3 0 0)
    [5, -3, 0, 12, -7, 1, 0, 2, -9] [] Writer.reset)) values = some [-8, -24, -28, -24, -18, 4, 4, 2, -11] := by
  decide +kernel

theorem test_quantize : after (engineStep (core 0x00000003 (regs 1 6 4 0) [-7, -2, 0, 2, 7, 8] [] Writer.reset))
    values = some [-2, 0, 0, 0, 2, 2] := by decide +kernel

theorem test_quantize_scale_one : after (engineStep (core 0x00000003 (regs 1 2 1 0) [-7, 9] [] Writer.reset))
    values = some [-7, 9] := by
  decide +kernel

/-! ## QT_ENCODE (95_test_vectors.md section 2.5, Q1 and Q2) -/

theorem test_qtEncode : after (engineStep (core 0x00000008 (args 2 16 0 2 2 2) [3, 1, 0, 2] [] (writer 16 0 0 8 0)))
    (fun t => (bytes t, writerRegs t, t.statusWord)) = some ([0xFE, 0x7D], (2, 0x701, 17, false), 0x2) := by
  decide +kernel

theorem test_qtEncode_overflows : after (engineStep (core 0x00000008 (args 2 1 0 2 2 2) [3, 1, 0, 2] []
    (writer 1 0 0 8 0))) (fun t => (bytes t, writerRegs t, t.statusWord)) =
    some ([0xFE], (1, 0x701, 17, true), 0x116) := by decide +kernel

/-! ## ENCODE, COMPRESS, NOP (95_test_vectors.md section 2.6, programs P2 and P4) -/

/-- P4's image. -/
def literalImage : List Int := (List.range 64).map fun e =>
  if e = 0 then 77 else if e = 1 then -1 else if e = 46 then -3
  else if e ∈ [2, 3, 8, 9, 10, 11, 16, 17, 18, 19, 24, 25, 26, 27] then 1 else 0

/-- P4: a literal plane, and sign bits. -/
theorem test_encode_literal_plane : after (engineStep (core 0x00000004 (regs 8 8 1 64) literalImage [] Writer.reset))
    (fun t => (bytes t, t.bytesUsed, t.bw.bitcount, t.nbp.word)) =
    some ([0xDD, 0x99, 0, 0, 0, 8, 0, 0, 0, 8, 0, 0, 0, 1, 0, 0, 0, 0, 0, 0, 0, 0x4D, 1, 0, 2,
      0x07, 0xFF, 0xFF, 0x47, 0xD1, 0x00, 0x80, 0x01], 33, 48, 0x00020001) := by decide +kernel

/-- D1's values as ENCODE gives them: a negative DC, no sign bit for it. -/
theorem test_encode_negative_dc : after (engineStep (core 0x00000004 (regs 1 1 1 27) [-5] [] Writer.reset))
    (fun t => (bytes t, values t, t.statusWord)) =
    some ([0xDD, 0x99, 0, 0, 0, 1, 0, 0, 0, 1, 0, 0, 0, 1, 0xFF, 0xFF, 0xFF, 0xFF, 0xFF, 0xFF, 0xFF, 0xFB, 0, 0, 0, 0],
      [0], 0x2) := by decide +kernel

/-- P2. -/
theorem test_compress : after (engineStep (core 0x00000001 (regs 2 2 1 35) [1, 2, 3, 4] [] Writer.reset))
    (fun t => (bytes t, values t, t.bytesUsed, t.dc)) =
    some ([0xDD, 0x99, 0, 0, 0, 2, 0, 0, 0, 2, 0, 0, 0, 1, 0, 0, 0, 0, 0, 0, 0, 0x0C, 0, 3, 0,
      0xFF, 0xBD, 0xFF, 0xDE, 0xFF, 0xEF, 0xF8, 0x00, 0x00], [0, 2, 4, 0], 34, 12) := by decide +kernel

/-- P2's capacity boundary. -/
theorem test_compress_capacity : after (engineStep (core 0x00000001 (regs 2 2 1 34) [1, 2, 3, 4] [] Writer.reset))
    (fun t => (t.status.err, t.status.cause)) = some (true, .capacity) := by decide +kernel

theorem test_nop : after (engineStep (core 0x00000000 (regs 0 0 0 0) [] [] Writer.reset)) State.statusWord = some 0x2 := by
  decide +kernel

/-- R245. -/
theorem test_illegal : after (engineStep (core 0x00000016 (regs 0 0 0 0) [] [] Writer.reset)) State.statusWord =
    some 0x46 := by
  decide +kernel

/-- R243: 1 × (NMAX + 1). -/
theorem test_alloc : after (engineStep (core 0x00000004 (regs 1 65 1 64) [] [] Writer.reset)) State.statusWord =
    some 0x26 := by
  decide +kernel

/-! ## STATUS while BUSY: BW.OVF shows as it was until completion (10_state.md R22, R43, 40_bitwriter.md R120) -/

/-- A core running a word with BW.OVF set or not. -/
def running (c : Word) (ovf : Bool) : State :=
  core c (regs 1 1 0 0) [] [] { writer 0 0 0 8 8 with ovf := ovf }

/-- Set, while a BW_RESET runs; clear once it has completed ("STATUS.BW_OVF is 0 at completion", R121). -/
theorem test_status_shows_overflow_until_completion :
    after (hostStep (.regRead 0x04) (running 0x00000010 true)) State.replies = some [.reg 0x101] ∧
    after (engineStep (running 0x00000010 true)) State.statusWord = some 0x002 := by decide

/-- "CMD_LOST <- 1" (R42) and the copy of a clear BW.OVF, while a BW_RESET runs. -/
theorem test_status_shows_cmdLost_while_busy : (after (hostStep (.regWrite 0x00 0x00000000) (running 0x00000010 false))
    fun t => after (hostStep (.regRead 0x04) t) State.replies) = some (some [.reg 0x201]) := by decide

/-! ## Canonical memory -/

theorem test_memory_write_sorts : Memory.write [(1, (5 : Byte)), (3, 7)] 2 6 = [(1, 5), (2, 6), (3, 7)] := by decide

/-! ## Witnesses: concrete states and operands that meet the hypotheses of each statement that has some -/

theorem core_inv {c : Word} {cfg : ConfigRegs} {img : List Int} {stage : List Byte} {bw : Writer}
    (hi : img.length ≤ 64) (hs : stage.length ≤ 8) (hb : WriterOk bw) (hc : bw.cap.toNat ≤ 64) :
    Inv (core c cfg img stage bw) where
  params := (by decide : small.Legal)
  memories :=
    { coefWf := Memory.wf_writeList (by simp) _ _
      outWf := by simp [core, State.powerOn, State.holding, State.accept]
      stageWf := Memory.wf_writeList (by simp) _ _
      coefWithin := Memory.within_writeList (n := 64) (by simp) _ (by simpa using hi)
      outWithin := by simp [core, State.powerOn, State.holding, State.accept]
      stageWithin := Memory.within_writeList (n := 8) (by simp) _ (by simpa using hs)
      coefFits := by
        intro x hx
        rcases Memory.mem_writeList hx with hx | hx
        · obtain ⟨v, _, e⟩ := List.mem_map.mp hx
          rw [← e]
          exact pattern_lt (by decide) v
        · cases hx }
  writer := hb
  capIn := hc
  status := ⟨fun _ => ⟨rfl, rfl, rfl, rfl⟩, ⟨fun h => (by cases h), fun h => (h rfl).elim⟩, fun h => (by cases h)⟩

/-- An idle small core. -/
def idle : State := { State.powerOn small with coef := [(0, 5)], out := [(0, 1)], stage := [(0, 2)] }

/-- A small core running NOP, with one more host transaction due first. -/
def waiting : State := { core 0x00000000 (regs 0 0 0 0) [] [] Writer.reset with inbox := [.regRead 0x04], delay := 1 }

/-- A 2×2 image with CAPACITY = OUT_BYTES. -/
def tile (c : Word) : State := core c (regs 2 2 2 64) [1, 2, 3, 4] [] Writer.reset

theorem witness_DecodeAndEncodeAgree :
    (Instr.bwBits 0xFF 8).wellFormed = true ∧ decode 0x0008FF11 = some (.bwBits 0xFF 8) := by decide

theorem witness_IllegalWordsAreThoseOfTheRule :
    idle.seq = .idle ∧ decode (core 0x00000016 (regs 0 0 0 0) [] [] Writer.reset).latch.cmd = none := by decide

theorem witness_StepRunsTheLatchedCommand :
    ((tile 0x00000002).engineTurn = true ∧ decode (tile 0x00000002).latch.cmd = some .transform) ∧
    decode 0x00000015 = some .bwFinish ∧
    (waiting.engineTurn = false ∧ waiting.inbox = [.regRead 0x04]) ∧
    (idle.engineTurn = false ∧ idle.inbox = []) := by decide

theorem witness_CommandWritesAreLatchedOrDropped : idle.seq = .idle ∧ waiting.seq = .busy := by decide

theorem witness_EveryCommandEndsInSuccessOrError :
    (∃ t, engineStep (tile 0x00000003) = .next t ∧ (t.status.cause == .none) = true) ∧
    ∃ t, engineStep (tile 0x00000016) = .next t ∧ (t.status.cause == .illegal) = true :=
  ⟨exists_of_after (by decide +kernel), exists_of_after (by decide +kernel)⟩

/-- Boundary values: NX = 0, NX = −1, CAPACITY = OUT_BYTES + 1, ARG0 = STAGE_BYTES + 1, ARG3 = W + 1, and a block whose
last element is NMAX. -/
theorem witness_BadArgumentsAreRefused :
    badArgument (core 2 (regs 0 1 0 0) [] [] Writer.reset) .transform ∧
    badArgument (core 3 (regs 0xFFFFFFFF 1 0 0) [] [] Writer.reset) .quantize ∧
    badArgument (core 4 (regs 1 1 0 65) [] [] Writer.reset) .encode ∧
    badArgument (core 1 (regs 1 0 0 64) [] [] Writer.reset) .compress ∧
    badArgument (core 0x10 (regs 0 0 0 65) [] [] Writer.reset) .bwReset ∧
    badArgument (core 0x13 (args 0 0 9 0 0 0) [] [] Writer.reset) .bwNibbles ∧
    badArgument (core 0x14 (args 0 0 9 0 0 0) [] [] Writer.reset) .bwRaw ∧
    badArgument (core 8 (args 1 0 0 1 1 33) [] [] Writer.reset) .qtEncode ∧
    badArgument (core 8 (args 2 0 61 2 2 1) [] [] Writer.reset) .qtEncode ∧
    ∃ t, exec .encode (core 4 (regs 1 1 0 65) [] [] Writer.reset) = .next t ∧ (t.status.cause == .badArg) = true := by
  refine ⟨.inl (by decide), .inl (by decide), .inr (by decide), .inl (.inr (by decide)), ?_, ?_, ?_, .inr (.inl (by decide)),
    .inr (.inr ⟨by decide, by decide, by decide⟩), exists_of_after (by decide +kernel)⟩
  · show 64 < 65; decide
  · show 8 < 9; decide
  · show 8 < 9; decide

/-- 1 × (NMAX + 1), and overlapping rows whose last element is NMAX − 1. -/
theorem witness_AllocIsTheSizeCheck :
    (¬ badArgument (core 2 (regs 1 65 0 0) [] [] Writer.reset) .transform ∧
      oversized (core 2 (regs 1 65 0 0) [] [] Writer.reset) .transform) ∧
    (¬ badArgument (core 4 (regs 1 65 0 64) [] [] Writer.reset) .encode ∧
      oversized (core 4 (regs 1 65 0 64) [] [] Writer.reset) .encode) ∧
    (¬ badArgument (core 8 (args 1 0 0 33 32 1) [] [] Writer.reset) .qtEncode ∧
      oversized (core 8 (args 1 0 0 33 32 1) [] [] Writer.reset) .qtEncode) ∧
    ∃ t, exec .quantize (core 3 (regs 1 65 0 0) [] [] Writer.reset) = .next t ∧ (t.status.cause == .alloc) = true := by
  refine ⟨⟨?_, ?_⟩, ⟨?_, ?_⟩, ⟨?_, ?_⟩, exists_of_after (by decide +kernel)⟩ <;> simp only [badArgument, oversized] <;>
    decide +kernel

/-- L = 34: CAPACITY = 34 fails, 35 succeeds. -/
theorem witness_CapacityErrorsAreTheLengthTest :
    (¬ badArgument (tile 1) .encode ∧ ¬ oversized (tile 1) .encode) ∧
    (∃ t, exec .encode (core 4 (regs 1 1 1 26) [-5] [] Writer.reset) = .next t ∧ (t.status.cause == .capacity) = true) ∧
    (∃ t, exec .compress (core 1 (regs 2 2 1 34) [1, 2, 3, 4] [] Writer.reset) = .next t ∧
      (t.status.cause == .capacity) = true) ∧
    (∃ t, exec .compress (core 1 (regs 2 2 1 35) [1, 2, 3, 4] [] Writer.reset) = .next t ∧
      (t.status.cause == .none) = true) ∧
    (¬ badArgument (core 8 (args 2 1 0 2 2 2) [3, 1, 0, 2] [] (writer 1 0 0 8 0)) .qtEncode ∧
      ¬ oversized (core 8 (args 2 1 0 2 2 2) [3, 1, 0, 2] [] (writer 1 0 0 8 0)) .qtEncode) ∧
    (∃ t, exec .qtEncode (core 8 (args 2 1 0 2 2 2) [3, 1, 0, 2] [] (writer 1 0 0 8 0)) = .next t ∧ t.bw.ovf = true) ∧
    ∃ t, exec (.bwBits 0x55 8) (core 0x00085511 (regs 0 0 0 1) [] [] (writer 1 1 0 8 8)) = .next t ∧ t.bw.ovf = true := by
  refine ⟨⟨?_, ?_⟩, exists_of_after (by decide +kernel), exists_of_after (by decide +kernel),
    exists_of_after (by decide +kernel), ⟨?_, ?_⟩, exists_of_after (by decide +kernel),
    exists_of_after (by decide +kernel)⟩ <;> simp only [badArgument, oversized] <;> decide +kernel

/-- BUSY with a set flag under a command that clears it, and a host transaction it takes. -/
theorem witness_StatusWordFields :
    ((running 0x00000010 true).seq = .busy ∧ (running 0x00000010 true).bw.ovf = true) ∧
    (∃ t, hostStep (.regRead 0x04) (running 0x00000010 true) = .next t ∧ t.busy = true) ∧ Txn.regRead 0x04 ≠ .reset :=
  ⟨by decide, exists_of_after (by decide), by decide⟩

/-- The first index outside each space, the last one inside, and the two kinds of bad offset. -/
theorem witness_HostDutyViolationsFault :
    idle.params.nmax.toNat ≤ 64 ∧ idle.params.outBytes.toNat ≤ 64 ∧ idle.params.stageBytes.toNat ≤ 8 ∧
    waiting.seq = .busy ∧ 63 < waiting.params.nmax.toNat ∧ 63 < waiting.params.outBytes.toNat ∧
    7 < waiting.params.stageBytes.toNat ∧ 0x05 % 4 ≠ 0 ∧ 0x100 ≤ 0x100 := by decide

theorem witness_ReservedAndBadOffsets :
    (0x5C % 4 = 0 ∧ 0x5C ≤ 0x5C ∧ 0x5C < 0x100) ∧ (0xFC % 4 = 0 ∧ 0x5C ≤ 0xFC ∧ 0xFC < 0x100) ∧
    (0x5D % 4 ≠ 0 ∧ 0x100 ≤ 0x100) := by decide

theorem witness_RegisterWritesReadBackOrAreIgnored :
    0x24 ∈ [0x08, 0x0C, 0x10, 0x14, 0x18, 0x1C, 0x20, 0x24] ∧ regAt 0x24 ≠ some .arg2 ∧
    0x58 ∈ [0x04, 0x28, 0x2C, 0x30, 0x34, 0x38, 0x3C, 0x40, 0x44, 0x48, 0x4C, 0x50, 0x54, 0x58] := by decide

theorem witness_ParameterRegistersAreConstant :
    0x4C ∈ [0x4C, 0x50, 0x54, 0x58] ∧ ∃ t, step waiting = .next t ∧ t.busy = true :=
  ⟨by decide, exists_of_after (by decide +kernel)⟩

theorem witness_HostMemoryWritesReadBack :
    idle.seq = .idle ∧ 63 < idle.params.nmax.toNat ∧ 63 < idle.params.outBytes.toNat ∧
    7 < idle.params.stageBytes.toNat := by decide

theorem witness_ReadsHaveNoSideEffect :
    (∃ t, hostStep (.regRead 0x04) waiting = .next t ∧ t.busy = true) ∧
    (∃ t, hostStep (.coefRead 63) waiting = .next t ∧ t.busy = true) ∧
    (∃ t, hostStep (.outRead 0) idle = .next t ∧ (!t.busy) = true) ∧
    (∃ t, hostStep (.stageRead 0) idle = .next t ∧ (!t.busy) = true) ∧
    idle.seq = .idle ∧ 0 < idle.params.nmax.toNat ∧ Memory.read idle.coef 0 = some 5 ∧
    0 < idle.params.outBytes.toNat ∧ Memory.read idle.out 0 = some 1 ∧
    0 < idle.params.stageBytes.toNat ∧ Memory.read idle.stage 0 = some 2 :=
  ⟨exists_of_after (f := State.busy) (by decide +kernel), exists_of_after (f := State.busy) (by decide +kernel),
    exists_of_after (by decide +kernel), exists_of_after (by decide +kernel), by decide⟩

theorem witness_CompletionComesNearer :
    (waiting.seq = .busy ∧ waiting.engineTurn = false ∧ ∃ t, step waiting = .next t ∧ t.busy = true) ∧
    (waiting.issue []).seq = .busy ∧ (waiting.issue []).delay = 0 :=
  ⟨⟨by decide, by decide, exists_of_after (by decide +kernel)⟩, by decide, by decide⟩

theorem witness_ResetLeavesTheRulesValues :
    (∃ t, hostStep .reset waiting = .next t ∧ (!t.busy) = true) ∧ idle.seq = .idle :=
  ⟨exists_of_after (by decide +kernel), by decide⟩

theorem witness_ResetWhileBusyTouchesOnlyTheCommandsMemory :
    ((tile 0x00000002).seq = .busy ∧ (∃ t, hostStep .reset (tile 0x00000002) = .next t ∧ (!t.busy) = true)) ∧
    decode (tile 0x00000002).latch.cmd = some .transform ∧ decode (tile 0x00000001).latch.cmd = some .compress ∧
    decode (tile 0x00000008).latch.cmd = some .qtEncode ∧ decode (tile 0x00000000).latch.cmd = some .nop ∧
    decode (tile 0x00000010).latch.cmd = some .bwReset ∧ decode (tile 0x00000016).latch.cmd = none :=
  ⟨⟨by decide, exists_of_after (by decide +kernel)⟩, by decide⟩

theorem witness_InvariantHoldsAtPowerOn :
    Config.Params.Legal { width := .w64, nmax := 0x7FFFFFFF, outBytes := 0xFFFFFFFF, stageBytes := 1 } ∧
    Config.Params.Legal { width := .w32, nmax := 1, outBytes := 1, stageBytes := 0xFFFFFFFF } := by decide

theorem witness_EveryStepKeepsTheInvariant :
    Inv (tile 0x00000003) ∧ ∃ t, step (tile 0x00000003) = .next t ∧ (!t.busy) = true :=
  ⟨core_inv (by decide) (by decide) ⟨by decide, by decide, by decide, by decide⟩ (by decide),
    exists_of_after (by decide +kernel)⟩

theorem witness_CommandsLeaveTheHostsStateAlone :
    ∃ t, engineStep (tile 0x00000002) = .next t ∧ (t.status.cause == .none) = true :=
  exists_of_after (by decide +kernel)

theorem witness_NoStorePastTheCapacity :
    Inv (tile 0x00000001) ∧ ∃ t, engineStep (tile 0x00000001) = .next t ∧ decide (t.bw.cap.toNat ≤ 64) = true :=
  ⟨core_inv (by decide) (by decide) ⟨by decide, by decide, by decide, by decide⟩ (by decide),
    exists_of_after (by decide +kernel)⟩

theorem witness_EmitAndPutBitsFollowTheirRules :
    (writer 1 0 0 8 0).cur.toNat < (writer 1 0 0 8 0).cap.toNat ∧
    (writer 1 1 0 8 0).cap.toNat ≤ (writer 1 1 0 8 0).cur.toNat ∧ WriterOk (writer 1 1 0x7F 1 7) :=
  ⟨by decide, by decide, ⟨by decide, by decide, by decide, by decide⟩⟩

theorem witness_BwResetStartsAFreshStream :
    (core 0x10 (regs 0 0 0 64) [] [] Writer.reset).latch.cfg.capacity.toNat ≤
      (core 0x10 (regs 0 0 0 64) [] [] Writer.reset).params.outBytes.toNat ∧
    (core 0x10 (regs 0 0 0 65) [] [] Writer.reset).params.outBytes.toNat <
      (core 0x10 (regs 0 0 0 65) [] [] Writer.reset).latch.cfg.capacity.toNat := by decide

theorem witness_BitPathCommandsComplete :
    (8 : Nibble).toNat ≤ 8 ∧ 8 < (9 : Nibble).toNat ∧
    ¬ badArgument (core 0x13 (args 0 4 8 0 0 0) [] [1, 2, 3, 4, 5, 6, 7, 8] Writer.reset) .bwNibbles ∧
    stageWritten (core 0x13 (args 0 4 8 0 0 0) [] [1, 2, 3, 4, 5, 6, 7, 8] Writer.reset) 8 := by
  refine ⟨by decide, by decide, ?_, by decide⟩
  show ¬ 8 < 8; decide

theorem witness_FinishFlushesLeftJustified :
    (WriterOk (writer 1 1 0 8 8) ∧ (writer 1 1 0 8 8).free.toNat = 8) ∧
    (WriterOk (writer 1 0 0x7F 1 7) ∧ (writer 1 0 0x7F 1 7).free.toNat < 8) :=
  ⟨⟨⟨by decide, by decide, by decide, by decide⟩, by decide⟩, ⟨by decide, by decide, by decide, by decide⟩, by decide⟩

theorem witness_NibblesEqualSingleNibbles :
    ¬ badArgument (core 0x13 (args 0 4 1 0 0 0) [] [0x0E] Writer.reset) .bwNibbles ∧
    stageWritten (core 0x13 (args 0 4 1 0 0 0) [] [0x0E] Writer.reset) 1 ∧
    1 ≤ (core 0x13 (args 0 4 1 0 0 0) [] [0x0E] Writer.reset).latch.cfg.arg0.toNat := by
  refine ⟨?_, by decide, by decide⟩
  show ¬ 8 < 1; decide

/-- ARG0 = STAGE_BYTES + 1 is BADARG; ARG0 = CAP − CUR fits, one more does not. -/
theorem witness_RawBytesAllOrNothing :
    (core 0x14 (args 0 2 9 0 0 0) [] [] (writer 2 1 0 8 0)).params.stageBytes.toNat < 9 ∧
    (2 ≤ (core 0x14 (args 0 2 2 0 0 0) [] [0x12, 0x34] (writer 2 1 0 8 0)).params.stageBytes.toNat ∧ 2 < 1 + 2) ∧
    (1 ≤ (core 0x14 (args 0 2 1 0 0 0) [] [0x12, 0x34] (writer 2 1 0 8 0)).params.stageBytes.toNat ∧ 1 + 1 ≤ 2 ∧
      stageWritten (core 0x14 (args 0 2 1 0 0 0) [] [0x12, 0x34] (writer 2 1 0 8 0)) 1) := by decide

theorem witness_BitPathFrame :
    (∃ t, exec (.bwBits 3 2) (core 0x00020311 (regs 0 0 0 4) [] [] (writer 4 0 0x5C 1 7)) = .next t ∧
      (t.bw.cur == 1) = true) ∧
    (∃ t, exec .bwRaw (core 0x14 (args 0 4 1 0 0 0) [] [0x11] (writer 4 0 5 5 3)) = .next t ∧ (t.bw.cur == 1) = true) ∧
    (∃ t, exec .qtEncode (core 8 (args 2 16 0 2 2 2) [3, 1, 0, 2] [] (writer 16 0 0 8 0)) = .next t ∧
      (t.bw.cur == 2) = true) ∧
    (writer 16 0 0 8 0).cur.toNat ≤ (writer 16 0 0 8 0).cap.toNat :=
  ⟨exists_of_after (by decide +kernel), exists_of_after (by decide +kernel), exists_of_after (by decide +kernel), by decide⟩

/-- V5 with room, and V10 without. -/
theorem witness_WriterHoldsItsBitString :
    ([WriterOp.put 1 1, .finish].all WriterOp.legal = true) ∧
    (runOps ⟨Writer.fresh 4, []⟩ [.put 1 1, .finish]).1.bw.ovf = false ∧
    (runOps ⟨Writer.fresh 0, []⟩ [.put 1 1, .finish]).1.bw.ovf = true := by decide +kernel

theorem witness_RoundingFollowsTheMasks : 0 < 32 := by decide

/-- The 2×2 block of a 3×3 image, its trailing column, row and corner, and an element outside. -/
theorem witness_FullBlockOutputs :
    2 ≤ 3 ∧ 3 * 3 ≤ ([1, 2, 3, 4, 5, 6, 7, 8, 9] : List Int).length ∧ 0 % 2 = 0 ∧ 0 < 3 - 3 % 2 := by decide

theorem witness_OneSidedBlockOutputs :
    3 ≤ 3 ∧ 3 * 3 ≤ ([1, 2, 3, 4, 5, 6, 7, 8, 9] : List Int).length ∧ 1 ≤ 3 ∧ 3 % 2 = 1 ∧ 0 % 2 = 0 ∧ 0 < 3 - 3 % 2 ∧
    3 ≤ 9 / 3 := by decide

theorem witness_ShufflePutsEvensFirst : 3 ≤ 3 ∧ 3 * 3 ≤ ([1, 2, 3, 4, 5, 6, 7, 8, 9] : List Int).length ∧ 2 < 3 := by
  decide

theorem witness_TransformRunsItsIterations : 1 ≤ 1 ∧ 1 ≤ 3 := by decide

theorem witness_LevelsReachASingleElement : 1 ≤ 1 ∧ 1 ≤ 65 := by decide

theorem witness_TransformCompletes :
    ¬ badArgument (tile 2) .transform ∧ ¬ oversized (tile 2) .transform ∧ imageWritten (tile 2) := by
  refine ⟨?_, ?_, by decide⟩ <;> simp only [badArgument, oversized] <;> decide

theorem witness_TransformOfTwoByTwo :
    (tile 2).latch.cfg.nx = 2 ∧ (tile 2).latch.cfg.ny = 2 ∧ 4 ≤ (tile 2).params.nmax.toNat ∧ imageWritten (tile 2) := by
  decide

theorem witness_QuantizeFollowsTheFormula : (1 : Int) ≤ 1 ∧ (2 : Int) ≤ 2 ∧ (0 : Int) < 1 ∧ (0 : Int) ≤ 0 := by decide

/-- x = −2 and the largest x whose biased value fits, s = 4: d = 1. -/
theorem witness_QuantizeErrorBound :
    0 < 32 ∧ (2 : Int) ≤ 4 ∧ ((-2 : Int) - 1 < 2 ^ 31 ∧ -(2 ^ 31 : Int) ≤ -2 - 1) ∧
    (0 < (2 ^ 31 - 2 : Int) ∧ (2 ^ 31 - 2 : Int) + 1 < 2 ^ 31 ∧ -(2 ^ 31 : Int) ≤ 2 ^ 31 - 2 + 1) := by decide

/-- NX = 0; a 65 × 1 image in a COEF of 64; the 2×2 image. -/
theorem witness_QuantizeCompletes :
    badGeometry (core 3 (regs 0 1 2 0) [] [] Writer.reset) ∧
    (¬ badGeometry (core 3 (regs 65 1 2 0) [] [] Writer.reset) ∧
      oversized (core 3 (regs 65 1 2 0) [] [] Writer.reset) .quantize) ∧
    ¬ badGeometry (tile 3) ∧ ¬ oversized (tile 3) .quantize ∧ imageWritten (tile 3) := by
  refine ⟨by decide, ⟨by decide, ?_⟩, by decide, ?_, by decide⟩ <;> simp only [oversized] <;> decide

/-- The sign bit of a negative element; a grid and a reduced grid with codes. -/
theorem witness_GridCodesFollowTheirMembers :
    (Memory.read (core 8 (args 2 16 0 1 1 1) [-3] [] Writer.reset).coef 0 = some 0xFFFFFFFD ∧
      (0xFFFFFFFD : Elem).toNat < 2 ^ (core 8 (args 2 16 0 1 1 1) [-3] [] Writer.reset).w ∧
      31 < (core 8 (args 2 16 0 1 1 1) [-3] [] Writer.reset).w) ∧
    0 < (finestGrid 32 3 1 (fun _ _ => 1) 0).rows ∧ 0 < (finestGrid 32 3 1 (fun _ _ => 1) 0).cols ∧
    0 < (finestGrid 32 3 1 (fun _ _ => 1) 0).reduce.rows := by decide

/-- 1 × 5: three grids, the last but one with a reduction after it. -/
theorem witness_LastGridIsTheApex : 1 ≤ 1 ∧ 1 ≤ 5 ∧ 1 + 1 < (planeGrids 32 1 5 (fun _ _ => 1) 0).length := by decide

/-- Q8's plane takes the literal path, Q9's the quadtree path; a plane of zeros. -/
theorem witness_PlanePathFollowsTheBudget :
    max 2 1 ≤ packedSize (codeList (planeGrids 32 4 4 (fun i j => if i = 0 ∧ j = 0 then 0 else 1) 0)) / 8 ∧
    packedSize (codeList (planeGrids 32 4 4 (fun i j => if i = 1 ∧ j = 2 then 1 else 0) 0)) / 8 < max 2 1 ∧
    ∀ i < 4, ∀ j < 4, bitOf 32 ((fun _ _ => 2 : Nat → Nat → Int) i j) 0 = false := by decide +kernel

theorem witness_QtEncodeCompletes :
    ¬ badArgument (core 8 (args 2 16 60 2 2 2) (List.replicate 64 3) [] (writer 16 0 0 8 0)) .qtEncode ∧
    ¬ oversized (core 8 (args 2 16 60 2 2 2) (List.replicate 64 3) [] (writer 16 0 0 8 0)) .qtEncode ∧
    ∀ i < 2, ∀ j < 2, (Memory.read (core 8 (args 2 16 60 2 2 2) (List.replicate 64 3) [] (writer 16 0 0 8 0)).coef
      (60 + i * 2 + j)).isSome := by
  refine ⟨?_, ?_, by decide +kernel⟩ <;> simp only [badArgument, oversized] <;> decide +kernel

theorem witness_NopOnlyCompletes :
    idle.seq = .idle ∧ idle.bw.ovf = false ∧
    ∃ t, hostStep (.regWrite 0x00 0x00000000) idle = .next t ∧ (after (engineStep t) State.busy == some false) = true :=
  ⟨by decide, by decide, exists_of_after (by decide +kernel)⟩

theorem witness_EncodeAndCompressSucceed :
    ¬ badArgument (core 4 (regs 2 2 1 64) [1, 2, 3, 4] [] Writer.reset) .encode ∧
    ¬ oversized (core 4 (regs 2 2 1 64) [1, 2, 3, 4] [] Writer.reset) .encode ∧
    imageWritten (core 4 (regs 2 2 1 64) [1, 2, 3, 4] [] Writer.reset) ∧
    streamLength (core 4 (regs 2 2 1 64) [1, 2, 3, 4] [] Writer.reset) [1, 2, 3, 4] < 64 ∧
    streamLength (core 1 (regs 2 2 1 35) [1, 2, 3, 4] [] Writer.reset) (compressImage 32 2 2 1 [1, 2, 3, 4]) < 35 ∧
    Inv (core 4 (regs 2 2 1 64) [1, 2, 3, 4] [] Writer.reset) ∧
    (core 4 (regs 2 2 1 64) [1, 2, 3, 4] [] Writer.reset).seq = .busy := by
  refine ⟨?_, ?_, by decide, by decide +kernel, by decide +kernel,
    core_inv (by decide) (by decide) ⟨by decide, by decide, by decide, by decide⟩ (by decide), rfl⟩ <;>
  simp only [badArgument, oversized] <;> decide +kernel

theorem witness_CapacityFailureState :
    ¬ badArgument (core 1 (regs 2 2 1 34) [1, 2, 3, 4] [] Writer.reset) .encode ∧
    ¬ oversized (core 1 (regs 2 2 1 34) [1, 2, 3, 4] [] Writer.reset) .encode ∧
    imageWritten (core 1 (regs 2 2 1 34) [1, 2, 3, 4] [] Writer.reset) ∧
    26 ≤ streamLength (core 4 (regs 1 1 1 26) [-5] [] Writer.reset) [-5] ∧
    34 ≤ streamLength (core 1 (regs 2 2 1 34) [1, 2, 3, 4] [] Writer.reset) (compressImage 32 2 2 1 [1, 2, 3, 4]) := by
  refine ⟨?_, ?_, by decide, by decide +kernel, by decide +kernel⟩ <;> simp only [badArgument, oversized] <;> decide +kernel

/-- P3's first row: three commands in turn, each successful. -/
theorem witness_CompressIsThePipeline :
    Inv (tile 2) ∧ ∃ a b t, exec .transform (tile 2) = .next a ∧ a.status.err = false ∧
      exec .quantize a = .next b ∧ b.status.err = false ∧ exec .encode b = .next t ∧ t.status.err = false := by
  refine ⟨core_inv (by decide) (by decide) ⟨by decide, by decide, by decide, by decide⟩ (by decide), ?_⟩
  obtain ⟨a, ha, ha'⟩ := exists_of_after (o := exec .transform (tile 2)) (f := fun a => !a.status.err &&
    (after (exec .quantize a) fun b => !b.status.err &&
      (after (exec .encode b) fun t => !t.status.err) == some true) == some true) (by decide +kernel)
  simp only [Bool.and_eq_true, beq_iff_eq, Bool.not_eq_true'] at ha'
  obtain ⟨b, hb, hb'⟩ := exists_of_after ha'.2
  simp only [Bool.and_eq_true, beq_iff_eq, Bool.not_eq_true'] at hb'
  obtain ⟨t, ht, ht'⟩ := exists_of_after hb'.2
  exact ⟨a, b, t, ha, ha'.1, hb, hb'.1, ht, by simpa using ht'⟩

/-- Two plane bytes and one sign byte, their last indices and the last sign bit. -/
theorem witness_StreamLayout :
    ((chunkBits (planeStreamChunks 32 2 2 (magnitudes 32 [5, -3, 0, 1]))).length + 7) / 8 > 1 ∧
    (((([5, -3, 0, 1] : List Int).set 0 0).filter (· != 0)).length + 7) / 8 = 1 ∧ 0 < 1 ∧ 7 < 8 := by decide +kernel

theorem witness_PlaneBytesAreTheWritersOwn : (planeBytes 32 2 2 [0, 2, 4, 0]).length ≤ (8 : Word).toNat := by decide +kernel

theorem witness_SignsAreStrippedInOrder : 1 ≤ 1 ∧ 1 < ([5, -3] : List Int).length := by decide

theorem witness_StreamsHaveAtLeast26Bytes :
    (core 4 (regs 1 1 1 26) [-5] [] Writer.reset).latch.cfg.capacity.toNat ≤ 26 ∧
    ∃ t, exec .encode (core 4 (regs 1 1 1 26) [-5] [] Writer.reset) = .next t ∧ t.status.err = true :=
  ⟨by decide, exists_of_after (by decide +kernel)⟩

/-- Two cores with the same image and registers and different STAGE, OUT and writer. -/
theorem witness_EncodingIsDeterministic :
    let s := core 1 (regs 2 2 1 35) [1, 2, 3, 4] [] Writer.reset
    let t := core 1 (regs 2 2 1 35) [1, 2, 3, 4] [9] (writer 7 1 0 8 8)
    s.params = t.params ∧ s.latch.cfg = t.latch.cfg ∧ s.coef = t.coef ∧
    (∃ a, exec .compress s = .next a ∧ (!a.status.err) = true) ∧ ∃ b, exec .compress t = .next b ∧ (!b.status.err) = true :=
  ⟨by decide, by decide, by decide, exists_of_after (by decide +kernel), exists_of_after (by decide +kernel)⟩

end Sys2Proof.Tests
end

section
/-! SUPPORT. The register file as the Host reaches it (10_state.md R20, R39): which offset names which register, what a
RegRead and a RegWrite of a register do, and what leaves the parameters alone. -/

namespace Sys2Proof.Machine

open Sys2Proof (Word)

/-! ## Offsets -/

theorem regAt_of_reserved {off : Nat} (h4 : off % 4 = 0) (hlo : 0x5C ≤ off) (hhi : off < 0x100) :
    regAt off = some .reserved := by
  have hpast : registerMap.length ≤ off / 4 := by
    rw [show registerMap.length = 23 from rfl]
    omega
  rw [regAt, if_pos ⟨h4, hhi⟩, List.getD_eq_default _ _ hpast]

theorem regAt_of_bad {off : Nat} (h : off % 4 ≠ 0 ∨ 0x100 ≤ off) : regAt off = none :=
  if_neg (by omega)

/-! ## A register transaction at an offset -/

theorem hostStep_regRead_of_regAt {off : Nat} {r : Reg} (s : State) (h : regAt off = some r) :
    hostStep (.regRead off) s = .next (s.readReg r) := by
  simp only [hostStep, hostRegRead, h]

theorem hostStep_regRead_of_regAt_none {off : Nat} (s : State) (h : regAt off = none) :
    hostStep (.regRead off) s = .fault .regOffset := by
  simp only [hostStep, hostRegRead, h]

theorem hostStep_regWrite_of_regAt {off : Nat} {r : Reg} (s : State) (v : Word) (h : regAt off = some r) :
    hostStep (.regWrite off v) s = .next (s.writeReg r v) := by
  simp only [hostStep, hostRegWrite, h]

theorem hostStep_regWrite_of_regAt_none {off : Nat} (s : State) (v : Word) (h : regAt off = none) :
    hostStep (.regWrite off v) s = .fault .regOffset := by
  simp only [hostStep, hostRegWrite, h]

/-- A RegRead of any but a result register replies the register's value, idle or BUSY, and changes nothing else. -/
theorem hostStep_regRead_of_not_result {off : Nat} {r : Reg} (s : State) (h : regAt off = some r)
    (hr : r.isResult = false) :
    hostStep (.regRead off) s = .next { s with replies := .reg (s.regValue r) :: s.replies } := by
  rw [hostStep_regRead_of_regAt s h, s.readReg_of_not_result hr, State.reply]

/-- A RegWrite of a register that is neither CMD nor a configuration register is ignored. -/
theorem hostStep_regWrite_of_ignored {off : Nat} {r : Reg} (s : State) (v : Word) (h : regAt off = some r)
    (hcmd : r ≠ .cmd) (hcfg : s.cfg.write r v = s.cfg) : hostStep (.regWrite off v) s = .next s := by
  rw [hostStep_regWrite_of_regAt s v h, State.writeReg, if_neg hcmd, hcfg]

/-! ## A write of CMD -/

theorem hostStep_regWrite_cmd (s : State) (c : Word) : hostStep (.regWrite 0x00 c) s = .next (s.writeCmd c) := by
  rw [hostStep_regWrite_of_regAt s c (r := .cmd) (by decide), State.writeReg, if_pos rfl]

theorem State.writeCmd_of_idle {s : State} (h : s.seq = .idle) (c : Word) :
    s.writeCmd c = { (s.accept c).drew 1 with delay := Config.latency s.draws } := by
  simp [State.writeCmd, s.not_busy_iff.mpr h]

theorem State.writeCmd_of_busy {s : State} (h : s.seq = .busy) (c : Word) :
    s.writeCmd c = { s with status := { s.status with cmdLost := true } } :=
  if_pos (s.busy_iff.mpr h)

/-! ## The parameters are constant (10_state.md R35 to R38) -/

theorem State.w_eq_32_or_64 (s : State) : s.w = 32 ∨ s.w = 64 := by
  unfold State.w
  cases s.params.width with
  | w32 => exact .inl rfl
  | w64 => exact .inr rfl

@[simp] theorem State.resetTxn_params (s : State) : s.resetTxn.params = s.params := by
  unfold State.resetTxn
  split <;> rfl

theorem HostEffect.params_eq {s t : State} (h : HostEffect s t) : t.params = s.params := by
  cases h with
  | reset => exact s.resetTxn_params
  | _ => rfl

theorem Effect.params_eq {s t : State} (h : Effect s t) : t.params = s.params := by
  cases h <;> simp

theorem step_params_eq {s t : State} (h : step s = .next t) : t.params = s.params := by
  obtain ⟨-, he⟩ | ⟨x, rest, -, -, hx⟩ | ⟨-, -, rfl⟩ := step_cases h
  · exact (engineStep_effect he).params_eq
  · exact (hostStep_effect hx).params_eq
  · rfl

end Sys2Proof.Machine
end

section
/-! PROOFS. The statements about CMD, the reserved offsets and the parameter registers (10_state.md). -/

namespace Sys2Proof.Proofs

open Sys2Proof Sys2Proof.Machine

/-- Settles O5: an idle core's CMD write is `State.accept` with a latency drawn; a BUSY core's only sets CMD_LOST. -/
theorem commandWritesAreLatchedOrDropped : Obligations.CommandWritesAreLatchedOrDropped := by
  unfold Obligations.CommandWritesAreLatchedOrDropped
  refine ⟨fun s c hidle => ?_, fun s c hbusy => ?_⟩
  · refine ⟨{ (s.accept c).drew 1 with delay := Config.latency s.draws }, ?_, ?_⟩
    · rw [hostStep_regWrite_cmd, State.writeCmd_of_idle hidle]
    · and_intros <;> rfl
  · rw [hostStep_regWrite_cmd, State.writeCmd_of_busy hbusy]

/-- Settles O12: the register map ends before 0x5C, so an aligned offset past it names the reserved slot, and a bad
offset names none. -/
theorem reservedAndBadOffsets : Obligations.ReservedAndBadOffsets := by
  unfold Obligations.ReservedAndBadOffsets
  refine fun s off v => ⟨fun h4 hlo hhi => ?_, fun hbad => ?_⟩
  · have hr : regAt off = some .reserved := regAt_of_reserved h4 hlo hhi
    exact ⟨hostStep_regRead_of_not_result s hr rfl, hostStep_regWrite_of_ignored s v hr (by decide) rfl⟩
  · have hr : regAt off = none := regAt_of_bad hbad
    exact ⟨hostStep_regRead_of_regAt_none s hr, hostStep_regWrite_of_regAt_none s v hr⟩

/-- Settles O14: none of the four is a result register or a writable one, and every effect of the Engine and of the Host
keeps the parameters. -/
theorem parameterRegistersAreConstant : Obligations.ParameterRegistersAreConstant := by
  unfold Obligations.ParameterRegistersAreConstant
  intro s
  have hconfig : regAt 0x4C = some .config := by decide
  have hnmax : regAt 0x50 = some .nmaxReg := by decide
  have hout : regAt 0x54 = some .outBytesReg := by decide
  have hstage : regAt 0x58 = some .stageBytesReg := by decide
  refine ⟨s.w_eq_32_or_64, hostStep_regRead_of_not_result s hconfig rfl, hostStep_regRead_of_not_result s hnmax rfl,
    hostStep_regRead_of_not_result s hout rfl, hostStep_regRead_of_not_result s hstage rfl, fun off v hoff => ?_,
    fun t => step_params_eq⟩
  simp only [List.mem_cons, List.not_mem_nil, or_false] at hoff
  rcases hoff with rfl | rfl | rfl | rfl
  · exact hostStep_regWrite_of_ignored s v hconfig (by decide) rfl
  · exact hostStep_regWrite_of_ignored s v hnmax (by decide) rfl
  · exact hostStep_regWrite_of_ignored s v hout (by decide) rfl
  · exact hostStep_regWrite_of_ignored s v hstage (by decide) rfl

end Sys2Proof.Proofs
end

section
/-! SUPPORT. Which words the decoder refuses (30_encoding.md R84): one lemma per branch of `decode`, then the rule in the
fields of the word. -/

namespace Sys2Proof

/-- The opcodes of the commands that use neither IMM8 nor N, written out from 30_encoding.md R83. -/
def plainOpcodes : List Nat := [0x00, 0x01, 0x02, 0x03, 0x04, 0x08, 0x10, 0x13, 0x14, 0x15]

theorem plainCommands_map_opcode : plainCommands.map (fun i => (opcode i).toNat) = plainOpcodes := by decide

theorem find_plain_eq_none_iff (op : Byte) :
    plainCommands.find? (fun i => opcode i == op) = none ↔ op.toNat ∉ plainOpcodes := by
  rw [← plainCommands_map_opcode]
  simp only [List.find?_eq_none, List.mem_map, beq_iff_eq, BitVec.toNat_inj, not_exists, not_and]

theorem decode_of_rsv_ne_zero {w : Word} (h : rsvField w ≠ 0) : decode w = none := if_pos h

theorem decode_bwBits_eq_none_iff {w : Word} (hr : rsvField w = 0) (ho : opField w = 0x11) :
    decode w = none ↔ 8 < (nField w).toNat := by
  simp [decode, hr, ho]

theorem decode_bwNibble_eq_none_iff {w : Word} (hr : rsvField w = 0) (ho : opField w = 0x12) :
    decode w = none ↔ nField w ≠ 0 := by
  simp [decode, hr, ho]

theorem decode_plain_eq_none_iff {w : Word} (hr : rsvField w = 0) (h11 : opField w ≠ 0x11) (h12 : opField w ≠ 0x12) :
    decode w = none ↔ (imm8Field w ≠ 0 ∨ nField w ≠ 0) ∨ (opField w).toNat ∉ plainOpcodes := by
  rw [decode, if_neg (not_not.mpr hr), if_neg h11, if_neg h12, ite_eq_right_iff, find_plain_eq_none_iff,
    imp_iff_not_or, not_and_or]

/-- RSV nonzero is illegal whatever OP is; with RSV = 0, OP decides which of IMM8 and N may be nonzero. -/
theorem decode_eq_none_iff (w : Word) :
    decode w = none ↔ rsvField w ≠ 0 ∨ (opField w = 0x11 ∧ 8 < (nField w).toNat) ∨
      (opField w = 0x12 ∧ nField w ≠ 0) ∨
      ((opField w ≠ 0x11 ∧ opField w ≠ 0x12) ∧
        ((imm8Field w ≠ 0 ∨ nField w ≠ 0) ∨ (opField w).toNat ∉ plainOpcodes)) := by
  by_cases hr : rsvField w = 0
  · by_cases h11 : opField w = 0x11
    · simp [decode_bwBits_eq_none_iff hr h11, hr, h11]
    · by_cases h12 : opField w = 0x12
      · simp [decode_bwNibble_eq_none_iff hr h12, hr, h12]
      · simp only [decode_plain_eq_none_iff hr h11 h12, ne_eq, hr, h11, h12, not_true_eq_false, not_false_eq_true,
          false_and, false_or, true_and]
  · exact iff_of_true (decode_of_rsv_ne_zero hr) (.inl hr)

end Sys2Proof

namespace Sys2Proof.Machine

/-- A latched illegal word completes with ILLEGAL (60_exceptions.md R245). -/
theorem engineStep_of_decode_eq_none {s : State} (h : decode s.latch.cmd = none) :
    engineStep s = .next (s.raise .illegal) := by
  simp only [engineStep, h]

end Sys2Proof.Machine
end

section
/-! PROOFS. The statement about the illegal words (30_encoding.md R84). -/

namespace Sys2Proof.Proofs

open Sys2Proof Sys2Proof.Machine

/-- Settles O2: `decode_eq_none_iff` with the fields as numbers; acceptance is `State.writeCmd` of an idle core, and the
completion is `State.raise`. -/
theorem illegalWordsAreThoseOfTheRule : Obligations.IllegalWordsAreThoseOfTheRule := by
  unfold Obligations.IllegalWordsAreThoseOfTheRule
  refine ⟨fun w => ?_, fun s w hidle => ?_, fun s hillegal => engineStep_of_decode_eq_none hillegal⟩
  · simp only [decode_eq_none_iff, ne_eq, ← BitVec.toNat_inj, opField_toNat, imm8Field_toNat, nField_toNat, rsvField_toNat,
      BitVec.ofNat_eq_ofNat, BitVec.toNat_ofNat, plainOpcodes, List.mem_cons, List.not_mem_nil, or_false]
    omega
  · refine ⟨{ (s.accept w).drew 1 with delay := Config.latency s.draws }, ?_, rfl, rfl⟩
    rw [hostStep_regWrite_cmd, State.writeCmd_of_idle hidle]

end Sys2Proof.Proofs
end

section
/-! SUPPORT. BW_RESET and BW_RAW (40_bitwriter.md R121, R125): one equation per outcome of each command, and what raw
bytes leave in the cursor and in OUT. -/

namespace Sys2Proof.Machine

open Sys2Proof (Byte)
open Sys2Proof.Safety

/-! ## Completions -/

theorem completedAs_raise (s : State) (c : Cause) : completedAs s (s.raise c) (errorStatus s c) s.bw s.out s.coef := rfl

/-! ## BW_RESET -/

theorem exec_bwReset_of_badCapacity {s : State} (h : s.params.outBytes.toNat < s.latch.cfg.capacity.toNat) :
    exec .bwReset s = .next (s.raise .badArg) :=
  if_pos (s.badCapacity_iff.mpr h)

theorem exec_bwReset_of_capacity_le {s : State} (h : s.latch.cfg.capacity.toNat ≤ s.params.outBytes.toNat) :
    exec .bwReset s = .next { s with bw := Writer.fresh s.latch.cfg.capacity }.complete :=
  if_neg (s.badCapacity_iff.not.mpr h.not_gt)

/-! ## The operand in STAGE -/

@[simp] theorem stageBytes_length (s : State) (n : Nat) : (stageBytes s n).length = n := by simp [stageBytes]

theorem State.loadStage_of_written {s : State} {n : Nat} (h : stageWritten s n) :
    s.loadStage n = some (stageBytes s n) :=
  (s.loadStage_eq_some_iff n _).mpr ⟨h, rfl⟩

/-! ## Raw bytes -/

/-- The cursor does not wrap where the bytes fit below CAP. -/
theorem Sink.putRaw_cur_toNat {k : Sink} {bytes : List Byte}
    (h : k.bw.cur.toNat + bytes.length ≤ k.bw.cap.toNat) :
    (k.putRaw bytes).bw.cur.toNat = k.bw.cur.toNat + bytes.length := by
  have hcap := k.bw.cap.isLt
  simp only [Sink.putRaw, BitVec.toNat_add, BitVec.toNat_ofNat]
  omega

theorem storesAt_of_out_eq {s t : State} {a : Nat} {bytes : List Byte} (h : t.out = Memory.writeList s.out a bytes) :
    storesAt s t a bytes := by
  refine ⟨fun k hk => ?_, fun b hb => ?_⟩
  · rw [h, Memory.read_writeList_inside _ _ _ hk, List.getElem?_eq_getElem hk]
  · rw [h, Memory.read_writeList_outside _ _ hb]

/-! ## BW_RAW -/

theorem exec_bwRaw_of_badStageCount {s : State} (h : s.params.stageBytes.toNat < s.latch.cfg.arg0.toNat) :
    exec .bwRaw s = .next (s.raise .badArg) :=
  if_pos (s.badStageCount_iff.mpr h)

theorem exec_bwRaw_of_no_room {s : State} (hn : s.latch.cfg.arg0.toNat ≤ s.params.stageBytes.toNat)
    (hroom : s.bw.cap.toNat < s.bw.cur.toNat + s.latch.cfg.arg0.toNat) :
    exec .bwRaw s = .next (s.setResult false).complete := by
  rw [exec, execBwRaw, if_neg (s.badStageCount_iff.not.mpr hn.not_gt), if_pos hroom]

theorem exec_bwRaw_of_room {s : State} (hn : s.latch.cfg.arg0.toNat ≤ s.params.stageBytes.toNat)
    (hroom : s.bw.cur.toNat + s.latch.cfg.arg0.toNat ≤ s.bw.cap.toNat)
    (hstage : stageWritten s s.latch.cfg.arg0.toNat) :
    exec .bwRaw s =
      .next ((s.withSink (s.sink.putRaw (stageBytes s s.latch.cfg.arg0.toNat))).setResult true).complete := by
  rw [exec, execBwRaw, if_neg (s.badStageCount_iff.not.mpr hn.not_gt), if_neg hroom.not_gt,
    State.loadStage_of_written hstage]

end Sys2Proof.Machine
end

section
/-! PROOFS. The statements about BW_RAW and BW_RESET (40_bitwriter.md R121, R125). -/

namespace Sys2Proof.Proofs

open Sys2Proof Sys2Proof.Machine Sys2Proof.Safety

/-- Settles O30: the three outcomes of BW_RAW; with room the cursor does not wrap and the bytes are one
`Memory.writeList` at it. -/
theorem rawBytesAllOrNothing : Obligations.RawBytesAllOrNothing := by
  unfold Obligations.RawBytesAllOrNothing
  refine ⟨by decide, fun s => ⟨fun hbad => ?_, fun hn hroom => ?_, fun hn hroom hstage => ?_⟩⟩
  · exact ⟨_, exec_bwRaw_of_badStageCount hbad, completedAs_raise s .badArg⟩
  · exact ⟨_, exec_bwRaw_of_no_room hn hroom, rfl⟩
  · have hcur := Sink.putRaw_cur_toNat (k := s.sink) (bytes := stageBytes s s.latch.cfg.arg0.toNat)
      (by rwa [stageBytes_length])
    rw [stageBytes_length] at hcur
    exact ⟨_, exec_bwRaw_of_room hn hroom hstage, storesAt_of_out_eq rfl, hcur, rfl⟩

/-- Settles O26: the two outcomes of BW_RESET; the new writer is `Writer.fresh` of the latched CAPACITY. -/
theorem bwResetStartsAFreshStream : Obligations.BwResetStartsAFreshStream := by
  unfold Obligations.BwResetStartsAFreshStream
  refine ⟨by decide, fun s => ⟨fun hbad => ?_, fun hcap => ?_⟩⟩
  · exact ⟨_, exec_bwReset_of_badCapacity hbad, completedAs_raise s .badArg⟩
  · refine ⟨_, exec_bwReset_of_capacity_le hcap, ?_⟩
    and_intros <;> rfl

end Sys2Proof.Proofs
end

section
/-! SUPPORT. QUANTIZE (42_quantize.md R170 to R173): one equation per branch of `quantize` and of the command, the
rounding error of the biased division, and an image left in place. -/

namespace Sys2Proof.Machine

open Sys2Proof.Safety

/-! ## The formula (R171) -/

theorem quantize_of_le_one (w : Nat) (x : Int) {s : Int} (hs : s ≤ 1) : quantize w x s = x := if_pos hs

theorem quantize_of_two_le (w : Nat) (x : Int) {s : Int} (hs : 2 ≤ s) :
    quantize w x s = wrap w (Int.tdiv (wrap w (quantExact x s)) s) :=
  if_neg (by omega)

theorem quantExact_of_pos {x : Int} (hx : 0 < x) (s : Int) : quantExact x s = x + quantBias s := if_pos hx

theorem quantExact_of_nonpos {x : Int} (hx : x ≤ 0) (s : Int) : quantExact x s = x - quantBias s := if_neg hx.not_gt

/-- The dividend `s + 1` is not negative, so the bias's truncating division is the floor. -/
theorem quantBias_eq {s : Int} (hs : 2 ≤ s) : quantBias s = (s + 1) / 2 - 1 := by
  rw [quantBias, Int.tdiv_eq_ediv_of_nonneg (by omega)]

/-! ## Truncating division -/

theorem tmod_nonpos {a : Int} (b : Int) (ha : a ≤ 0) : Int.tmod a b ≤ 0 := by
  have h := Int.tmod_nonneg b (Int.neg_nonneg_of_nonpos ha)
  rw [Int.neg_tmod] at h
  omega

/-- The quotient lies between 0 and the dividend, so it fits where the dividend fits. -/
theorem wrap_tdiv {w : Nat} (hw : 0 < w) {b s : Int} (hs : 0 ≤ s) (hb : wrap w b = b) :
    wrap w (Int.tdiv b s) = Int.tdiv b s := by
  obtain ⟨hlo, hhi⟩ := wrap_range hw b
  rw [hb] at hlo hhi
  have hpow : (0 : Int) < 2 ^ (w - 1) := two_pow_pos_int _
  rcases le_total 0 b with h | h
  · have hq0 := Int.tdiv_nonneg h hs
    have hq := Int.tdiv_le_self s h
    exact wrap_eq_self hw (by omega) (by omega)
  · have hq0 := Int.tdiv_nonneg (Int.neg_nonneg_of_nonpos h) hs
    have hq := Int.tdiv_le_self s (Int.neg_nonneg_of_nonpos h)
    rw [Int.neg_tdiv] at hq0 hq
    exact wrap_eq_self hw (by omega) (by omega)

/-! ## The error bound (R173) -/

theorem quantize_eq_tdiv {w : Nat} (hw : 0 < w) {x s : Int} (hs : 2 ≤ s)
    (hx : wrap w (quantExact x s) = quantExact x s) :
    quantize w x s = Int.tdiv (quantExact x s) s := by
  rw [quantize_of_two_le w x hs, hx, wrap_tdiv hw (by omega) hx]

/-- The product differs from x by the bias, given the sign of the biased value, less the remainder. The remainder has
that sign too and is below s, and twice the bias is s − 2 or s − 1. -/
theorem two_mul_abs_tdiv_mul_sub_le (x : Int) {s : Int} (hs : 2 ≤ s) :
    2 * |Int.tdiv (quantExact x s) s * s - x| ≤ s := by
  have hd := quantBias_eq hs
  have hdiv := Int.tdiv_mul_add_tmod (quantExact x s) s
  have hhalf : |Int.tdiv (quantExact x s) s * s - x| ≤ s / 2 := by
    rcases lt_or_ge 0 x with hx | hx
    · have hb := quantExact_of_pos hx s
      have hr0 := Int.tmod_nonneg (a := quantExact x s) s (by omega)
      have hr := Int.tmod_lt_of_pos (quantExact x s) (b := s) (by omega)
      exact abs_le.mpr ⟨by omega, by omega⟩
    · have hb := quantExact_of_nonpos hx s
      have hr0 := tmod_nonpos (a := quantExact x s) s (by omega)
      have hr := Int.lt_tmod_of_pos (quantExact x s) (b := s) (by omega)
      exact abs_le.mpr ⟨by omega, by omega⟩
  omega

/-! ## The checks of the command (R170; 60_exceptions.md R247) -/

theorem State.geometryError_of_badGeometry {s : State} (h : Safety.badGeometry s) : s.geometryError = some .badArg :=
  if_pos (s.badGeometry_iff.mpr h)

theorem State.geometryError_of_oversized {s : State} (hg : ¬ Safety.badGeometry s) (h : oversized s .quantize) :
    s.geometryError = some .alloc := by
  rw [State.geometryError, if_neg (s.badGeometry_iff.not.mpr hg), if_pos ((State.tooLarge_iff hg).mpr h)]

theorem exec_quantize_of_geometryError {s : State} {c : Cause} (h : s.geometryError = some c) :
    exec .quantize s = .next (s.raise c) := by
  simp only [exec, execQuantize, h]

/-! ## The image (R170, R172) -/

theorem exec_quantize_of_scale_le_one {s : State} (h : s.geometryError = none) (hscale : s.scale ≤ 1) :
    exec .quantize s = .next s.complete := by
  simp only [exec, execQuantize, h, if_pos hscale]

theorem exec_quantize_of_written {s : State} (h : s.geometryError = none) (hscale : ¬ s.scale ≤ 1)
    (hw : imageWritten s) :
    exec .quantize s = .next (s.storeImage ((image s).map fun x => quantize s.w x s.scale)).complete := by
  simp only [exec, execQuantize, h, if_neg hscale, State.loadImage_of_written hw]

/-- A command that leaves COEF alone leaves the image as it was. -/
theorem imageBecomes_image {s t : State} (hw : imageWritten s) (hcoef : t.coef = s.coef) (hp : t.params = s.params) :
    imageBecomes s t (image s) := by
  refine ⟨fun e he => ⟨?_, ?_⟩, fun e _ => by rw [hcoef]⟩
  · rw [hcoef]
    exact hw e he
  · rw [image_getD he, coefValue, coefValue, hcoef, State.w, State.w, hp]

/-- Both branches of the SCALE test leave Q of every element: with SCALE ≤ 1 it is the element itself. -/
theorem exec_quantize_completes {s : State} (h : s.geometryError = none) (hw : imageWritten s) :
    ∃ t, exec .quantize s = .next t ∧ imageBecomes s t ((image s).map fun x => quantize s.w x s.scale) ∧
      completedAs s t (doneStatus s) s.bw s.out t.coef := by
  by_cases hscale : s.scale ≤ 1
  · have himg : ((image s).map fun x => quantize s.w x s.scale) = image s := by
      simp only [quantize_of_le_one _ _ hscale, List.map_id']
    rw [himg]
    exact ⟨_, exec_quantize_of_scale_le_one h hscale, imageBecomes_image hw rfl rfl, rfl⟩
  · refine ⟨_, exec_quantize_of_written h hscale hw,
      State.storeImage_becomes (by simp) rfl rfl fun v hv => ?_, rfl⟩
    obtain ⟨x, hx, rfl⟩ := List.mem_map.mp hv
    exact wrap_quantize (wrap_of_mem_image hx) s.scale

end Sys2Proof.Machine
end

section
/-! PROOFS. The statements about QUANTIZE (42_quantize.md R170, R171, R173). -/

namespace Sys2Proof.Proofs

open Sys2Proof Sys2Proof.Machine Sys2Proof.Safety

/-- Settles O42: with no wrap Q is the truncated quotient of the biased value, whose error
`two_mul_abs_tdiv_mul_sub_le` bounds. -/
theorem quantizeErrorBound : Obligations.QuantizeErrorBound := by
  unfold Obligations.QuantizeErrorBound
  intro w x s hw hs d biased hhi hlo
  have hbiased : quantExact x s = biased := by rw [quantExact, quantBias_eq hs]
  have hfits : wrap w (quantExact x s) = quantExact x s := wrap_eq_self hw (hbiased ▸ hlo) (hbiased ▸ hhi)
  rw [quantize_eq_tdiv hw hs hfits]
  exact two_mul_abs_tdiv_mul_sub_le x hs

/-- Settles O43: the two checks are `State.geometryError`, and an image that passes them is quantized. -/
theorem quantizeCompletes : Obligations.QuantizeCompletes := by
  unfold Obligations.QuantizeCompletes
  refine ⟨by decide, fun s => ⟨fun hbad => ?_, fun hg hbig => ?_, fun hg hfit hw => ?_⟩⟩
  · exact ⟨_, exec_quantize_of_geometryError (State.geometryError_of_badGeometry hbad), completedAs_raise s .badArg⟩
  · exact ⟨_, exec_quantize_of_geometryError (State.geometryError_of_oversized hg hbig), completedAs_raise s .alloc⟩
  · exact exec_quantize_completes (State.geometryError_eq_none hg hfit) hw

/-- Settles O41: the two branches of `quantize`, the bias added to a positive value and subtracted from any other. -/
theorem quantizeFollowsTheFormula : Obligations.QuantizeFollowsTheFormula := by
  unfold Obligations.QuantizeFollowsTheFormula
  refine fun w x s => ⟨quantize_of_le_one w x, fun hs hx => ?_, fun hs hx => ?_⟩
  · rw [quantize_of_two_le w x hs, quantExact_of_pos hx, quantBias]
  · rw [quantize_of_two_le w x hs, quantExact_of_nonpos hx, quantBias]

end Sys2Proof.Proofs
end

section
/-! SUPPORT. NOP (44_driver.md R223): a latched legal word is its command's completion, and a success right after
acceptance shows DONE alone beside BW_OVF. -/

namespace Sys2Proof.Machine

open Sys2Proof.Safety

/-- A latched legal word runs its command (30_encoding.md R84). -/
theorem engineStep_of_decode_eq_some {s : State} {i : Instr} (h : decode s.latch.cmd = some i) :
    engineStep s = exec i s := by
  simp only [engineStep, h]

theorem exec_nop (s : State) : exec .nop s = .next s.complete := rfl

theorem completedAs_complete (s : State) : completedAs s s.complete (doneStatus s) s.bw s.out s.coef := rfl

/-- A success over the STATUS that acceptance leaves sets DONE alone, unless BW_OVF shows (10_state.md R22, R41, R43). -/
theorem State.complete_statusWord {s : State} (hstatus : s.status = Status.reset) (hovf : s.bw.ovf = false) :
    s.complete.statusWord = 0x00000002 := by
  have hidle : (s.finishWith false .none).busy = false := rfl
  simp [State.statusWord, hidle, hstatus, hovf, Status.reset, Cause.code]

end Sys2Proof.Machine
end

section
/-! PROOFS. The statement about NOP (44_driver.md R223). -/

namespace Sys2Proof.Proofs

open Sys2Proof Sys2Proof.Machine Sys2Proof.Safety

/-- Settles O49: NOP is `State.complete`, run here over the STATUS of an acceptance with the writer untouched. -/
theorem nopOnlyCompletes : Obligations.NopOnlyCompletes := by
  unfold Obligations.NopOnlyCompletes
  refine fun s => ⟨⟨_, exec_nop s, completedAs_complete s⟩, fun t u hidle hovf haccept hstep => ?_⟩
  rw [hostStep_regWrite_cmd, State.writeCmd_of_idle hidle] at haccept
  cases haccept
  have hnop : decode 0x00000000 = some .nop := by decide
  rw [engineStep_of_decode_eq_some (by exact hnop), exec_nop] at hstep
  cases hstep
  exact State.complete_statusWord rfl hovf

end Sys2Proof.Proofs
end

section
/-! SUPPORT. How a completion reports (60_exceptions.md R240 to R248): the argument checks of every command as one
function, that a failed check is the whole completion, and that BADARG and ALLOC come from nowhere else. -/

namespace Sys2Proof.Machine

open Sys2Proof.Safety

/-! ## The argument checks of a command (R243, R244, R247) -/

/-- The cause a command's argument checks raise, if any. -/
def State.argumentError (s : State) : Instr → Option Cause
  | .transform | .quantize => s.geometryError
  | .encode | .compress => s.encodeError
  | .qtEncode => s.quadrantError
  | .bwReset => if s.badCapacity then some .badArg else none
  | .bwNibbles | .bwRaw => if s.badStageCount then some .badArg else none
  | .nop | .bwBits _ _ | .bwNibble _ | .bwFinish => none

/-- A command with one condition and no size check. -/
theorem lone_check_cases {b : Bool} {P : Prop} (hb : b = true ↔ P) :
    (P ∧ (if b then some Cause.badArg else none) = some .badArg) ∨
    (¬ P ∧ (if b then some Cause.badArg else none) = none) := by
  by_cases hP : P
  · exact .inl ⟨hP, if_pos (hb.mpr hP)⟩
  · exact .inr ⟨hP, if_neg (hb.not.mpr hP)⟩

/-- Everything the checks of a command can say. -/
theorem State.argumentError_cases (s : State) (i : Instr) :
    (badArgument s i ∧ s.argumentError i = some .badArg) ∨
    (¬ badArgument s i ∧ oversized s i ∧ s.argumentError i = some .alloc) ∨
    (¬ badArgument s i ∧ ¬ oversized s i ∧ s.argumentError i = none) := by
  cases i with
  | transform | quantize => exact s.geometryError_cases
  | encode | compress => exact s.encodeError_cases
  | qtEncode => exact s.quadrantError_cases
  | bwReset => exact (lone_check_cases s.badCapacity_iff).imp_right fun ⟨hgood, he⟩ => .inr ⟨hgood, id, he⟩
  | bwNibbles | bwRaw => exact (lone_check_cases s.badStageCount_iff).imp_right fun ⟨hgood, he⟩ => .inr ⟨hgood, id, he⟩
  | nop | bwBits | bwNibble | bwFinish => exact .inr (.inr ⟨id, id, rfl⟩)

theorem State.argumentError_eq_badArg_iff (s : State) (i : Instr) :
    s.argumentError i = some .badArg ↔ badArgument s i := by
  obtain ⟨hbad, he⟩ | ⟨hbad, -, he⟩ | ⟨hbad, -, he⟩ := s.argumentError_cases i <;> simp [hbad, he]

theorem State.argumentError_eq_alloc_iff (s : State) (i : Instr) :
    s.argumentError i = some .alloc ↔ ¬ badArgument s i ∧ oversized s i := by
  obtain ⟨hbad, he⟩ | ⟨hbad, hbig, he⟩ | ⟨hbad, hbig, he⟩ := s.argumentError_cases i
  · simp [hbad, he]
  · simp [hbad, hbig, he]
  · simp [hbad, hbig, he]

/-! ## A failed check is the whole completion (R248) -/

theorem exec_of_argumentError {i : Instr} {s : State} {c : Cause} (h : s.argumentError i = some c) :
    exec i s = .next (s.raise c) := by
  cases i with
  | quantize => exact exec_quantize_of_geometryError h
  | transform | encode | compress | qtEncode =>
    simp only [State.argumentError] at h
    simp only [exec, execTransform, execEncode, execCompress, execQtEncode, h]
  | bwReset | bwNibbles | bwRaw =>
    obtain ⟨hbad, ⟨⟩⟩ := Option.ite_none_right_eq_some.mp h
    exact if_pos hbad
  | nop | bwBits | bwNibble | bwFinish => cases h

/-! ## BADARG and ALLOC come from the checks alone -/

/-- The causes that are not those of an argument check (R242, R245). -/
def otherCauses : List Cause := [.none, .capacity, .illegal]

theorem State.finishWith_cause_other (s : State) (err : Bool) {c : Cause} (hc : c ∈ otherCauses) :
    (s.finishWith err c).status.cause ∈ otherCauses := hc

theorem State.complete_cause_other (s : State) : s.complete.status.cause ∈ otherCauses :=
  s.finishWith_cause_other false (by decide)

theorem State.encodeOutcome_cause_other (s : State) (img : List Int) :
    (s.encodeOutcome img).status.cause ∈ otherCauses := by
  unfold State.encodeOutcome
  split
  · exact State.complete_cause_other _
  · exact State.finishWith_cause_other _ true (by decide)

theorem State.finishQuadrant_cause_other (s : State) : s.finishQuadrant.status.cause ∈ otherCauses := by
  unfold State.finishQuadrant
  split
  · exact s.finishWith_cause_other true (by decide)
  · exact s.complete_cause_other

theorem exec_cause_other {i : Instr} {s t : State} (h : s.argumentError i = none) (ht : exec i s = .next t) :
    t.status.cause ∈ otherCauses := by
  cases i with
  | nop | bwNibble | bwFinish => cases ht; exact State.complete_cause_other _
  | bwBits value n =>
    simp only [exec, execBwBits] at ht
    split at ht
    · cases ht; exact s.finishWith_cause_other true (by decide)
    · cases ht; exact State.complete_cause_other _
  | bwReset =>
    have hcap : ¬ s.badCapacity = true := by simpa [State.argumentError] using h
    rw [exec, execBwReset, if_neg hcap] at ht
    cases ht; exact State.complete_cause_other _
  | bwNibbles =>
    have hcount : ¬ s.badStageCount = true := by simpa [State.argumentError] using h
    rw [exec, execBwNibbles, if_neg hcount] at ht
    split at ht
    · cases ht
    · cases ht; exact State.complete_cause_other _
  | bwRaw =>
    have hcount : ¬ s.badStageCount = true := by simpa [State.argumentError] using h
    rw [exec, execBwRaw, if_neg hcount] at ht
    split at ht
    · cases ht; exact State.complete_cause_other _
    · split at ht
      · cases ht
      · cases ht; exact State.complete_cause_other _
  | transform | quantize =>
    simp only [State.argumentError] at h
    simp only [exec, execTransform, execQuantize, h] at ht
    split at ht
    · cases ht; exact State.complete_cause_other _
    · split at ht
      · cases ht
      · cases ht; exact State.complete_cause_other _
  | encode | compress =>
    simp only [State.argumentError] at h
    simp only [exec, execEncode, execCompress, h] at ht
    split at ht
    · cases ht
    · cases ht; exact State.encodeOutcome_cause_other _ _
  | qtEncode =>
    simp only [State.argumentError] at h
    simp only [exec, execQtEncode, h] at ht
    split at ht
    · cases ht
    · cases ht; exact State.finishQuadrant_cause_other _

/-- BADARG or ALLOC at completion is what the argument checks said. -/
theorem argumentError_of_cause {i : Instr} {s t : State} {c : Cause} (ht : exec i s = .next t)
    (hc : t.status.cause = c) (hcheck : c ∉ otherCauses) : s.argumentError i = some c := by
  cases he : s.argumentError i with
  | none => exact (hcheck (hc ▸ exec_cause_other he ht)).elim
  | some e =>
    rw [exec_of_argumentError he] at ht
    cases ht
    exact congrArg some hc

/-! ## Success or an error with a cause (R240, R241) -/

theorem Cause.code_eq_zero_iff (c : Cause) : c.code = 0 ↔ c = .none := by
  cases c <;> decide

theorem Effect.finished {s t : State} (h : Effect s t) :
    t.seq = .idle ∧ t.status.done = true ∧
      ((t.status.err = false ∧ t.status.cause = .none) ∨ (t.status.err = true ∧ t.status.cause ≠ .none)) := by
  cases h with
  | raised c hc => exact ⟨rfl, rfl, .inr ⟨rfl, ne_of_mem_of_not_mem hc (by decide)⟩⟩
  | done | opened | wrote | raw | stored | encoded => exact ⟨rfl, rfl, .inl ⟨rfl, rfl⟩⟩
  | full | overflowed => exact ⟨rfl, rfl, .inr ⟨rfl, Cause.noConfusion⟩⟩

end Sys2Proof.Machine
end

section
/-! PROOFS. The statements about how a command ends (60_exceptions.md R240, R243, R244). -/

namespace Sys2Proof.Proofs

open Sys2Proof Sys2Proof.Machine Sys2Proof.Safety

/-- Settles O6: every effect of the Engine finishes with success or with a cause, and only NONE has code 0. -/
theorem everyCommandEndsInSuccessOrError : Obligations.EveryCommandEndsInSuccessOrError := by
  unfold Obligations.EveryCommandEndsInSuccessOrError
  intro s t ht
  obtain ⟨hidle, hdone, hend⟩ := (engineStep_effect ht).finished
  refine ⟨hidle, t.not_busy_iff.mpr hidle, hdone, ?_⟩
  exact hend.imp (fun ⟨herr, hc⟩ => ⟨herr, hc, t.status.cause.code_eq_zero_iff.mpr hc⟩)
    (fun ⟨herr, hc⟩ => ⟨herr, hc, t.status.cause.code_eq_zero_iff.not.mpr hc⟩)

/-- Settles O7: the conditions are those under which the argument checks say BADARG, and once they pass no
command reports it. -/
theorem badArgumentsAreRefused : Obligations.BadArgumentsAreRefused := by
  unfold Obligations.BadArgumentsAreRefused
  refine fun i s => ⟨fun hbad => ?_, fun t ht hc => ?_⟩
  · exact exec_of_argumentError ((s.argumentError_eq_badArg_iff i).mpr hbad)
  · exact (s.argumentError_eq_badArg_iff i).mp (argumentError_of_cause ht hc (by decide))

/-- Settles O8: with no bad argument the size condition is that under which the checks say ALLOC, and once they pass no
command reports it. -/
theorem allocIsTheSizeCheck : Obligations.AllocIsTheSizeCheck := by
  unfold Obligations.AllocIsTheSizeCheck
  refine fun i s hgood => ⟨fun hbig => ?_, fun t ht hc => ?_⟩
  · exact exec_of_argumentError ((s.argumentError_eq_alloc_iff i).mpr ⟨hgood, hbig⟩)
  · exact ((s.argumentError_eq_alloc_iff i).mp (argumentError_of_cause ht hc (by decide))).2

end Sys2Proof.Proofs
end

section
/-! SUPPORT. Which faults a memory transaction of the Host raises (60_exceptions.md R258, 20_memory.md R65, R73): an index
outside the space, whatever the core is doing, and a write inside it while BUSY. -/

namespace Sys2Proof.Machine

open Sys2Proof (Byte Elem)

variable {s : State} {a : Nat}

/-! ## An index outside its space -/

theorem hostStep_coefRead_of_outside (h : s.params.nmax.toNat ≤ a) : hostStep (.coefRead a) s = .fault .coefIndex :=
  if_pos h

theorem hostStep_coefWrite_of_outside (v : Elem) (h : s.params.nmax.toNat ≤ a) :
    hostStep (.coefWrite a v) s = .fault .coefIndex :=
  if_pos h

theorem hostStep_outRead_of_outside (h : s.params.outBytes.toNat ≤ a) : hostStep (.outRead a) s = .fault .outIndex :=
  if_pos h

theorem hostStep_outWrite_of_outside (b : Byte) (h : s.params.outBytes.toNat ≤ a) :
    hostStep (.outWrite a b) s = .fault .outIndex :=
  if_pos h

theorem hostStep_stageRead_of_outside (h : s.params.stageBytes.toNat ≤ a) :
    hostStep (.stageRead a) s = .fault .stageIndex :=
  if_pos h

theorem hostStep_stageWrite_of_outside (b : Byte) (h : s.params.stageBytes.toNat ≤ a) :
    hostStep (.stageWrite a b) s = .fault .stageIndex :=
  if_pos h

/-! ## A write inside its space while BUSY -/

theorem hostStep_coefWrite_of_busy (v : Elem) (hbusy : s.seq = .busy) (ha : a < s.params.nmax.toNat) :
    hostStep (.coefWrite a v) s = .fault .coefWriteBusy := by
  rw [hostStep, hostCoefWrite, if_neg ha.not_ge, if_pos (s.busy_iff.mpr hbusy)]

theorem hostStep_outWrite_of_busy (b : Byte) (hbusy : s.seq = .busy) (ha : a < s.params.outBytes.toNat) :
    hostStep (.outWrite a b) s = .fault .outWriteBusy := by
  rw [hostStep, hostOutWrite, if_neg ha.not_ge, if_pos (s.busy_iff.mpr hbusy)]

theorem hostStep_stageWrite_of_busy (b : Byte) (hbusy : s.seq = .busy) (ha : a < s.params.stageBytes.toNat) :
    hostStep (.stageWrite a b) s = .fault .stageWriteBusy := by
  rw [hostStep, hostStageWrite, if_neg ha.not_ge, if_pos (s.busy_iff.mpr hbusy)]

end Sys2Proof.Machine
end

section
/-! PROOFS. The statement about the Host's duties (60_exceptions.md R258). -/

namespace Sys2Proof.Proofs

open Sys2Proof Sys2Proof.Machine

/-- Settles O11: each transaction's checks in the order index, then BUSY; a bad offset names no register. -/
theorem hostDutyViolationsFault : Obligations.HostDutyViolationsFault := by
  unfold Obligations.HostDutyViolationsFault
  refine fun s a v b x => ⟨fun h => ?_, fun h => ?_, fun h => ?_, fun hbusy => ?_, fun hbad => ?_⟩
  · exact ⟨hostStep_coefRead_of_outside h, hostStep_coefWrite_of_outside v h⟩
  · exact ⟨hostStep_outRead_of_outside h, hostStep_outWrite_of_outside b h⟩
  · exact ⟨hostStep_stageRead_of_outside h, hostStep_stageWrite_of_outside b h⟩
  · exact ⟨hostStep_coefWrite_of_busy v hbusy, hostStep_outWrite_of_busy b hbusy, hostStep_stageWrite_of_busy b hbusy⟩
  · have hr : regAt a = none := regAt_of_bad hbad
    exact ⟨hostStep_regRead_of_regAt_none s hr, hostStep_regWrite_of_regAt_none s x hr⟩

end Sys2Proof.Proofs
end

section
/-! SUPPORT. What a Reset transaction leaves (70_reset_and_hazards.md R270, R271): the registers of power-on, STAGE always,
and COEF and OUT too where no command was running. -/

namespace Sys2Proof.Machine

/-! ## The registers -/

theorem State.powerOn_statusWord (p : Config.Params) : (State.powerOn p).statusWord = 0 := by
  have hidle : (State.powerOn p).busy = false := rfl
  have hstatus : (State.powerOn p).status = Status.reset := rfl
  have hovf : (State.powerOn p).bw.ovf = false := rfl
  simp [State.statusWord, hidle, hstatus, hovf, Status.reset, Cause.code]

theorem Writer.reset_stateWord : Writer.reset.stateWord = 0x800 := by decide

theorem PlaneCounts.zero_word : ({ c0 := 0, c1 := 0, c2 := 0 } : PlaneCounts).word = 0 := by decide

theorem high32_zero : high32 0 = 0 := by decide

theorem State.resetRegisters_regValue (s : State) (r : Reg) :
    s.resetRegisters.regValue r = (State.powerOn s.params).regValue r := by
  cases r <;> rfl

/-- A Reset, between commands or while BUSY, gives every register its power-on value. -/
theorem State.resetTxn_regValue (s : State) (r : Reg) :
    s.resetTxn.regValue r = (State.powerOn s.params).regValue r := by
  unfold State.resetTxn
  split
  · exact s.abandon.resetRegisters_regValue r
  · exact s.resetRegisters_regValue r

@[simp] theorem State.resetTxn_seq (s : State) : s.resetTxn.seq = .idle := rfl

/-! ## The memories -/

@[simp] theorem State.resetTxn_stage (s : State) : s.resetTxn.stage = s.stage := by
  unfold State.resetTxn
  split <;> rfl

theorem State.resetTxn_of_idle {s : State} (h : s.seq = .idle) : s.resetTxn = s.resetRegisters := by
  simp [State.resetTxn, s.not_busy_iff.mpr h]

/-! ## The transaction -/

theorem hostStep_reset (s : State) : hostStep .reset s = .next s.resetTxn := rfl

end Sys2Proof.Machine
end

section
/-! PROOFS. The statement about the values of reset (70_reset_and_hazards.md R270). -/

namespace Sys2Proof.Proofs

open Sys2Proof Sys2Proof.Machine

/-- Settles O19: a Reset gives every register its power-on value, so one look at power-on serves both; without a running
command nothing is abandoned and the memories stay. -/
theorem resetLeavesTheRulesValues : Obligations.ResetLeavesTheRulesValues := by
  unfold Obligations.ResetLeavesTheRulesValues
  refine ⟨fun s p hreset => ?_, fun s => ⟨s.resetTxn, hostStep_reset s, s.resetTxn_stage, fun hidle => ?_⟩⟩
  · have hpowerOn : s.seq = .idle ∧ ∀ r, s.regValue r = (State.powerOn p).regValue r := by
      rcases hreset with rfl | ⟨u, rfl, hu⟩
      · exact ⟨rfl, fun _ => rfl⟩
      · cases hu
        exact ⟨u.resetTxn_seq, u.resetTxn_regValue⟩
    obtain ⟨hseq, hregs⟩ := hpowerOn
    refine ⟨hseq, fun r => ?_⟩
    rw [hregs]
    cases r with
    | status => exact State.powerOn_statusWord p
    | bwState => exact Writer.reset_stateWord
    | bitcountHi => exact high32_zero
    | nbp => exact PlaneCounts.zero_word
    | dcHi => exact high32_zero
    | _ => rfl
  · rw [State.resetTxn_of_idle hidle]
    exact ⟨rfl, rfl⟩

end Sys2Proof.Proofs
end

section
/-! SUPPORT. What the decoder reads from a legal word (30_encoding.md R80 to R84): the value of `decode` by OP, on a word
with RSV = 0. -/

namespace Sys2Proof

theorem decode_of_op_bwBits {w : Word} (hr : rsvField w = 0) (ho : opField w = 0x11) :
    decode w = if (nField w).toNat ≤ 8 then some (.bwBits (imm8Field w) (nField w)) else none := by
  rw [decode, if_neg (not_not.mpr hr), if_pos ho]

theorem decode_of_op_bwNibble {w : Word} (hr : rsvField w = 0) (ho : opField w = 0x12) :
    decode w = if nField w = 0 then some (.bwNibble (imm8Field w)) else none := by
  rw [decode, if_neg (not_not.mpr hr), if_neg (by rw [ho]; decide), if_pos ho]

theorem decode_of_op_plain {w : Word} (hr : rsvField w = 0) (h11 : opField w ≠ 0x11) (h12 : opField w ≠ 0x12) :
    decode w =
      if imm8Field w = 0 ∧ nField w = 0 then plainCommands.find? (fun i => opcode i == opField w) else none := by
  rw [decode, if_neg (not_not.mpr hr), if_neg h11, if_neg h12]

/-- A plain command's word decodes to it: its OP finds it in the list. -/
theorem decode_encode_of_plain {i : Instr} (hi : i ∈ plainCommands) : decode (encode i) = some i := by
  have hfields : opcode i ≠ 0x11 ∧ opcode i ≠ 0x12 ∧ imm8Of i = 0 ∧ nOf i = 0 ∧
      plainCommands.find? (fun j => opcode j == opcode i) = some i := by
    revert i; decide
  obtain ⟨h11, h12, himm, hn, hfind⟩ := hfields
  have ho := opField_encode i
  rw [decode_of_op_plain (rsvField_encode i) (ho ▸ h11) (ho ▸ h12), imm8Field_encode, nField_encode, ho,
    if_pos ⟨himm, hn⟩, hfind]

theorem decode_encode {i : Instr} (hi : i.wellFormed = true) : decode (encode i) = some i := by
  cases i with
  | bwBits value n =>
    rw [decode_of_op_bwBits (rsvField_encode _) (opField_encode _), imm8Field_encode, nField_encode]
    exact if_pos (of_decide_eq_true hi)
  | bwNibble imm8 =>
    rw [decode_of_op_bwNibble (rsvField_encode _) (opField_encode _), imm8Field_encode, nField_encode]
    exact if_pos rfl
  | _ => exact decode_encode_of_plain (by decide)

/-- What the decoder accepts is a command whose word is the one read. -/
theorem wellFormed_encode_of_decode {w : Word} {i : Instr} (h : decode w = some i) :
    i.wellFormed = true ∧ encode i = w := by
  by_cases hr : rsvField w = 0
  · by_cases h11 : opField w = 0x11
    · rw [decode_of_op_bwBits hr h11] at h
      obtain ⟨hn, ⟨⟩⟩ := Option.ite_none_right_eq_some.mp h
      exact ⟨decide_eq_true hn, encode_eq_of_fields hr rfl rfl h11⟩
    · by_cases h12 : opField w = 0x12
      · rw [decode_of_op_bwNibble hr h12] at h
        obtain ⟨hn, ⟨⟩⟩ := Option.ite_none_right_eq_some.mp h
        exact ⟨rfl, encode_eq_of_fields hr hn rfl h12⟩
      · rw [decode_of_op_plain hr h11 h12] at h
        obtain ⟨⟨himm, hn⟩, hfind⟩ := Option.ite_none_right_eq_some.mp h
        obtain ⟨ho, himm', hn', hwf⟩ := find_plain hfind
        exact ⟨hwf, encode_eq_of_fields hr (hn.trans hn'.symm) (himm.trans himm'.symm) ho.symm⟩
  · rw [decode_of_rsv_ne_zero hr] at h
    cases h

end Sys2Proof
end

section
/-! PROOFS. The statement that decode and encode agree (30_encoding.md section 1), and the words of its table. -/

namespace Sys2Proof.Proofs

open Sys2Proof

/-- Settles O1: a command's word has the command's fields, and a word the decoder accepts has no others. -/
theorem decodeAndEncodeAgree : Obligations.DecodeAndEncodeAgree := by
  unfold Obligations.DecodeAndEncodeAgree
  exact ⟨fun _ hi => decode_encode hi, fun _ _ h => wellFormed_encode_of_decode h⟩

/-- Settles O3: the fields of each word, read by the decoder. -/
theorem specWordsDecode : Obligations.SpecWordsDecode := by
  unfold Obligations.SpecWordsDecode
  decide

end Sys2Proof.Proofs
end

section
/-! SUPPORT. The invariant, part by part: what keeps COEF and OUT in order, what a command's completion and a host
transaction leave of the memories, the writer and STATUS, and how far an abandoned command could have written. -/

namespace Sys2Proof.Machine

open Sys2Proof (Byte Word Elem)
open Sys2Proof.Safety

/-! ## One memory in order (20_memory.md R60, R61, R65) -/

/-- COEF as the invariant has it: canonical, inside its space, elements of W bits. -/
structure CoefOk (p : Config.Params) (m : Store Elem) : Prop where
  wf     : Memory.wf m
  within : Memory.within p.nmax.toNat m
  fits   : ∀ c ∈ m, c.2.toNat < 2 ^ p.width.bits

/-- A memory of bytes as the invariant has it: canonical, inside its space of n bytes. -/
structure BytesOk (n : Nat) (m : List Host.Cell) : Prop where
  wf     : Memory.wf m
  within : Memory.within n m

theorem memoriesOk_iff (s : State) :
    MemoriesOk s ↔ CoefOk s.params s.coef ∧ BytesOk s.params.outBytes.toNat s.out ∧
      BytesOk s.params.stageBytes.toNat s.stage :=
  ⟨fun h => ⟨⟨h.coefWf, h.coefWithin, h.coefFits⟩, ⟨h.outWf, h.outWithin⟩, ⟨h.stageWf, h.stageWithin⟩⟩,
    fun ⟨hc, ho, hs⟩ => ⟨hc.wf, ho.wf, hs.wf, hc.within, ho.within, hs.within, hc.fits⟩⟩

theorem BytesOk.writeList {n a : Nat} {m : List Host.Cell} (h : BytesOk n m) {bs : List Byte} (hl : a + bs.length ≤ n) :
    BytesOk n (Memory.writeList m a bs) :=
  ⟨Memory.wf_writeList h.wf a bs, Memory.within_writeList h.within bs hl⟩

theorem BytesOk.write {n a : Nat} {m : List Host.Cell} (h : BytesOk n m) (ha : a < n) (b : Byte) :
    BytesOk n (Memory.write m a b) :=
  h.writeList (bs := [b]) ha

theorem CoefOk.writeList {p : Config.Params} {m : Store Elem} (h : CoefOk p m) {a : Nat} {vs : List Elem}
    (hl : a + vs.length ≤ p.nmax.toNat) (hv : ∀ v ∈ vs, v.toNat < 2 ^ p.width.bits) :
    CoefOk p (Memory.writeList m a vs) := by
  refine ⟨Memory.wf_writeList h.wf a vs, Memory.within_writeList h.within vs hl, fun c hc => ?_⟩
  rcases Memory.mem_writeList hc with hc | hc
  · exact hv _ hc
  · exact h.fits c hc

theorem CoefOk.write_pattern {p : Config.Params} {m : Store Elem} (h : CoefOk p m) {e : Nat} (he : e < p.nmax.toNat)
    (v : Int) : CoefOk p (Memory.write m e (pattern p.width.bits v)) :=
  h.writeList (vs := [pattern p.width.bits v]) he fun u hu => by
    rw [List.mem_singleton.mp hu]; exact pattern_lt (Width.bits_le _) v

/-- Stored values are patterns, so they have W bits. -/
theorem CoefOk.writePatterns {p : Config.Params} {m : Store Elem} (h : CoefOk p m) {vals : List Int}
    (hl : vals.length ≤ p.nmax.toNat) : CoefOk p (Memory.writeList m 0 (vals.map (pattern p.width.bits))) := by
  refine h.writeList (by simpa using hl) fun v hv => ?_
  obtain ⟨x, -, rfl⟩ := List.mem_map.mp hv
  exact pattern_lt (Width.bits_le _) x

/-- So are drawn elements. -/
theorem CoefOk.writeDrawn {s : State} {m : Store Elem} (h : CoefOk s.params m) (k : Nat) {n : Nat}
    (hn : n ≤ s.params.nmax.toNat) : CoefOk s.params (Memory.writeList m 0 (s.drawnElems k n)) := by
  refine h.writeList (by simpa using hn) fun v hv => ?_
  obtain ⟨x, -, rfl⟩ := List.mem_map.mp hv
  exact pattern_lt (Width.bits_le _) _

/-- A writer that grew wrote below its capacity only. -/
theorem Sink.Grows.bytesOk {k k' : Sink} (h : k.Grows k') {n : Nat} (hcap : k.bw.cap.toNat ≤ n) (ho : BytesOk n k.out) :
    BytesOk n k'.out :=
  ⟨h.wf ho.wf, h.within n hcap ho.within⟩

/-! ## A completion keeps the invariant -/

theorem Effect.memoriesOk {s t : State} (h : Effect s t) (hs : Inv s) : MemoriesOk t := by
  obtain ⟨hcoef, hout, hstage⟩ := (memoriesOk_iff s).mp hs.memories
  cases h with
  | raised | done | opened => exact (memoriesOk_iff _).mpr ⟨hcoef, hout, hstage⟩
  | wrote k hk | full k hk | raw k hk =>
    exact (memoriesOk_iff _).mpr ⟨hcoef, hk.grows.bytesOk hs.capIn hout, hstage⟩
  | stored vals hg hl =>
    obtain ⟨-, -, -, hfit⟩ := State.geometryError_none hg
    exact (memoriesOk_iff _).mpr ⟨hcoef.writePatterns (hl ▸ hfit), hout, hstage⟩
  | encoded img he hl hlt =>
    obtain ⟨hg, hcap⟩ := State.encodeError_none he
    obtain ⟨-, -, -, hfit⟩ := State.geometryError_none hg
    refine (memoriesOk_iff _).mpr ⟨?_, ?_, hstage⟩
    · rw [State.encodeSuccess_coef]
      exact hcoef.writePatterns (by simpa [magnitudes, zeroDc, hl] using hfit)
    · rw [State.encodeSuccess_out]
      exact hout.writeList (by rw [Nat.zero_add]; exact hlt.le.trans hcap)
  | overflowed he =>
    obtain ⟨hg, hcap⟩ := State.encodeError_none he
    obtain ⟨-, -, -, hfit⟩ := State.geometryError_none hg
    exact (memoriesOk_iff _).mpr ⟨hcoef.writeDrawn _ hfit, hout.writeList (by simpa using hcap), hstage⟩

theorem Effect.writerOk {s t : State} (h : Effect s t) (hs : WriterOk s.bw) : WriterOk t.bw := by
  cases h with
  | raised | done | stored => exact hs
  | opened => exact Writer.fresh_ok _
  | wrote k hk | full k hk | raw k hk => exact hk.ok hs
  | encoded img he hl hlt =>
    rw [State.encodeSuccess_bw]
    obtain ⟨hfree, hle, hacc, -⟩ := Writer.fresh_ok s.latch.cfg.capacity
    refine ⟨hfree, hle, hacc, ?_⟩
    simp only [Writer.fresh, BitVec.toNat_ofNat]
    exact (Nat.mod_le _ _).trans hlt.le
  | overflowed => exact State.drawnWriter_ok ..

theorem Effect.capIn {s t : State} (h : Effect s t) (hs : s.bw.cap.toNat ≤ s.params.outBytes.toNat) :
    t.bw.cap.toNat ≤ t.params.outBytes.toNat := by
  rw [h.params_eq]
  cases h with
  | raised | done | stored => exact hs
  | opened hcap => exact hcap
  | wrote k hk | full k hk | raw k hk => exact (congrArg BitVec.toNat hk.grows.cap).trans_le hs
  | encoded img he => rw [State.encodeSuccess_bw]; exact (State.encodeError_none he).2
  | overflowed he => exact (State.encodeError_none he).2

theorem Effect.statusOk {s t : State} (h : Effect s t) : StatusOk t := by
  obtain ⟨hidle, hdone, hend⟩ := h.finished
  refine ⟨fun hbusy => ?_, ?_, fun _ => hdone⟩
  · rw [hidle] at hbusy
    cases hbusy
  · obtain ⟨herr, hcause⟩ | ⟨herr, hcause⟩ := hend <;> simp [herr, hcause]

theorem Effect.inv {s t : State} (h : Effect s t) (hs : Inv s) : Inv t :=
  ⟨h.params_eq ▸ hs.params, h.memoriesOk hs, h.writerOk hs.writer, h.capIn hs.capIn, h.statusOk⟩

/-! ## Reset (70_reset_and_hazards.md R270, R271) -/

theorem Writer.reset_ok : WriterOk Writer.reset := Writer.fresh_ok 0

/-- The registers of power-on with memories in order. -/
theorem State.inv_resetRegisters {s : State} (hp : s.params.Legal) (hm : MemoriesOk s) : Inv s.resetRegisters :=
  ⟨hp, ⟨hm.coefWf, hm.outWf, hm.stageWf, hm.coefWithin, hm.outWithin, hm.stageWithin, hm.coefFits⟩, Writer.reset_ok,
    Nat.zero_le _, ⟨nofun, ⟨nofun, fun h => (h rfl).elim⟩, nofun⟩⟩

theorem State.inv_powerOn {p : Config.Params} (hp : p.Legal) : Inv (State.powerOn p) :=
  State.inv_resetRegisters (s := State.powerOn p) hp
    ⟨.nil, .nil, .nil, nofun, nofun, nofun, nofun⟩

/-- What a command could have written lies inside COEF, since its checks passed. -/
theorem State.coefAtRisk_le (s : State) : s.coefAtRisk ≤ s.params.nmax.toNat := by
  have hgeometry : s.geometryError = none → s.rows * s.cols ≤ s.params.nmax.toNat :=
    fun hg => (State.geometryError_none hg).2.2.2
  unfold State.coefAtRisk
  split
  iterate 2
    split
    · exact hgeometry ‹_›
    · exact Nat.zero_le _
  iterate 2
    split
    · exact hgeometry (State.encodeError_none ‹_›).1
    · exact Nat.zero_le _
  exact Nat.zero_le _

/-- And inside OUT, where CAP is. -/
theorem State.outAtRisk_le {s : State} (hcap : s.bw.cap.toNat ≤ s.params.outBytes.toNat) :
    s.outAtRisk ≤ s.params.outBytes.toNat := by
  unfold State.outAtRisk
  split
  iterate 2
    split
    · exact (State.encodeError_none ‹_›).2
    · exact Nat.zero_le _
  · split
    · exact hcap
    · exact max_le hcap (Nat.le_of_not_lt (s.badCapacity_iff.not.mp ‹_›))
  iterate 6 exact hcap
  iterate 4 exact Nat.zero_le _

theorem State.memoriesOk_abandon {s : State} (hs : Inv s) : MemoriesOk s.abandon := by
  obtain ⟨hcoef, hout, hstage⟩ := (memoriesOk_iff s).mp hs.memories
  exact (memoriesOk_iff _).mpr ⟨hcoef.writeDrawn _ s.coefAtRisk_le,
    hout.writeList (by simpa using State.outAtRisk_le hs.capIn), hstage⟩

theorem State.inv_resetTxn {s : State} (hs : Inv s) : Inv s.resetTxn := by
  unfold State.resetTxn
  split
  · exact State.inv_resetRegisters (s := s.abandon) hs.params (State.memoriesOk_abandon hs)
  · exact State.inv_resetRegisters hs.params hs.memories

/-! ## A host transaction keeps the invariant -/

/-- The invariant looks at the parameters, the memories, the writer and STATUS with SEQ only. -/
theorem inv_of_parts {s t : State} (hs : Inv s) (hp : t.params = s.params) (hbw : t.bw = s.bw)
    (hcoef : CoefOk s.params t.coef) (hout : BytesOk s.params.outBytes.toNat t.out)
    (hstage : BytesOk s.params.stageBytes.toNat t.stage) (hst : StatusOk t) : Inv t :=
  ⟨hp ▸ hs.params, (memoriesOk_iff t).mpr (by rw [hp]; exact ⟨hcoef, hout, hstage⟩), hbw ▸ hs.writer,
    by rw [hbw, hp]; exact hs.capIn, hst⟩

theorem statusOk_congr {s t : State} (h : StatusOk s) (hseq : t.seq = s.seq) (hst : t.status = s.status) :
    StatusOk t :=
  ⟨hseq ▸ hst ▸ h.busyClear, hst ▸ h.errCause, hst ▸ h.errDone⟩

theorem HostEffect.inv {s t : State} (h : HostEffect s t) (hs : Inv s) : Inv t := by
  obtain ⟨hcoef, hout, hstage⟩ := (memoriesOk_iff s).mp hs.memories
  cases h with
  | replied | configured => exact inv_of_parts hs rfl rfl hcoef hout hstage (statusOk_congr hs.status rfl rfl)
  | accepted c hidle =>
    exact inv_of_parts hs rfl rfl hcoef hout hstage
      ⟨fun _ => ⟨rfl, rfl, rfl, rfl⟩, ⟨nofun, fun hcause => (hcause rfl).elim⟩, nofun⟩
  | lost hbusy =>
    exact inv_of_parts hs rfl rfl hcoef hout hstage ⟨hs.status.busyClear, hs.status.errCause, hs.status.errDone⟩
  | coef e v hidle he =>
    exact inv_of_parts hs rfl rfl (hcoef.write_pattern he _) hout hstage (statusOk_congr hs.status rfl rfl)
  | out b v hidle hb => exact inv_of_parts hs rfl rfl hcoef (hout.write hb v) hstage (statusOk_congr hs.status rfl rfl)
  | stage b v hidle hb => exact inv_of_parts hs rfl rfl hcoef hout (hstage.write hb v) (statusOk_congr hs.status rfl rfl)
  | reset => exact State.inv_resetTxn hs

/-! ## A step keeps the invariant -/

theorem State.inv_issue {s : State} (hs : Inv s) (rest : List Txn) : Inv (s.issue rest) := by
  obtain ⟨hcoef, hout, hstage⟩ := (memoriesOk_iff s).mp hs.memories
  exact inv_of_parts hs rfl rfl hcoef hout hstage (statusOk_congr hs.status rfl rfl)

theorem step_inv {s t : State} (hs : Inv s) (h : step s = .next t) : Inv t := by
  obtain ⟨-, he⟩ | ⟨x, rest, -, -, hx⟩ | ⟨-, -, rfl⟩ := step_cases h
  · exact (engineStep_effect he).inv hs
  · exact (hostStep_effect hx).inv (State.inv_issue hs rest)
  · exact hs

/-! ## What a completion leaves alone -/

/-- OUT at and past the capacity the command leaves (20_memory.md R63). -/
theorem Effect.out_past_cap {s t : State} (h : Effect s t) (hs : Inv s) {a : Nat} (ha : t.bw.cap.toNat ≤ a) :
    Memory.read t.out a = Memory.read s.out a := by
  have hcur := (h.writerOk hs.writer).curLe
  cases h with
  | raised | done | opened | stored => rfl
  | wrote k hk | full k hk | raw k hk => exact hk.grows.frame a (.inr (hcur.trans ha))
  | encoded img he hl hlt =>
    rw [State.encodeSuccess_bw] at ha
    rw [State.encodeSuccess_out]
    exact Memory.read_writeList_outside _ _ (.inr (by rw [Nat.zero_add]; exact hlt.le.trans ha))
  | overflowed =>
    exact Memory.read_writeList_outside _ _ (.inr (by rw [Nat.zero_add, State.drawnBytes_length]; exact ha))

/-! ## What a Reset while BUSY leaves alone (70_reset_and_hazards.md R271) -/

theorem State.resetTxn_of_busy {s : State} (h : s.seq = .busy) : s.resetTxn = s.abandon.resetRegisters := by
  rw [State.resetTxn, if_pos (s.busy_iff.mpr h)]

theorem State.resetTxn_out_of_busy {s : State} (h : s.seq = .busy) {a : Nat} (ha : s.outAtRisk ≤ a) :
    Memory.read s.resetTxn.out a = Memory.read s.out a := by
  rw [State.resetTxn_of_busy h]
  exact Memory.read_writeList_outside _ _ (.inr (by rwa [Nat.zero_add, State.drawnBytes_length]))

theorem State.resetTxn_coef_of_busy {s : State} (h : s.seq = .busy) {e : Nat} (he : s.coefAtRisk ≤ e) :
    Memory.read s.resetTxn.coef e = Memory.read s.coef e := by
  rw [State.resetTxn_of_busy h]
  exact Memory.read_writeList_outside _ _ (.inr (by rwa [Nat.zero_add, State.drawnElems_length]))

theorem State.resetTxn_out_eq_of_no_risk {s : State} (h : s.seq = .busy) (hrisk : s.outAtRisk = 0) :
    s.resetTxn.out = s.out := by
  rw [State.resetTxn_of_busy h]
  show Memory.writeList s.out 0 (s.drawnBytes 0 s.outAtRisk) = s.out
  rw [hrisk]
  rfl

theorem State.resetTxn_coef_eq_of_no_risk {s : State} (h : s.seq = .busy) (hrisk : s.coefAtRisk = 0) :
    s.resetTxn.coef = s.coef := by
  rw [State.resetTxn_of_busy h]
  show Memory.writeList s.coef 0 (s.drawnElems s.outAtRisk s.coefAtRisk) = s.coef
  rw [hrisk]
  rfl

/-- What each command puts at risk, whatever its checks say. -/
theorem State.coefAtRisk_le_image (s : State) : s.coefAtRisk ≤ s.rows * s.cols := by
  unfold State.coefAtRisk
  split
  iterate 4
    split
    · exact Nat.le_refl _
    · exact Nat.zero_le _
  exact Nat.zero_le _

theorem State.coefAtRisk_eq_zero {s : State}
    (h : decode s.latch.cmd ∉ [some .transform, some .quantize, some .encode, some .compress]) : s.coefAtRisk = 0 := by
  unfold State.coefAtRisk
  split
  iterate 4 exact (h (by simp [*])).elim
  rfl

theorem State.outAtRisk_eq_zero {s : State}
    (h : decode s.latch.cmd ∈ [some .transform, some .quantize, some .nop, none]) : s.outAtRisk = 0 := by
  simp only [List.mem_cons, List.not_mem_nil, or_false] at h
  rcases h with h | h | h | h <;> simp only [State.outAtRisk, h]

theorem State.outAtRisk_le_capacity {s : State} (h : decode s.latch.cmd ∈ [some .encode, some .compress]) :
    s.outAtRisk ≤ s.latch.cfg.capacity.toNat := by
  simp only [List.mem_cons, List.not_mem_nil, or_false] at h
  rcases h with h | h
  all_goals
    simp only [State.outAtRisk, h]
    split
    · exact Nat.le_refl _
    · exact Nat.zero_le _

theorem State.outAtRisk_le_max {s : State} (h : decode s.latch.cmd = some .bwReset) :
    s.outAtRisk ≤ max s.bw.cap.toNat s.latch.cfg.capacity.toNat := by
  simp only [State.outAtRisk, h]
  split
  · exact le_max_left ..
  · exact Nat.le_refl _

end Sys2Proof.Machine
end

section
/-! PROOFS. The statements about the invariant and about what commands and a Reset leave alone. -/

namespace Sys2Proof.Proofs

open Sys2Proof Sys2Proof.Machine Sys2Proof.Safety

/-- Settles O22: a step is a completion, a host transaction or nothing, and each effect of the first two keeps every part
of the invariant. -/
theorem everyStepKeepsTheInvariant : Obligations.EveryStepKeepsTheInvariant := by
  unfold Obligations.EveryStepKeepsTheInvariant
  exact fun _ _ hs h => step_inv hs h

/-- Settles O21: power-on is a reset of empty memories. -/
theorem invariantHoldsAtPowerOn : Obligations.InvariantHoldsAtPowerOn := by
  unfold Obligations.InvariantHoldsAtPowerOn
  exact ⟨fun _ => State.inv_powerOn, State.inv_powerOn (by decide)⟩

/-- Settles O23: none of the effects of a completion touches the Host's side. -/
theorem commandsLeaveTheHostsStateAlone : Obligations.CommandsLeaveTheHostsStateAlone := by
  unfold Obligations.CommandsLeaveTheHostsStateAlone
  intro s t h
  cases engineStep_effect h <;> exact ⟨rfl, rfl, rfl, rfl, rfl, rfl, rfl⟩

/-- Settles O24: the bit path stores below the cursor it leaves, which the invariant keeps below CAP; ENCODE and COMPRESS
store below the CAPACITY they leave in CAP. -/
theorem noStorePastTheCapacity : Obligations.NoStorePastTheCapacity := by
  unfold Obligations.NoStorePastTheCapacity
  exact fun _ _ hs h _ ha => (engineStep_effect h).out_past_cap hs ha

/-- Settles O20: what a Reset disturbs is below `State.outAtRisk` and `State.coefAtRisk`, which the latched command
bounds. -/
theorem resetWhileBusyTouchesOnlyTheCommandsMemory : Obligations.ResetWhileBusyTouchesOnlyTheCommandsMemory := by
  unfold Obligations.ResetWhileBusyTouchesOnlyTheCommandsMemory
  intro s t hbusy ht
  cases ht
  refine ⟨fun i hi hdec => ?_, fun i hi hdec => ?_, fun value imm8 n i hi hdec => ?_, fun hdec => ?_, fun hdec => ?_,
    fun hdec => ?_⟩
  · have hout : s.outAtRisk = 0 := State.outAtRisk_eq_zero (by rw [hdec]; simp at hi ⊢; tauto)
    exact ⟨State.resetTxn_out_eq_of_no_risk hbusy hout,
      fun e he => State.resetTxn_coef_of_busy hbusy (s.coefAtRisk_le_image.trans he)⟩
  · have hout : s.outAtRisk ≤ s.latch.cfg.capacity.toNat :=
      State.outAtRisk_le_capacity (by rw [hdec]; simpa using hi)
    exact ⟨fun e he => State.resetTxn_coef_of_busy hbusy (s.coefAtRisk_le_image.trans he),
      fun a ha => State.resetTxn_out_of_busy hbusy (hout.trans ha)⟩
  · simp only [List.mem_cons, List.not_mem_nil, or_false] at hi
    have hcoef : s.coefAtRisk = 0 := by
      rcases hi with rfl | rfl | rfl | rfl | rfl | rfl <;> exact State.coefAtRisk_eq_zero (by simp [hdec])
    have hout : s.outAtRisk = s.bw.cap.toNat := by
      rcases hi with rfl | rfl | rfl | rfl | rfl | rfl <;> simp only [State.outAtRisk, hdec]
    exact ⟨State.resetTxn_coef_eq_of_no_risk hbusy hcoef, fun a ha => State.resetTxn_out_of_busy hbusy (hout ▸ ha)⟩
  · have hout := State.outAtRisk_le_max hdec
    exact ⟨State.resetTxn_coef_eq_of_no_risk hbusy (State.coefAtRisk_eq_zero (by simp [hdec])),
      fun a hcap hcapacity => State.resetTxn_out_of_busy hbusy (hout.trans (max_le hcap hcapacity))⟩
  iterate 2
    exact ⟨State.resetTxn_coef_eq_of_no_risk hbusy (State.coefAtRisk_eq_zero (by simp [hdec])),
      State.resetTxn_out_eq_of_no_risk hbusy (State.outAtRisk_eq_zero (by simp [hdec]))⟩

end Sys2Proof.Proofs
end

section
/-! SUPPORT. The writer's primitives as 40_bitwriter.md writes them (R120, R122, R126): Emit with and without room, PutBits
with shifts and masks, and the bit string of a list of operations (R129). -/

namespace Sys2Proof.Machine

open Sys2Proof (Byte Word)
open Sys2Proof.Safety

/-! ## Emit (R120) -/

theorem Sink.emit_of_room {k : Sink} (h : k.bw.cur.toNat < k.bw.cap.toNat) (b : Byte) :
    k.emit b = ⟨{ k.bw with cur := k.bw.cur + 1 }, Memory.write k.out k.bw.cur.toNat b⟩ :=
  if_pos h

theorem Sink.emit_of_full {k : Sink} (h : k.bw.cap.toNat ≤ k.bw.cur.toNat) (b : Byte) :
    k.emit b = { k with bw := { k.bw with ovf := true } } :=
  if_neg (Nat.not_lt.mpr h)

theorem succ_eq_ofNat (a : Word) : a + 1 = BitVec.ofNat 32 (a.toNat + 1) := by
  apply BitVec.eq_of_toNat_eq
  simp

/-! ## Shifts and masks as the model computes them -/

/-- `(a << n) | (v & (2^n − 1))`: the two parts share no bit. -/
theorem shiftLeft_or_low (a v n : Nat) : (a <<< n) ||| (v &&& (2 ^ n - 1)) = a * 2 ^ n + v % 2 ^ n := by
  rw [Nat.and_two_pow_sub_one_eq_mod, ← Nat.shiftLeft_add_eq_or_of_lt (Nat.mod_lt _ (Nat.two_pow_pos n)),
    Nat.shiftLeft_eq]

theorem ofNat_and_byteMask (x : Nat) : BitVec.ofNat 8 (x &&& 0xFF) = BitVec.ofNat 8 x := by
  apply BitVec.eq_of_toNat_eq
  rw [show x &&& 0xFF = x % 2 ^ 8 from Nat.and_two_pow_sub_one_eq_mod x 8]
  simp

theorem ofNat_shiftRight_and_byteMask (t m : Nat) : BitVec.ofNat 8 ((t >>> m) &&& 0xFF) = BitVec.ofNat 8 (t / 2 ^ m) := by
  rw [ofNat_and_byteMask, Nat.shiftRight_eq_div_pow]

/-! ## Finish (R126) -/

theorem Sink.finish_of_empty {k : Sink} (h : k.bw.free.toNat = 8) : k.finish = k :=
  if_neg (by omega)

theorem Sink.finish_of_pending {k : Sink} (h : k.bw.free.toNat < 8) :
    k.finish = (k.emit (BitVec.ofNat 8 ((k.bw.acc.toNat <<< k.bw.free.toNat) &&& 0xFF))).setBits 0 8 k.bw.free.toNat := by
  rw [ofNat_and_byteMask, Nat.shiftLeft_eq]
  exact if_pos h

theorem msbBits_zero_value (n : Nat) : msbBits n 0 = List.replicate n false := by
  simp [msbBits, List.map_const']

/-! ## The bit string of a list of operations (R129) -/

theorem writerOp_grows (k : Sink) (op : WriterOp) : k.Grows (op.apply k) := by
  cases op with
  | put v n => exact k.putBits_grows v n
  | finish => exact k.finish_grows

theorem writerOp_bitcount (k : Sink) (op : WriterOp) :
    (op.apply k).bw.bitcount = k.bw.bitcount + BitVec.ofNat 64 (op.bits k).length := by
  cases op with
  | put v n => simp [WriterOp.apply, WriterOp.bits]
  | finish =>
    simp only [WriterOp.apply, WriterOp.bits, k.finish_eq]
    split <;> simp

/-- An operation appends its bits; a finish is a PutBits of padding zeros. -/
theorem writerOp_traces {k : Sink} {bits : List Bool} (h : k.Traces bits) {op : WriterOp}
    (hop : op.legal = true) : (op.apply k).Traces (bits ++ op.bits k) := by
  cases op with
  | put v n => exact Sink.traces_putBits h (of_decide_eq_true hop) v
  | finish =>
    simp only [WriterOp.apply, WriterOp.bits, k.finish_eq]
    split
    · rw [← msbBits_zero_value]
      exact Sink.traces_putBits h h.ok.freeLe 0
    · rwa [List.append_nil]

theorem runOps_grows (ops : List WriterOp) (k : Sink) : k.Grows (runOps k ops).1 := by
  induction ops generalizing k with
  | nil => exact Sink.Grows.refl k
  | cons op ops ih => exact (writerOp_grows k op).trans (ih _)

theorem runOps_bitcount (ops : List WriterOp) (k : Sink) :
    (runOps k ops).1.bw.bitcount = k.bw.bitcount + BitVec.ofNat 64 (runOps k ops).2.length := by
  induction ops generalizing k with
  | nil => simp [runOps]
  | cons op ops ih => simp only [runOps, ih, writerOp_bitcount, List.length_append, BitVec.ofNat_add, BitVec.add_assoc]

theorem runOps_traces {ops : List WriterOp} (hops : ∀ op ∈ ops, op.legal = true) {k : Sink} {bits : List Bool}
    (h : k.Traces bits) : (runOps k ops).1.Traces (bits ++ (runOps k ops).2) := by
  induction ops generalizing k bits with
  | nil => simpa [runOps] using h
  | cons op ops ih =>
    obtain ⟨hop, hrest⟩ := List.forall_mem_cons.mp hops
    have := ih hrest (writerOp_traces h hop)
    rwa [List.append_assoc] at this

/-- Without overflow the string's length is what the cursor and the headroom say. -/
theorem Sink.Traces.length_eq {k : Sink} {bits : List Bool} (h : k.Traces bits) (hovf : k.bw.ovf = false) :
    bits.length = 8 * k.bw.cur.toNat + (8 - k.bw.free.toNat) := by
  rw [← h.whole hovf, List.length_append, storedBits_length h.stored, pendingBits, msbBits_length]

end Sys2Proof.Machine
end

section
/-! PROOFS. The statements about the writer's primitives and its bit string (40_bitwriter.md R120, R122, R129). -/

namespace Sys2Proof.Proofs

open Sys2Proof Sys2Proof.Machine Sys2Proof.Safety

/-- Settles O25: Emit's two cases, and PutBits's two: a byte is flushed exactly when the headroom is used up. -/
theorem emitAndPutBitsFollowTheirRules : Obligations.EmitAndPutBitsFollowTheirRules := by
  unfold Obligations.EmitAndPutBitsFollowTheirRules
  refine ⟨fun k b => ⟨fun hroom => ?_, fun hfull => Sink.emit_of_full hfull b⟩, fun k v n hk hn => ?_⟩
  · rw [Sink.emit_of_room hroom, succ_eq_ofNat]
    exact ⟨rfl, Memory.read_write_same .., fun a ha => Memory.read_write_other _ _ ha⟩
  · intro t f k1 f'
    have ht : t = k.bw.acc.toNat * 2 ^ n + v % 2 ^ n := shiftLeft_or_low ..
    have hfree := hk.freePos
    have hfree8 := hk.freeLe
    have hok := Sink.putBits_ok hk hn v
    rcases k.putBits_cases v n with ⟨hle, hput⟩ | ⟨hlt, hput⟩
    · have hf : f ≤ 0 := by omega
      have hf' : f' = f + 8 := if_pos hf
      have hk1 : k1 = k.emit (BitVec.ofNat 8 (t / 2 ^ (n - k.bw.free.toNat))) := by
        rw [← ofNat_shiftRight_and_byteMask, show n - k.bw.free.toNat = (-f).toNat by omega]
        exact if_pos hf
      rw [hput, ← ht, ← hk1] at hok ⊢
      refine ⟨rfl, rfl, rfl, rfl, ?_, ?_, ?_, hok⟩
      · rw [Sink.setBits_acc, Nat.and_two_pow_sub_one_eq_mod,
          show (8 - f').toNat = 8 - (k.bw.free.toNat + 8 - n) by omega]
      · rw [Sink.setBits_free _ _ _ (by omega)]
        omega
      · rw [Sink.setBits_bitcount, hk1, Sink.emit_bitcount]
    · have hf : ¬ f ≤ 0 := by omega
      have hf' : f' = f := if_neg hf
      have hk1 : k1 = k := if_neg hf
      rw [hput, ← ht] at hok ⊢
      rw [hk1]
      refine ⟨rfl, rfl, rfl, rfl, ?_, ?_, rfl, hok⟩
      · rw [Sink.setBits_acc, Nat.and_two_pow_sub_one_eq_mod,
          show (8 - f').toNat = 8 - (k.bw.free.toNat - n) by omega]
      · rw [Sink.setBits_free _ _ _ (by omega)]
        omega

/-- Settles O32: a fresh writer traces the empty string, and every operation appends its bits to the string traced. -/
theorem writerHoldsItsBitString : Obligations.WriterHoldsItsBitString := by
  unfold Obligations.WriterHoldsItsBitString
  intro cap out ops hops k bits
  have htrace : k.Traces bits := runOps_traces hops (Sink.traces_fresh cap out)
  have hcap : k.bw.cap = cap := (runOps_grows ops ⟨Writer.fresh cap, out⟩).cap
  refine ⟨?_, fun hovf => ⟨htrace.whole hovf, htrace.length_eq hovf⟩, fun hovf => ?_⟩
  · exact (runOps_bitcount ops _).trans (BitVec.zero_add _)
  · obtain ⟨hcur, hstored, -⟩ := htrace.dropped hovf
    exact ⟨hcur.trans hcap, hcap ▸ hstored⟩

end Sys2Proof.Proofs
end

section
/-! SUPPORT. The bit-path commands (40_bitwriter.md R122 to R130, 43_quadtree.md R180, R190): one equation per outcome of
each, and everything that one of them can leave, said once. -/

namespace Sys2Proof.Machine

open Sys2Proof (Byte Nibble)
open Sys2Proof.Safety

/-! ## One equation per outcome -/

theorem exec_bwBits_of_le (s : State) (value : Byte) {n : Nibble} (h : n.toNat ≤ 8) :
    exec (.bwBits value n) s = .next (s.withSink (s.sink.putBits value.toNat n.toNat)).complete :=
  if_neg (Nat.not_lt.mpr h)

theorem exec_bwBits_of_lt (s : State) (value : Byte) {n : Nibble} (h : 8 < n.toNat) :
    exec (.bwBits value n) s = .next (s.raise .illegal) :=
  if_pos h

theorem exec_bwNibble (s : State) (imm8 : Byte) :
    exec (.bwNibble imm8) s = .next (s.withSink (s.sink.putBits (imm8.toNat % 16) 4)).complete := rfl

theorem exec_bwNibbles_of_written {s : State} (hn : ¬ badArgument s .bwNibbles)
    (hw : stageWritten s s.latch.cfg.arg0.toNat) :
    exec .bwNibbles s =
      .next (s.withSink (s.sink.putAll (nibbleChunks (stageBytes s s.latch.cfg.arg0.toNat)))).complete := by
  rw [exec, execBwNibbles, if_neg (s.badStageCount_iff.not.mpr hn), State.loadStage_of_written hw]

theorem exec_bwFinish (s : State) : exec .bwFinish s = .next (s.withSink s.sink.finish).complete := rfl

theorem completedAs_withSink (s : State) (k : Sink) :
    completedAs s (s.withSink k).complete (doneStatus s) k.bw k.out s.coef := rfl

/-! ## Nibbles one by one (R124) -/

/-- The writer left by a completed BW_NIBBLE is where the next one starts, and completing twice is completing once. -/
theorem runCommands_bwNibble (b : Byte) (bs : List Byte) (s : State) :
    runCommands ((b :: bs).map Instr.bwNibble) s =
      .next (s.withSink (s.sink.putAll (nibbleChunks (b :: bs)))).complete := by
  induction bs generalizing b s with
  | nil => rfl
  | cons c cs ih => exact ih c (s.withSink (s.sink.putBits (b.toNat % 16) 4)).complete

/-! ## Everything a bit-path command can leave -/

/-- A state a bit-path command completes in: the writer grown from the old one, RESULT set by BW_RAW alone, and CAPACITY
reported by QT_ENCODE alone. -/
inductive BitPathEnd (i : Instr) (s : State) : State → Prop
  | intro (k : Sink) (result err : Bool) (c : Cause) (hk : s.sink.Grows k)
      (hresult : i ≠ .bwRaw → result = s.status.result) (hc : i ≠ .qtEncode → c ≠ .capacity) :
      BitPathEnd i s (((s.withSink k).setResult result).finishWith err c)

theorem BitPathEnd.raise {i : Instr} {s : State} {c : Cause} (hc : c ≠ .capacity) : BitPathEnd i s (s.raise c) :=
  .intro s.sink s.status.result true c (Sink.Grows.refl _) (fun _ => rfl) fun _ => hc

theorem BitPathEnd.complete {i : Instr} {s : State} {k : Sink} (hk : s.sink.Grows k) :
    BitPathEnd i s (s.withSink k).complete :=
  .intro k s.status.result false .none hk (fun _ => rfl) fun _ => nofun

theorem BitPathEnd.finishQuadrant {s : State} {k : Sink} (hk : s.sink.Grows k) :
    BitPathEnd .qtEncode s (s.withSink k).finishQuadrant := by
  unfold State.finishQuadrant
  split
  · exact .intro k s.status.result true .capacity hk (fun _ => rfl) fun h => (h rfl).elim
  · exact .complete hk

theorem exec_bitPath {i : Instr} {s t : State} {value imm8 : Byte} {n : Nibble}
    (hi : i ∈ [Instr.bwBits value n, .bwNibble imm8, .bwNibbles, .bwFinish, .bwRaw, .qtEncode])
    (h : exec i s = .next t) : BitPathEnd i s t := by
  simp only [List.mem_cons, List.not_mem_nil, or_false] at hi
  rcases hi with rfl | rfl | rfl | rfl | rfl | rfl
  · simp only [exec, execBwBits] at h
    split at h
    · cases h; exact .raise nofun
    · cases h; exact .complete (Sink.putBits_grows _ _ _)
  · cases h; exact .complete (Sink.putBits_grows _ _ _)
  · simp only [exec, execBwNibbles] at h
    split at h
    · cases h; exact .raise nofun
    · split at h
      · cases h
      · cases h; exact .complete (Sink.putAll_grows _ _)
  · cases h; exact .complete (Sink.finish_grows _)
  · simp only [exec, execBwRaw] at h
    split at h
    · cases h; exact .raise nofun
    · split at h
      · cases h; exact .intro s.sink false false .none (Sink.Grows.refl _) (fun hne => (hne rfl).elim) fun _ => nofun
      · split at h
        · cases h
        · rename_i hroom bytes hbytes
          have hlen := State.loadStage_length hbytes
          cases h
          exact .intro _ true false .none (Sink.putRaw_grows (by simp only [State.sink]; omega))
            (fun hne => (hne rfl).elim) fun _ => nofun
  · simp only [exec, execQtEncode] at h
    split at h
    · rename_i hc
      cases h
      exact .raise (ne_of_mem_of_not_mem (quadrantError_cause hc) (by decide))
    · split at h
      · cases h
      · cases h; exact .finishQuadrant (Sink.putAll_grows _ _)

theorem BitPathEnd.cause_ne_capacity {i : Instr} {s t : State} (h : BitPathEnd i s t) (hi : i ≠ .qtEncode) :
    t.status.cause ≠ .capacity := by
  obtain ⟨k, result, err, c, -, -, hc⟩ := h
  exact hc hi

theorem exec_bwReset_cause_ne_capacity {s t : State} (h : exec .bwReset s = .next t) : t.status.cause ≠ .capacity := by
  simp only [exec, execBwReset] at h
  split at h <;> cases h <;> exact nofun

/-! ## When QT_ENCODE, ENCODE and COMPRESS report CAPACITY (43_quadtree.md R190, 44_driver.md R219) -/

theorem State.finishQuadrant_cause_capacity_iff (s : State) :
    s.finishQuadrant.status.cause = .capacity ↔ s.finishQuadrant.bw.ovf = true := by
  unfold State.finishQuadrant
  split
  · exact iff_of_true rfl ‹_›
  · exact iff_of_false nofun ‹_›

theorem State.encodeOutcome_cause_capacity_iff (s : State) (img : List Int) :
    (s.encodeOutcome img).status.cause = .capacity ↔ s.latch.cfg.capacity.toNat ≤ streamLength s img := by
  by_cases hlt : streamLength s img < s.latch.cfg.capacity.toNat
  · rw [State.encodeOutcome_of_lt hlt, State.encodeSuccess_status]
    exact iff_of_false nofun (Nat.not_le.mpr hlt)
  · rw [State.encodeOutcome_of_not_lt hlt, State.encodeOverflow_status]
    exact iff_of_true rfl (Nat.not_lt.mp hlt)

/-- An ENCODE that passes its checks and completes has read the image. -/
theorem exec_encode_inv {s t : State} (he : s.encodeError = none) (h : exec .encode s = .next t) :
    imageWritten s ∧ t = s.encodeOutcome (image s) := by
  simp only [exec, execEncode, he] at h
  split at h
  · cases h
  · obtain ⟨hw, rfl⟩ := (s.loadImage_eq_some_iff _).mp ‹_›
    cases h
    exact ⟨hw, rfl⟩

theorem exec_compress_inv {s t : State} (he : s.encodeError = none) (h : exec .compress s = .next t) :
    imageWritten s ∧ t = s.encodeOutcome (compressImage s.w s.rows s.cols s.scale (image s)) := by
  simp only [exec, execCompress, he] at h
  split at h
  · cases h
  · obtain ⟨hw, rfl⟩ := (s.loadImage_eq_some_iff _).mp ‹_›
    cases h
    exact ⟨hw, rfl⟩

end Sys2Proof.Machine
end

section
/-! PROOFS. The statements about the bit-path commands (40_bitwriter.md section 2) and about CAPACITY (60_exceptions.md
R242). -/

namespace Sys2Proof.Proofs

open Sys2Proof Sys2Proof.Machine Sys2Proof.Safety

/-- Settles O27: each command is its primitive on the state's writer, completed. -/
theorem bitPathCommandsComplete : Obligations.BitPathCommandsComplete := by
  unfold Obligations.BitPathCommandsComplete
  refine ⟨fun s value n hn => ?_, fun s value n hn => ?_, fun s imm8 => ?_, fun s hgood hw => ?_, fun s => ?_⟩
  · exact ⟨_, exec_bwBits_of_le s value hn, completedAs_withSink ..⟩
  · exact ⟨_, exec_bwBits_of_lt s value hn, completedAs_raise ..⟩
  · exact ⟨_, exec_bwNibble s imm8, completedAs_withSink ..⟩
  · exact ⟨_, exec_bwNibbles_of_written hgood hw, completedAs_withSink ..⟩
  · exact ⟨_, exec_bwFinish s, completedAs_withSink ..⟩

/-- Settles O28: with FREE = 8 finish does nothing, otherwise it emits one byte and empties the accumulator. -/
theorem finishFlushesLeftJustified : Obligations.FinishFlushesLeftJustified := by
  unfold Obligations.FinishFlushesLeftJustified
  refine fun s _ => ⟨_, exec_bwFinish s, fun h8 => ?_, fun hlt => ?_⟩
  · rw [Sink.finish_of_empty (k := s.sink) h8]
    exact completedAs_withSink ..
  · intro e
    have hcount : e.bw.bitcount = s.bw.bitcount := Sink.emit_bitcount ..
    rw [Sink.finish_of_pending (k := s.sink) hlt, ← hcount]
    exact completedAs_withSink ..

/-- Settles O29: one BW_NIBBLE after another leaves the writer of the whole list of PutBits. -/
theorem nibblesEqualSingleNibbles : Obligations.NibblesEqualSingleNibbles := by
  unfold Obligations.NibblesEqualSingleNibbles
  intro s hgood hw hpos
  refine ⟨_, exec_bwNibbles_of_written hgood hw, ?_⟩
  obtain ⟨b, bs, hbytes⟩ : ∃ b bs, stageBytes s s.latch.cfg.arg0.toNat = b :: bs :=
    List.exists_cons_of_length_pos (by rwa [stageBytes_length])
  rw [hbytes]
  exact runCommands_bwNibble b bs s

/-- Settles O31: the writer grew from the old one, and only RESULT and the outcome of STATUS are set beside it. -/
theorem bitPathFrame : Obligations.BitPathFrame := by
  unfold Obligations.BitPathFrame
  intro s t value imm8 n i hi h hcur
  obtain ⟨k, result, err, c, hk, hresult, -⟩ := exec_bitPath hi h
  exact ⟨hk.frame, hk.curLe, hk.capLe hcur, hresult, rfl, hk.cap, rfl⟩

/-- Settles O9: ENCODE and COMPRESS fail by the length test, QT_ENCODE by the overflow flag, and the BW commands end with
no CAPACITY. -/
theorem capacityErrorsAreTheLengthTest : Obligations.CapacityErrorsAreTheLengthTest := by
  unfold Obligations.CapacityErrorsAreTheLengthTest
  refine ⟨fun s t hgood hfit h => ?_, fun s t hgood hfit h => ?_, fun s t hgood hfit h => ?_,
    fun s t value imm8 n i hi h => ?_⟩
  · obtain ⟨-, rfl⟩ := exec_encode_inv (State.encodeError_eq_none hgood hfit) h
    exact s.encodeOutcome_cause_capacity_iff _
  · obtain ⟨-, rfl⟩ := exec_compress_inv (State.encodeError_eq_none hgood hfit) h
    exact s.encodeOutcome_cause_capacity_iff _
  · simp only [exec, execQtEncode, State.quadrantError_eq_none hgood hfit] at h
    split at h
    · cases h
    · cases h
      exact State.finishQuadrant_cause_capacity_iff _
  · obtain rfl | hi := List.mem_cons.mp hi
    · exact exec_bwReset_cause_ne_capacity h
    · have hmem : i ∈ [Instr.bwBits value n, .bwNibble imm8, .bwNibbles, .bwFinish, .bwRaw, .qtEncode] := by
        simp only [List.mem_cons, List.not_mem_nil, or_false] at hi ⊢
        tauto
      refine (exec_bitPath hmem h).cause_ne_capacity ?_
      rintro rfl
      simp at hi

end Sys2Proof.Proofs
end

section
/-! SUPPORT. Commands and the live configuration registers (10_state.md R45): a completion is the same whatever they hold. -/

namespace Sys2Proof.Machine

open Sys2Proof.Safety

/-- The state with other live configuration registers. -/
def State.withCfg (s : State) (c : ConfigRegs) : State := { s with cfg := c }

/-- An outcome with its next state changed, its faults kept. -/
def mapNext (f : State → State) : Host.Outcome State Fault Refusal → Host.Outcome State Fault Refusal
  | .next t => .next (f t)
  | .fault e => .fault e
  | .refused r => .refused r

theorem ite_eq_mapNext {p q : Prop} [Decidable p] [Decidable q] (hpq : p ↔ q) {f : State → State}
    {a a' b b' : Host.Outcome State Fault Refusal} (ha : a' = mapNext f a) (hb : b' = mapNext f b) :
    (if p then a' else b') = mapNext f (if q then a else b) := by
  rw [apply_ite (mapNext f), ← ha, ← hb]
  exact if_congr hpq rfl rfl

section
variable (s : State) (c : ConfigRegs)

/-! ## What a command reads of the state -/

@[simp] theorem State.withCfg_latch : (s.withCfg c).latch = s.latch := rfl
@[simp] theorem State.withCfg_w : (s.withCfg c).w = s.w := rfl
@[simp] theorem State.withCfg_scale : (s.withCfg c).scale = s.scale := rfl
@[simp] theorem State.withCfg_rows : (s.withCfg c).rows = s.rows := rfl
@[simp] theorem State.withCfg_cols : (s.withCfg c).cols = s.cols := rfl
@[simp] theorem State.withCfg_out : (s.withCfg c).out = s.out := rfl
@[simp] theorem State.withCfg_bw : (s.withCfg c).bw = s.bw := rfl
@[simp] theorem State.withCfg_sink : (s.withCfg c).sink = s.sink := rfl
@[simp] theorem State.withCfg_badCapacity : (s.withCfg c).badCapacity = s.badCapacity := rfl
@[simp] theorem State.withCfg_badStageCount : (s.withCfg c).badStageCount = s.badStageCount := rfl
@[simp] theorem State.withCfg_geometryError : (s.withCfg c).geometryError = s.geometryError := rfl
@[simp] theorem State.withCfg_encodeError : (s.withCfg c).encodeError = s.encodeError := rfl
@[simp] theorem State.withCfg_quadrantError : (s.withCfg c).quadrantError = s.quadrantError := rfl
@[simp] theorem State.withCfg_blockIndices : (s.withCfg c).blockIndices = s.blockIndices := rfl
@[simp] theorem State.withCfg_blockChunks (vals : List Int) : (s.withCfg c).blockChunks vals = s.blockChunks vals := rfl
@[simp] theorem State.withCfg_loadImage : (s.withCfg c).loadImage = s.loadImage := rfl
@[simp] theorem State.withCfg_loadCoef (es : List Nat) : (s.withCfg c).loadCoef es = s.loadCoef es := rfl
@[simp] theorem State.withCfg_loadStage (n : Nat) : (s.withCfg c).loadStage n = s.loadStage n := rfl
@[simp] theorem State.withCfg_streamLength (img : List Int) : streamLength (s.withCfg c) img = streamLength s img := rfl

/-! ## What a command leaves -/

theorem State.withCfg_encodeSuccess (img : List Int) :
    (s.withCfg c).encodeSuccess img = (s.encodeSuccess img).withCfg c := by
  have hbytes : ((s.withCfg c).encodeSuccess img).bytesUsed = (s.encodeSuccess img).bytesUsed := by
    simp only [State.encodeSuccess_bytesUsed, State.withCfg_streamLength]
  have hbw : ((s.withCfg c).encodeSuccess img).bw = (s.encodeSuccess img).bw := by
    simp only [State.encodeSuccess_bw, State.withCfg_streamLength, State.withCfg_latch, State.withCfg_w,
      State.withCfg_rows, State.withCfg_cols]
  have hout : ((s.withCfg c).encodeSuccess img).out = ((s.encodeSuccess img).withCfg c).out := by
    simp only [State.encodeSuccess_out, State.withCfg_out, State.withCfg_latch, State.withCfg_w, State.withCfg_rows,
      State.withCfg_cols]
  exact State.ext_fields rfl rfl rfl rfl rfl hbytes rfl rfl hbw rfl hout rfl rfl rfl rfl rfl

theorem State.withCfg_encodeOverflow : (s.withCfg c).encodeOverflow = s.encodeOverflow.withCfg c := rfl

theorem State.withCfg_encodeOutcome (img : List Int) :
    (s.withCfg c).encodeOutcome img = (s.encodeOutcome img).withCfg c := by
  by_cases hlt : streamLength s img < s.latch.cfg.capacity.toNat
  · rw [State.encodeOutcome_of_lt hlt, State.encodeOutcome_of_lt (by simpa using hlt), State.withCfg_encodeSuccess]
  · rw [State.encodeOutcome_of_not_lt hlt, State.encodeOutcome_of_not_lt (by simpa using hlt),
      State.withCfg_encodeOverflow]

theorem State.withCfg_finishQuadrant : (s.withCfg c).finishQuadrant = s.finishQuadrant.withCfg c := by
  unfold State.finishQuadrant
  rw [State.withCfg_bw]
  split <;> rfl

/-- Every command: the same checks, the same loads, and a completion that keeps the live registers. -/
theorem exec_withCfg (i : Instr) : exec i (s.withCfg c) = mapNext (·.withCfg c) (exec i s) := by
  cases i with
  | nop | bwNibble | bwFinish => rfl
  | compress | encode =>
    simp only [exec, execCompress, execEncode, State.withCfg_encodeError, State.withCfg_loadImage]
    split
    · rfl
    · split
      · rfl
      · exact congrArg Host.Outcome.next (s.withCfg_encodeOutcome c _)
  | transform =>
    simp only [exec, execTransform, State.withCfg_geometryError, State.withCfg_loadImage]
    split
    · rfl
    · refine ite_eq_mapNext Iff.rfl rfl ?_
      split <;> rfl
  | quantize =>
    simp only [exec, execQuantize, State.withCfg_geometryError, State.withCfg_loadImage]
    split
    · rfl
    · refine ite_eq_mapNext Iff.rfl rfl ?_
      split <;> rfl
  | qtEncode =>
    simp only [exec, execQtEncode, State.withCfg_quadrantError, State.withCfg_loadCoef, State.withCfg_blockIndices]
    split
    · rfl
    · split
      · rfl
      · exact congrArg Host.Outcome.next ((s.withSink _).withCfg_finishQuadrant c)
  | bwReset => exact ite_eq_mapNext Iff.rfl rfl rfl
  | bwBits value n => exact ite_eq_mapNext Iff.rfl rfl rfl
  | bwNibbles =>
    refine ite_eq_mapNext Iff.rfl rfl ?_
    simp only [State.withCfg_loadStage, State.withCfg_latch]
    split <;> rfl
  | bwRaw =>
    refine ite_eq_mapNext Iff.rfl rfl (ite_eq_mapNext Iff.rfl rfl ?_)
    simp only [State.withCfg_loadStage, State.withCfg_latch]
    split <;> rfl

end

end Sys2Proof.Machine
end

section
/-! PROOFS. The statement about LATCH (10_state.md R45). -/

namespace Sys2Proof.Proofs

open Sys2Proof Sys2Proof.Machine

/-- Settles O17: a completion commutes with a change of the live registers, `exec_withCfg`. -/
theorem commandsReadOnlyTheLatch : Obligations.CommandsReadOnlyTheLatch := by
  unfold Obligations.CommandsReadOnlyTheLatch
  refine ⟨fun s => ⟨rfl, rfl, rfl⟩, fun i s c => (exec_withCfg s c i).trans ?_⟩
  cases exec i s <;> rfl

end Sys2Proof.Proofs
end

section
/-! SUPPORT. The Host's side in detail (10_state.md R20 to R39, 20_memory.md R60 to R73): the fields of the STATUS word, a
configuration register written and read back, one unit of a memory written and read back, and the turn of a step. -/

namespace Sys2Proof.Machine

open Sys2Proof (Byte Word Elem Nibble)

/-! ## The fields of a packed register -/

theorem getLsbD_of_toNat {n i : Nat} {x : BitVec n} {b : Bool} (h : x.toNat / 2 ^ i % 2 = b.toNat) :
    x.getLsbD i = b := by
  rw [BitVec.getLsbD, Nat.testBit_eq_decide_div_mod_eq, h]
  cases b <;> rfl

theorem extractLsb'_of_toNat {n i m : Nat} {x : BitVec n} {y : BitVec m} (h : x.toNat / 2 ^ i % 2 ^ m = y.toNat) :
    x.extractLsb' i m = y := by
  apply BitVec.eq_of_toNat_eq
  rw [BitVec.extractLsb'_toNat, Nat.shiftRight_eq_div_pow, h]

theorem extractLsb'_eq_zero_of_toNat {n i m : Nat} {x : BitVec n} (h : x.toNat / 2 ^ i % 2 ^ m = 0) :
    x.extractLsb' i m = 0 :=
  extractLsb'_of_toNat (h.trans BitVec.toNat_zero.symm)

/-- The STATUS word as a number (10_state.md R22). -/
theorem State.statusWord_toNat (s : State) : s.statusWord.toNat =
    s.status.cmdLost.toNat * 2 ^ 9 + s.bw.ovf.toNat * 2 ^ 8 + s.status.cause.code.toNat * 2 ^ 4
      + s.status.result.toNat * 2 ^ 3 + s.status.err.toNat * 2 ^ 2 + s.status.done.toNat * 2 + s.busy.toNat := by
  simp only [State.statusWord, toNat_append_eq, BitVec.toNat_ofBool]
  simp
  omega

/-- Each field of STATUS at its place, and nothing above them. -/
theorem State.statusWord_fields (s : State) :
    s.statusWord.getLsbD 0 = s.busy ∧ s.statusWord.getLsbD 1 = s.status.done ∧
    s.statusWord.getLsbD 2 = s.status.err ∧ s.statusWord.getLsbD 3 = s.status.result ∧
    s.statusWord.extractLsb' 4 4 = s.status.cause.code ∧
    s.statusWord.getLsbD 8 = s.bw.ovf ∧ s.statusWord.getLsbD 9 = s.status.cmdLost ∧
    s.statusWord.extractLsb' 10 22 = 0 := by
  have hword := s.statusWord_toNat
  have hbusy := s.busy.toNat_le
  have hdone := s.status.done.toNat_le
  have herr := s.status.err.toNat_le
  have hresult := s.status.result.toNat_le
  have hcause := s.status.cause.code.isLt
  have hovf := s.bw.ovf.toNat_le
  have hlost := s.status.cmdLost.toNat_le
  refine ⟨getLsbD_of_toNat ?_, getLsbD_of_toNat ?_, getLsbD_of_toNat ?_, getLsbD_of_toNat ?_, extractLsb'_of_toNat ?_,
    getLsbD_of_toNat ?_, getLsbD_of_toNat ?_, extractLsb'_eq_zero_of_toNat ?_⟩
  all_goals omega

/-! ## BW.OVF between acceptance and completion (R43, 40_bitwriter.md R120) -/

theorem State.writeReg_bw (s : State) (r : Reg) (v : Word) : (s.writeReg r v).bw = s.bw := by
  unfold State.writeReg State.writeCmd
  split
  · split <;> rfl
  · rfl

/-- No host transaction but Reset touches the writer. -/
theorem hostStep_bw {x : Txn} {s t : State} (h : hostStep x s = .next t) (hx : x ≠ .reset) : t.bw = s.bw := by
  cases x with
  | regRead a | coefRead a | outRead a | stageRead a =>
    obtain ⟨r, n, rfl⟩ := hostRead_effect (a := a) (by simp) h
    rfl
  | regWrite a v =>
    simp only [hostStep, hostRegWrite] at h
    split at h
    · cases h
    · cases h; exact s.writeReg_bw _ v
  | coefWrite a v | outWrite a v | stageWrite a v =>
    simp only [hostStep, hostCoefWrite, hostOutWrite, hostStageWrite] at h
    split at h
    · cases h
    · split at h <;> cases h
      rfl
  | reset => exact (hx rfl).elim

/-! ## A configuration register (10_state.md R20, R23 to R27) -/

/-- The registers the Host configures. -/
def configRegs : List Reg := [.nx, .ny, .scale, .capacity, .arg0, .arg1, .arg2, .arg3]

theorem hostStep_regWrite_config {off : Nat} {r : Reg} (s : State) (v : Word) (h : regAt off = some r) (hr : r ≠ .cmd) :
    hostStep (.regWrite off v) s = .next { s with cfg := s.cfg.write r v } := by
  rw [hostStep_regWrite_of_regAt s v h, State.writeReg, if_neg hr]

theorem State.regValue_write_same (s : State) {r : Reg} (hr : r ∈ configRegs) (v : Word) :
    State.regValue { s with cfg := s.cfg.write r v } r = v := by
  simp only [configRegs, List.mem_cons, List.not_mem_nil, or_false] at hr
  rcases hr with rfl | rfl | rfl | rfl | rfl | rfl | rfl | rfl <;> rfl

theorem ConfigRegs.write_of_not_config (c : ConfigRegs) {r : Reg} (hr : r ∉ configRegs) (v : Word) :
    c.write r v = c := by
  cases r with
  | nx | ny | scale | capacity | arg0 | arg1 | arg2 | arg3 => exact (hr (by decide)).elim
  | _ => rfl

/-- Every other register keeps its value: only the eight read the configuration at all. -/
theorem State.regValue_write_other (s : State) {r q : Reg} (hq : r ≠ q) (v : Word) :
    State.regValue { s with cfg := s.cfg.write r v } q = s.regValue q := by
  cases q with
  | nx | ny | scale | capacity | arg0 | arg1 | arg2 | arg3 =>
    simp only [State.regValue, ConfigRegs.write]
    cases r <;> simp at hq ⊢
  | _ => rfl

theorem isResult_of_mem_configRegs {r : Reg} (hr : r ∈ configRegs) : r.isResult = false := by
  revert r; decide

theorem ne_cmd_of_mem_configRegs {r : Reg} (hr : r ∈ configRegs) : r ≠ .cmd := by
  revert r; decide

/-- A configuration register written by the Host reads back, idle or BUSY, and no other register changes. -/
theorem hostStep_config_readback {off : Nat} {r : Reg} (s : State) (v : Word) (h : regAt off = some r)
    (hr : r ∈ configRegs) :
    ∃ t, hostStep (.regWrite off v) s = .next t ∧
      hostStep (.regRead off) t = .next { t with replies := .reg v :: t.replies } ∧
      t = { s with cfg := t.cfg } ∧ ∀ q : Reg, regAt off ≠ some q → t.regValue q = s.regValue q := by
  refine ⟨_, hostStep_regWrite_config s v h (ne_cmd_of_mem_configRegs hr), ?_, rfl, fun q hq => ?_⟩
  · rw [hostStep_regRead_of_not_result _ h (isResult_of_mem_configRegs hr), s.regValue_write_same hr]
  · exact s.regValue_write_other (r := r) (by rintro rfl; exact hq h) v

/-! ## One unit of a memory (20_memory.md R61 to R64) -/

section
variable {s : State} {a : Nat}

theorem hostStep_coefRead_of_written {v : Elem} (hidle : s.seq = .idle) (ha : a < s.params.nmax.toNat)
    (hv : Memory.read s.coef a = some v) :
    hostStep (.coefRead a) s = .next { s with replies := .coef v :: s.replies } := by
  simp only [hostStep, hostCoefRead, if_neg ha.not_ge, s.not_busy_iff.mpr hidle, hv]
  rfl

theorem hostStep_outRead_of_written {v : Byte} (hidle : s.seq = .idle) (ha : a < s.params.outBytes.toNat)
    (hv : Memory.read s.out a = some v) :
    hostStep (.outRead a) s = .next { s with replies := .byte v :: s.replies } := by
  simp only [hostStep, hostOutRead, if_neg ha.not_ge, s.not_busy_iff.mpr hidle, hv]
  rfl

theorem hostStep_stageRead_of_written {v : Byte} (ha : a < s.params.stageBytes.toNat)
    (hv : Memory.read s.stage a = some v) :
    hostStep (.stageRead a) s = .next { s with replies := .byte v :: s.replies } := by
  simp only [hostStep, hostStageRead, if_neg ha.not_ge, hv]
  rfl

theorem hostStep_coefWrite_of_idle (v : Elem) (hidle : s.seq = .idle) (ha : a < s.params.nmax.toNat) :
    hostStep (.coefWrite a v) s = .next { s with coef := Memory.write s.coef a (pattern s.w v.toNat) } := by
  simp only [hostStep, hostCoefWrite, if_neg ha.not_ge, s.not_busy_iff.mpr hidle]
  rfl

theorem hostStep_outWrite_of_idle (v : Byte) (hidle : s.seq = .idle) (ha : a < s.params.outBytes.toNat) :
    hostStep (.outWrite a v) s = .next { s with out := Memory.write s.out a v } := by
  simp only [hostStep, hostOutWrite, if_neg ha.not_ge, s.not_busy_iff.mpr hidle]
  rfl

theorem hostStep_stageWrite_of_idle (v : Byte) (hidle : s.seq = .idle) (ha : a < s.params.stageBytes.toNat) :
    hostStep (.stageWrite a v) s = .next { s with stage := Memory.write s.stage a v } := by
  simp only [hostStep, hostStageWrite, if_neg ha.not_ge, s.not_busy_iff.mpr hidle]
  rfl

end

/-- The pattern of a value the Host spells in 64 bits: its W low bits (log 7). -/
theorem pattern_natCast (w n : Nat) : pattern w n = BitVec.ofNat 64 (n % 2 ^ w) := by
  rw [pattern]
  norm_cast

/-! ## A result register between commands (10_state.md R28 to R34) -/

theorem hostStep_regRead_of_idle {off : Nat} {r : Reg} {s : State} (hidle : s.seq = .idle) (h : regAt off = some r) :
    hostStep (.regRead off) s = .next { s with replies := .reg (s.regValue r) :: s.replies } := by
  rw [hostStep_regRead_of_regAt s h, State.readReg_of_idle hidle, State.reply]

theorem Writer.stateWord_fields (b : Writer) :
    b.stateWord.extractLsb' 0 8 = b.acc ∧ b.stateWord.extractLsb' 8 4 = b.free ∧ b.stateWord.extractLsb' 12 20 = 0 := by
  have hword := b.stateWord_toNat
  have hacc := b.acc.isLt
  have hfree := b.free.isLt
  refine ⟨extractLsb'_of_toNat ?_, extractLsb'_of_toNat ?_, extractLsb'_eq_zero_of_toNat ?_⟩
  all_goals omega

theorem PlaneCounts.word_fields (n : PlaneCounts) :
    n.word.extractLsb' 0 8 = n.c0 ∧ n.word.extractLsb' 8 8 = n.c1 ∧ n.word.extractLsb' 16 8 = n.c2 ∧
    n.word.extractLsb' 24 8 = 0 := by
  have hword := n.word_toNat
  have h0 := n.c0.isLt
  have h1 := n.c1.isLt
  have h2 := n.c2.isLt
  refine ⟨extractLsb'_of_toNat ?_, extractLsb'_of_toNat ?_, extractLsb'_of_toNat ?_,
    extractLsb'_eq_zero_of_toNat ?_⟩
  all_goals omega

/-! ## Whose turn it is (20_memory.md R70; log 4) -/

theorem State.engineTurn_of_busy {s : State} (hbusy : s.seq = .busy) :
    s.engineTurn = true ↔ s.delay = 0 ∨ s.inbox = [] := by
  simp [State.engineTurn, s.busy_iff.mpr hbusy]

theorem step_of_engineTurn {s : State} (h : s.engineTurn = true) : step s = engineStep s := if_pos h

theorem step_of_pending {s : State} {x : Txn} {rest : List Txn} (h : s.engineTurn = false) (hin : s.inbox = x :: rest) :
    step s = hostStep x (s.issue rest) := by
  simp [step, h, hin]

theorem step_of_nothing {s : State} (h : s.engineTurn = false) (hin : s.inbox = []) : step s = .next s := by
  simp [step, h, hin]

theorem withFetchWord_toNat (s : State) (w : Word) : s.withFetchWord 32 w.toNat = s.holding w := by
  rw [State.withFetchWord, Nat.mod_eq_of_lt w.isLt, BitVec.ofNat_toNat, BitVec.setWidth_eq]

theorem State.holding_engineTurn (s : State) (c : Word) : (s.holding c).engineTurn = true :=
  (State.engineTurn_of_busy rfl).mpr (.inl rfl)

/-- A host transaction that leaves a running core BUSY leaves its LATCH and its countdown. -/
theorem HostEffect.keeps_running {s t : State} (h : HostEffect s t) (hs : s.seq = .busy) (ht : t.seq = .busy) :
    t.latch = s.latch ∧ t.delay = s.delay := by
  cases h with
  | replied | lost | configured => exact ⟨rfl, rfl⟩
  | accepted c hidle => rw [hs] at hidle; cases hidle
  | coef e v hidle => rw [hs] at hidle; cases hidle
  | out b v hidle => rw [hs] at hidle; cases hidle
  | stage b v hidle => rw [hs] at hidle; cases hidle
  | reset => cases ht

end Sys2Proof.Machine
end

section
/-! PROOFS. The statements about registers, memories and steps as the Host sees them, and the code table. -/

namespace Sys2Proof.Proofs

open Sys2Proof Sys2Proof.Machine Sys2Proof.Safety

/-- Settles O4: the turn of the Engine, of the oldest transaction, or of nobody; a word just fetched is the Engine's. -/
theorem stepRunsTheLatchedCommand : Obligations.StepRunsTheLatchedCommand := by
  unfold Obligations.StepRunsTheLatchedCommand
  refine ⟨fun s i hturn hdec => ?_, fun s w i hdec => ?_, fun s t rest hturn hin => step_of_pending hturn hin,
    fun s hturn hin => step_of_nothing hturn hin⟩
  · rw [step_of_engineTurn hturn, engineStep_of_decode_eq_some hdec]
  · rw [withFetchWord_toNat, step_of_engineTurn (s.holding_engineTurn w)]
    exact ⟨engineStep_of_decode_eq_some (by exact hdec), rfl⟩

/-- Settles O10: the fields of `State.statusWord`; a read of 0x04 replies it whole, and only a Reset among the Host's
transactions touches the writer's flag. -/
theorem statusWordFields : Obligations.StatusWordFields := by
  unfold Obligations.StatusWordFields
  refine ⟨fun s => ?_, fun s => ?_, fun s hbusy => ?_, fun s t x h hx => ?_⟩
  · obtain ⟨hbusy, hdone, herr, hresult, hcause, hovf, hlost, hhigh⟩ := s.statusWord_fields
    refine ⟨hbusy, hdone, herr, hresult, hcause.trans ?_, hovf, hlost, hhigh⟩
    cases s.status.cause <;> rfl
  · exact hostStep_regRead_of_not_result s (r := .status) (by decide) rfl
  · obtain ⟨hb, -, -, -, -, hovf, hlost, -⟩ := s.statusWord_fields
    exact ⟨hb.trans (s.busy_iff.mpr hbusy), hlost, hovf⟩
  · obtain ⟨-, -, -, -, -, hs, -⟩ := s.statusWord_fields
    obtain ⟨-, -, -, -, -, ht, -⟩ := t.statusWord_fields
    rw [hs, ht, hostStep_bw h hx]

/-- Settles O13: the eight configuration registers at their offsets, and the registers a write does not reach. -/
theorem registerWritesReadBackOrAreIgnored : Obligations.RegisterWritesReadBackOrAreIgnored := by
  unfold Obligations.RegisterWritesReadBackOrAreIgnored
  refine ⟨fun s v => ?_, fun s off v hoff => ?_, fun s off v hoff => ?_, fun s => ?_⟩
  · have hwrite {off : Nat} {r : Reg} (h : regAt off = some r) (hr : r ≠ .cmd) :
        hostStep (.regWrite off v) s = .next { s with cfg := s.cfg.write r v } := hostStep_regWrite_config s v h hr
    exact ⟨hwrite (r := .nx) (by decide) (by decide), hwrite (r := .ny) (by decide) (by decide),
      hwrite (r := .scale) (by decide) (by decide), hwrite (r := .capacity) (by decide) (by decide),
      hwrite (r := .arg0) (by decide) (by decide), hwrite (r := .arg1) (by decide) (by decide),
      hwrite (r := .arg2) (by decide) (by decide), hwrite (r := .arg3) (by decide) (by decide)⟩
  · obtain ⟨r, hr, hmem⟩ : ∃ r, regAt off = some r ∧ r ∈ configRegs := by revert off; decide
    exact hostStep_config_readback s v hr hmem
  · obtain ⟨r, hr, hmem⟩ : ∃ r, regAt off = some r ∧ r ∉ .cmd :: configRegs := by revert off; decide
    refine hostStep_regWrite_of_ignored s v hr (fun h => hmem (h ▸ List.mem_cons_self)) ?_
    exact s.cfg.write_of_not_config (fun h => hmem (List.mem_cons_of_mem _ h)) v
  · exact hostStep_regRead_of_not_result s (r := .cmd) (by decide) rfl

/-- Settles O15: a write inside the space while idle, the read of the unit written, and the frame of `Memory.write`. -/
theorem hostMemoryWritesReadBack : Obligations.HostMemoryWritesReadBack := by
  unfold Obligations.HostMemoryWritesReadBack
  refine fun s hidle => ⟨fun e v he => ?_, fun b v hb => ?_, fun b v hb => ?_⟩
  · refine ⟨_, hostStep_coefWrite_of_idle v hidle he, ?_, rfl, fun d hd => Memory.read_write_other _ _ hd⟩
    rw [← pattern_natCast]
    exact hostStep_coefRead_of_written hidle he (Memory.read_write_same ..)
  · exact ⟨_, hostStep_outWrite_of_idle v hidle hb, hostStep_outRead_of_written hidle hb (Memory.read_write_same ..), rfl,
      fun d hd => Memory.read_write_other _ _ hd⟩
  · exact ⟨_, hostStep_stageWrite_of_idle v hidle hb, hostStep_stageRead_of_written hb (Memory.read_write_same ..), rfl,
      fun d hd => Memory.read_write_other _ _ hd⟩

/-- Settles O16: a read adds a reply and may draw a value; between commands the reply is the unit or register itself. -/
theorem readsHaveNoSideEffect : Obligations.ReadsHaveNoSideEffect := by
  unfold Obligations.ReadsHaveNoSideEffect
  refine ⟨fun s t a x hx h => ?_, fun s e v => hostStep_coefRead_of_written, fun s b v => hostStep_outRead_of_written,
    fun s b v => hostStep_stageRead_of_written, fun s hidle => ?_⟩
  · obtain ⟨r, n, rfl⟩ := hostRead_effect hx h
    exact ⟨r, rfl⟩
  · have hread {off : Nat} {r : Reg} (h : regAt off = some r) := hostStep_regRead_of_idle hidle h
    intro replied
    refine ⟨hread (r := .bytesUsed) (by decide), hread (r := .bwCursor) (by decide),
      ⟨_, hread (r := .bwState) (by decide), s.bw.stateWord_fields⟩, ?_, ?_,
      ⟨_, hread (r := .nbp) (by decide), s.nbp.word_fields⟩, ?_, ?_, hread (r := .bwCap) (by decide)⟩
    · rw [← low32_eq_ofNat]; exact hread (r := .bitcountLo) (by decide)
    · rw [← high32_eq_ofNat]; exact hread (r := .bitcountHi) (by decide)
    · rw [← low32_eq_ofNat]; exact hread (r := .dcLo) (by decide)
    · rw [← high32_eq_ofNat]; exact hread (r := .dcHi) (by decide)

/-- Settles O18: a running core that is not due takes a transaction, which uses up one of the countdown; one that is due
completes. -/
theorem completionComesNearer : Obligations.CompletionComesNearer := by
  unfold Obligations.CompletionComesNearer
  refine ⟨fun s t hbusy hturn h ht => ?_, fun s hbusy hdue =>
    step_of_engineTurn ((State.engineTurn_of_busy hbusy).mpr hdue)⟩
  obtain ⟨hdelay, hin⟩ := not_or.mp ((State.engineTurn_of_busy hbusy).not.mp (by simp [hturn]))
  obtain ⟨hdue, -⟩ | ⟨x, rest, -, -, hx⟩ | ⟨-, hempty, -⟩ := step_cases h
  · rw [hturn] at hdue; cases hdue
  · obtain ⟨hlatch, hcount⟩ := (hostStep_effect hx).keeps_running hbusy ht
    refine ⟨hlatch, ?_⟩
    rw [hcount, State.issue_delay]
    omega
  · exact (hin hempty).elim

/-- Settles O47: the sixteen entries of the table, compared code by code. -/
theorem huffmanIsACompletePrefixCode : Obligations.HuffmanIsACompletePrefixCode := by
  unfold Obligations.HuffmanIsACompletePrefixCode
  decide +kernel

end Sys2Proof.Proofs
end

section
/-! SUPPORT. The transform in the rule's own form (41_transform.md R151 to R161): masks as bitwise and, the output of each
kind of block, the shuffle as a permutation of a list, and the iterations as a fold over the halved rectangles. -/

namespace Sys2Proof.Machine

open Sys2Proof.Safety

/-! ## Masks and shifts (R152, R154) -/

theorem land_neg_one (x : Int) : Int.land x (-1) = x := by
  cases x with
  | ofNat n => exact congrArg Int.ofNat (by simp [Nat.ldiff])
  | negSucc n => exact congrArg Int.negSucc (by simp)

/-- `x & −2^k` clears the low k bits, also of a negative x. -/
theorem land_neg_two_pow (k : Nat) (x : Int) : Int.land x (-(2 ^ k)) = clearLow k x := by
  induction k generalizing x with
  | zero => simp [land_neg_one, clearLow, asr]
  | succ k ih =>
    have hmask : (-(2 ^ (k + 1)) : Int) = Int.bit false (-(2 ^ k)) := by
      rw [Int.bit_val, pow_succ]
      simp only [cond_false]
      ring
    have hdiv : x / 2 / 2 ^ k = x / 2 ^ (k + 1) := by
      rw [Int.ediv_ediv_of_nonneg (by decide), pow_succ, mul_comm]
    rw [hmask, ← Int.bit_decomp x, Int.land_bit, ih, Int.bit_decomp, Int.bit_val, Int.div2_val, Bool.and_false, clearLow,
      clearLow, asr, asr, hdiv, pow_succ]
    simp only [cond_false]
    ring

theorem asr_eq_shiftRight (x : Int) (k : Nat) : asr x k = x >>> k := by
  rw [Int.shiftRight_eq_div_pow, asr]
  push_cast
  rfl

@[simp] theorem asr_zero (x : Int) : asr x 0 = x := by simp [asr]

/-! ## The output of each kind of block (R153 to R158) -/

section
variable (k : Nat) {ny nxtop nytop : Nat} (img : List Int) {i j : Nat}

/-- A place of the block at an even index: the even index plus its parity. -/
theorem two_mul_half_add_parity (hi : i % 2 = 0) (p : Bool) :
    2 * ((i + p.toNat) / 2) = i ∧ ((i + p.toNat) % 2 == 1) = p := by
  cases p
  · simp; omega
  · simp; omega

theorem blockOut_full (hi : i % 2 = 0) (hj : j % 2 = 0) (hin : i + 1 < nxtop) (hjn : j + 1 < nytop) (p q : Bool) :
    blockOut k ny nxtop nytop img (i + p.toNat) (j + q.toNat) =
      fullBlock k (pixel img ny i j) (pixel img ny i (j + 1)) (pixel img ny (i + 1) j) (pixel img ny (i + 1) (j + 1))
        p q := by
  obtain ⟨hir, hip⟩ := two_mul_half_add_parity hi p
  obtain ⟨hjr, hjq⟩ := two_mul_half_add_parity hj q
  simp only [blockOut, hir, hip, hjr, hjq, if_pos hin, if_pos hjn]

/-- In an odd last column. -/
theorem blockOut_column (hi : i % 2 = 0) (hj : j % 2 = 0) (hin : i + 1 < nxtop) (hjn : ¬ j + 1 < nytop) (p : Bool) :
    blockOut k ny nxtop nytop img (i + p.toNat) j =
      pairBlock k (pixel img ny i j) (pixel img ny (i + 1) j) p := by
  obtain ⟨hir, hip⟩ := two_mul_half_add_parity hi p
  obtain ⟨hjr, -⟩ := two_mul_half_add_parity hj false
  simp only [Bool.toNat_false, Nat.add_zero] at hjr
  simp only [blockOut, hir, hip, hjr, if_pos hin, if_neg hjn]

/-- In an odd last row. -/
theorem blockOut_row (hi : i % 2 = 0) (hj : j % 2 = 0) (hin : ¬ i + 1 < nxtop) (hjn : j + 1 < nytop) (q : Bool) :
    blockOut k ny nxtop nytop img i (j + q.toNat) =
      pairBlock k (pixel img ny i j) (pixel img ny i (j + 1)) q := by
  obtain ⟨hir, -⟩ := two_mul_half_add_parity hi false
  obtain ⟨hjr, hjq⟩ := two_mul_half_add_parity hj q
  simp only [Bool.toNat_false, Nat.add_zero] at hir
  simp only [blockOut, hir, hjr, hjq, if_neg hin, if_pos hjn]

/-- In the corner of two odd sides. -/
theorem blockOut_corner (hi : i % 2 = 0) (hj : j % 2 = 0) (hin : ¬ i + 1 < nxtop) (hjn : ¬ j + 1 < nytop) :
    blockOut k ny nxtop nytop img i j = cornerBlock k (pixel img ny i j) := by
  obtain ⟨hir, -⟩ := two_mul_half_add_parity hi false
  obtain ⟨hjr, -⟩ := two_mul_half_add_parity hj false
  simp only [Bool.toNat_false, Nat.add_zero] at hir hjr
  simp only [blockOut, hir, hjr, if_neg hin, if_neg hjn]

theorem pixel_blockStage (w : Nat) (hny : nytop ≤ ny) (hl : nxtop * ny ≤ img.length) (hi : i < nxtop) (hj : j < nytop) :
    pixel (blockStage w k ny nxtop nytop img) ny i j = (blockOut k ny nxtop nytop img i j).value w k :=
  pixel_mapActive _ hny hl hi hj

theorem pixel_shuffleStage (hny : nytop ≤ ny) (hl : nxtop * ny ≤ img.length) (hi : i < nxtop) (hj : j < nytop) :
    pixel (shuffleStage ny nxtop nytop img) ny i j =
      pixel img ny (shuffleSource nxtop i) (shuffleSource nytop j) :=
  pixel_mapActive _ hny hl hi hj

end

/-- An output with no right shift. -/
theorem BlockOut.value_of_shift_zero (w k : Nat) {o : BlockOut} (h : o.shift = 0) :
    o.value w k = roundW w k o.rounding (wrap w o.exact) := by
  rw [BlockOut.value, h, asr_zero]

theorem pairBlock_value (w k : Nat) (a b : Int) (p : Bool) :
    (pairBlock k a b p).value w k =
      roundW w k (pairBlock k a b p).rounding (wrap w (pairBlock k a b p).exact) :=
  BlockOut.value_of_shift_zero w k (by cases p <;> rfl)

/-! ## The shuffle as a permutation of a list (R159) -/

/-- Positions 0, 2, 4, …, then 1, 3, 5, …: position p comes from `shuffleSource n p`. -/
theorem shuffleList_map_range {α : Type} (f : Nat → α) (n : Nat) :
    shuffleList ((List.range n).map f) = (List.range n).map fun p => f (shuffleSource n p) := by
  have hsplit : List.range n = List.range ((n + 1) / 2) ++ (List.range (n / 2)).map ((n + 1) / 2 + ·) := by
    rw [← List.range_add]
    congr 1
    omega
  have heven : (List.range ((n + 1) / 2)).flatMap (fun p => ((List.range n).map f)[2 * p]?.toList) =
      (List.range ((n + 1) / 2)).map fun p => f (shuffleSource n p) := by
    rw [← List.flatMap_pure_eq_map (fun p => f (shuffleSource n p))]
    refine List.flatMap_congr fun p hp => ?_
    have hp := List.mem_range.mp hp
    simp [show 2 * p < n by omega, shuffleSource, hp]
  have hodd : (List.range (n / 2)).flatMap (fun p => ((List.range n).map f)[2 * p + 1]?.toList) =
      (List.range (n / 2)).map fun p => f (shuffleSource n ((n + 1) / 2 + p)) := by
    rw [← List.flatMap_pure_eq_map (fun p => f (shuffleSource n ((n + 1) / 2 + p)))]
    refine List.flatMap_congr fun p hp => ?_
    have hp := List.mem_range.mp hp
    simp [show 2 * p + 1 < n by omega, shuffleSource]
  simp only [shuffleList, List.length_map, List.length_range, heven, hodd]
  conv_rhs => rw [hsplit]
  simp

/-! ## Halving and the level count (R151, R160) -/

/-- A side after k halvings, rounding up: `ceil(n / 2^k)`. -/
def levelSize (n k : Nat) : Nat := (n + (2 ^ k - 1)) / 2 ^ k

theorem levelSize_zero (n : Nat) : levelSize n 0 = n := by simp [levelSize]

theorem levelSize_succ (n k : Nat) : levelSize n (k + 1) = (levelSize n k + 1) / 2 := by
  have hpos : 0 < 2 ^ k := Nat.two_pow_pos k
  rw [levelSize, levelSize, ← Nat.add_div_right _ hpos, Nat.div_div_eq_div_mul, ← pow_succ]
  congr 1
  rw [pow_succ]
  omega

theorem iterate_halve (k n : Nat) : (fun n => (n + 1) / 2)^[k] n = levelSize n k := by
  induction k with
  | zero => exact (levelSize_zero n).symm
  | succ k ih => rw [Function.iterate_succ_apply', ih, levelSize_succ]

theorem levelSize_eq_one {n k : Nat} (hpos : 1 ≤ n) (hle : n ≤ 2 ^ k) : levelSize n k = 1 :=
  Nat.div_eq_of_lt_le (by omega) (by omega)

theorem levelCount_le_iff (nx ny k : Nat) : levelCount nx ny ≤ k ↔ max nx ny ≤ 2 ^ k := ceilLog2_le_iff _ k

theorem le_two_pow_levelCount (nx ny : Nat) : nx ≤ 2 ^ levelCount nx ny ∧ ny ≤ 2 ^ levelCount nx ny :=
  max_le_iff.mp (le_two_pow_ceilLog2 (max nx ny))

/-! ## The iterations (R151, R160) -/

/-- Iteration k of an nx × ny image: the blocks, then the shuffles, of the rectangle halved k times. -/
def levelStage (w nx ny : Nat) (img : List Int) (k : Nat) : List Int :=
  shuffleStage ny (levelSize nx k) (levelSize ny k) (blockStage w k ny (levelSize nx k) (levelSize ny k) img)

theorem transformFrom_eq_foldl (w nx ny levels k : Nat) (img : List Int) :
    transformFrom w ny levels k (levelSize nx k) (levelSize ny k) img =
      (List.range' k levels).foldl (levelStage w nx ny) img := by
  induction levels generalizing k img with
  | zero => rfl
  | succ levels ih =>
    rw [transformFrom, ← levelSize_succ, ← levelSize_succ, ih, List.range'_succ, List.foldl_cons]
    rfl

theorem hTransform_eq_foldl (w nx ny : Nat) (img : List Int) :
    hTransform w nx ny img = (List.range (levelCount nx ny)).foldl (levelStage w nx ny) img := by
  rw [List.range_eq_range', ← transformFrom_eq_foldl, levelSize_zero, levelSize_zero, hTransform]

theorem hTransform_of_no_level {w nx ny : Nat} (h : levelCount nx ny = 0) (img : List Int) :
    hTransform w nx ny img = img := by
  rw [hTransform_eq_foldl, h]
  rfl

/-! ## The command (R150) -/

theorem exec_transform_of_no_level {s : State} (h : s.geometryError = none) (hl : levelCount s.rows s.cols = 0) :
    exec .transform s = .next s.complete := by
  simp only [exec, execTransform, h, if_pos hl]

theorem exec_transform_of_written {s : State} (h : s.geometryError = none) (hl : levelCount s.rows s.cols ≠ 0)
    (hw : imageWritten s) :
    exec .transform s = .next (s.storeImage (hTransform s.w s.rows s.cols (image s))).complete := by
  simp only [exec, execTransform, h, if_neg hl, State.loadImage_of_written hw]

theorem image_wrapped (s : State) : AllWrapped s.w (image s) :=
  (allWrapped_iff _ _).mpr fun _ hv => wrap_of_mem_image hv

/-- With or without a level to run, the image left is its transform. -/
theorem exec_transform_completes {s : State} (h : s.geometryError = none) (hw : imageWritten s) :
    ∃ t, exec .transform s = .next t ∧ imageBecomes s t (hTransform s.w s.rows s.cols (image s)) ∧
      completedAs s t (doneStatus s) s.bw s.out t.coef := by
  by_cases hl : levelCount s.rows s.cols = 0
  · rw [hTransform_of_no_level hl]
    exact ⟨_, exec_transform_of_no_level h hl, imageBecomes_image hw rfl rfl, rfl⟩
  · refine ⟨_, exec_transform_of_written h hl hw, State.storeImage_becomes (by simp) rfl rfl ?_, rfl⟩
    exact (allWrapped_iff _ _).mp (allWrapped_hTransform s.w_pos (image_wrapped s))

/-! ## A 2×2 image -/

/-- The only level of a 2×2 image: one full block, and shuffles that move nothing. -/
theorem pixel_hTransform_two {w : Nat} {img : List Int} (hl : img.length = 4) {i j : Nat} (hi : i < 2) (hj : j < 2) :
    pixel (hTransform w 2 2 img) 2 i j = (blockOut 0 2 2 2 img i j).value w 0 := by
  have hstay {p : Nat} (hp : p < 2) : shuffleSource 2 p = p := by
    revert p; decide
  have hone : hTransform w 2 2 img = shuffleStage 2 2 2 (blockStage w 0 2 2 2 img) := rfl
  rw [hone, pixel_shuffleStage _ (Nat.le_refl 2) (by simp [hl]) hi hj, hstay hi, hstay hj,
    pixel_blockStage _ _ _ (Nat.le_refl 2) (by simp [hl]) hi hj]

end Sys2Proof.Machine
end

section
/-! PROOFS. The statements about TRANSFORM (41_transform.md). -/

namespace Sys2Proof.Proofs

open Sys2Proof Sys2Proof.Machine Sys2Proof.Safety

/-- Settles O33: the masks are `land_neg_two_pow`, and wrap_W is the balanced remainder. -/
theorem roundingFollowsTheMasks : Obligations.RoundingFollowsTheMasks := by
  unfold Obligations.RoundingFollowsTheMasks
  refine ⟨fun w n hw => ⟨(wrap_range hw n).1, (wrap_range hw n).2, wrap_mod_eq w n⟩, fun w k h => ⟨?_, ?_, rfl⟩⟩
  · rw [land_neg_two_pow]; rfl
  · rw [land_neg_two_pow]; rfl

/-- Settles O34: the block at (i, j) is full, and each of its four places holds its output. -/
theorem fullBlockOutputs : Obligations.FullBlockOutputs := by
  unfold Obligations.FullBlockOutputs
  intro w k ny nxtop nytop img i j hny hl hi hj hin hjn out shift elem a00 a01 a10 a11
  have hout (p q : Bool) : elem out (i + p.toNat) (j + q.toNat) = (fullBlock k a00 a01 a10 a11 p q).value w k := by
    have hp := p.toNat_le
    have hq := q.toNat_le
    have := pixel_blockStage k img w hny hl (i := i + p.toNat) (j := j + q.toNat) (by omega) (by omega)
    rwa [blockOut_full k img hi hj (by omega) (by omega)] at this
  simp only [← asr_eq_shiftRight]
  exact ⟨hout true true, hout true false, hout false true, hout false false⟩

/-- Settles O35: an odd side leaves pairs of one column or row and, with both odd, one corner. -/
theorem oneSidedBlockOutputs : Obligations.OneSidedBlockOutputs := by
  unfold Obligations.OneSidedBlockOutputs
  intro w k ny nxtop nytop img hny hl hx hy out shift elem px
  refine ⟨fun hodd i hi hin => ?_, fun hodd j hj hjn => ?_, fun hoddx hoddy => ?_,
    fun e he => getD_mapActive_outside img _ he⟩
  · have hout (p : Bool) : elem out (i + p.toNat) (nytop - 1) =
        (pairBlock k (px i (nytop - 1)) (px (i + 1) (nytop - 1)) p).value w k := by
      have hp := p.toNat_le
      have := pixel_blockStage k img w hny hl (i := i + p.toNat) (j := nytop - 1) (by omega) (by omega)
      rwa [blockOut_column k img hi (by omega) (by omega) (by omega)] at this
    exact ⟨(hout true).trans (pairBlock_value ..), (hout false).trans (pairBlock_value ..)⟩
  · have hout (q : Bool) : elem out (nxtop - 1) (j + q.toNat) =
        (pairBlock k (px (nxtop - 1) j) (px (nxtop - 1) (j + 1)) q).value w k := by
      have hq := q.toNat_le
      have := pixel_blockStage k img w hny hl (i := nxtop - 1) (j := j + q.toNat) (by omega) (by omega)
      rwa [blockOut_row k img (by omega) hj (by omega) (by omega)] at this
    exact ⟨(hout true).trans (pairBlock_value ..), (hout false).trans (pairBlock_value ..)⟩
  · have hout := pixel_blockStage k img w hny hl (i := nxtop - 1) (j := nytop - 1) (by omega) (by omega)
    rw [blockOut_corner k img (by omega) (by omega) (by omega) (by omega)] at hout
    exact hout.trans (BlockOut.value_of_shift_zero w k rfl)

/-- Settles O36: both permutations are `shuffleSource`, one over the rows and one over the columns. -/
theorem shufflePutsEvensFirst : Obligations.ShufflePutsEvensFirst := by
  unfold Obligations.ShufflePutsEvensFirst
  intro ny nxtop nytop img hny hl out elem
  refine ⟨fun i hi => ⟨shuffleSource nxtop i, ?_, ?_⟩, fun e he => getD_mapActive_outside img _ he⟩
  · rw [← List.map_id (List.range nxtop), shuffleList_map_range]
    simp [hi]
  · rw [shuffleList_map_range]
    exact List.map_congr_left fun j hj => pixel_shuffleStage img hny hl hi (List.mem_range.mp hj)

/-- Settles O37: k halvings leave `ceil(n / 2^k)`, which is 1 once 2^k reaches n. -/
theorem levelsReachASingleElement : Obligations.LevelsReachASingleElement := by
  unfold Obligations.LevelsReachASingleElement
  refine ⟨ceilLog2_le_iff, fun nx ny hx hy => ⟨levelCount_le_iff nx ny, ?_⟩⟩
  obtain ⟨hxle, hyle⟩ := le_two_pow_levelCount nx ny
  rw [iterate_halve, iterate_halve]
  exact ⟨levelSize_eq_one hx hxle, levelSize_eq_one hy hyle⟩

/-- Settles O38: `hTransform_eq_foldl`. -/
theorem transformRunsItsIterations : Obligations.TransformRunsItsIterations := by
  unfold Obligations.TransformRunsItsIterations
  exact fun w nx ny img _ _ => hTransform_eq_foldl w nx ny img

/-- Settles O39: the checks pass, so the image is transformed in place. -/
theorem transformCompletes : Obligations.TransformCompletes := by
  unfold Obligations.TransformCompletes
  exact fun s hgood hfit hw => exec_transform_completes (State.geometryError_eq_none hgood hfit) hw

/-- Settles O40: the four outputs of the one block of the only level. -/
theorem transformOfTwoByTwo : Obligations.TransformOfTwoByTwo := by
  unfold Obligations.TransformOfTwoByTwo
  intro s hnx hny hfit hw
  have hx : s.latch.cfg.nx.toInt = 2 := by rw [hnx]; rfl
  have hy : s.latch.cfg.ny.toInt = 2 := by rw [hny]; rfl
  have hrows : s.rows = 2 := by rw [State.rows, State.nx, hx]; rfl
  have hcols : s.cols = 2 := by rw [State.cols, State.ny, hy]; rfl
  have hgood : ¬ badArgument s .transform := by simp [badArgument, badGeometry, hx, hy]
  have hsize : ¬ oversized s .transform := by simp [oversized, hx, hy]; omega
  obtain ⟨t, ht, ⟨himage, -⟩, -⟩ := exec_transform_completes (State.geometryError_eq_none hgood hsize) hw
  have hlen : (image s).length = 4 := by rw [image_length, hrows, hcols]
  have hpixel {i j : Nat} (hi : i < 2) (hj : j < 2) : pixel (image s) 2 i j = coefValue s (i * 2 + j) :=
    image_getD (by rw [hrows, hcols]; omega)
  have hout (p q : Bool) : coefValue t (p.toNat * 2 + q.toNat) =
      (fullBlock 0 (coefValue s 0) (coefValue s 1) (coefValue s 2) (coefValue s 3) p q).value s.w 0 := by
    have hp := p.toNat_le
    have hq := q.toNat_le
    have hblock := blockOut_full 0 (image s) (ny := 2) (nxtop := 2) (nytop := 2) (i := 0) (j := 0) rfl rfl (by decide)
      (by decide) p q
    rw [Nat.zero_add, Nat.zero_add, hpixel (by decide) (by decide), hpixel (by decide) (by decide),
      hpixel (by decide) (by decide), hpixel (by decide) (by decide)] at hblock
    obtain ⟨-, hval⟩ := himage (p.toNat * 2 + q.toNat) (by rw [hrows, hcols]; omega)
    rw [hval, hrows, hcols, ← hblock]
    exact pixel_hTransform_two hlen (by omega) (by omega)
  refine ⟨t, ht, ?_⟩
  intro a b c d
  have hshift (p q : Bool) := BlockOut.value_of_shift_zero s.w 0 (o := fullBlock 0 a b c d p q)
    (by cases p <;> cases q <;> rfl)
  exact ⟨(hout false false).trans (hshift ..), (hout false true).trans (hshift ..), (hout true false).trans (hshift ..),
    (hout true true).trans (hshift ..)⟩

end Sys2Proof.Proofs
end

section
/-! SUPPORT. Grids and planes in the rule's own form (43_quadtree.md R181 to R192): a code as a number, the sides of the
grids of a plane, what an empty plane holds, and a block as QT_ENCODE loads it. -/

namespace Sys2Proof.Machine

open Sys2Proof (Nibble)
open Sys2Proof.Safety

/-! ## Codes (R182, R183) -/

theorem coefValue_of_read {s : State} {e : Nat} {v : Sys2Proof.Elem} (h : Memory.read s.coef e = some v) :
    coefValue s e = sint s.w v := by
  rw [coefValue, h, Option.getD_some]

/-- A member as a number: 0 outside the array. -/
theorem member_toNat (nr nc i j : Nat) (b : Bool) :
    (decide (i < nr) && decide (j < nc) && b).toNat = if i < nr ∧ j < nc then b.toNat else 0 := by
  by_cases hi : i < nr <;> by_cases hj : j < nc <;> simp [hi, hj]

/-- A code is its four members, weighted 8, 4, 2 and 1 (30_encoding.md R101). -/
theorem pairUp_at_toNat {nr nc : Nat} (m : Nat → Nat → Bool) {r c : Nat} (hr : r < (nr + 1) / 2) (hc : c < (nc + 1) / 2)
    {n : Nat → Nat → Nat} (hn : ∀ i j, (if i < nr ∧ j < nc then (m i j).toNat else 0) = n i j) :
    ((pairUp nr nc m).at r c).toNat =
      8 * n (2 * r) (2 * c) + 4 * n (2 * r) (2 * c + 1) + 2 * n (2 * r + 1) (2 * c) + n (2 * r + 1) (2 * c + 1) := by
  simp only [pairUp_at m hr hc, blockCode_toNat, member_toNat, hn]

theorem bne_zero_eq (code : Nibble) : (code != 0) = decide (code ≠ 0) := by
  by_cases h : code = 0
  · rw [h]
    rfl
  · rw [bne_iff_ne.mpr h, decide_eq_true h]

theorem decide_toNat (p : Prop) [Decidable p] : (decide p).toNat = if p then 1 else 0 := by
  by_cases h : p <;> simp [h]

/-! ## The grids of a plane (R184) -/

theorem planeGrids_eq_map (w nqx nqy : Nat) (px : Nat → Nat → Int) (b : Nat) :
    planeGrids w nqx nqy px b =
      (List.range (max (ceilLog2 (max nqx nqy)) 1)).map fun k => Grid.reduce^[k] (finestGrid w nqx nqy px b) := by
  rw [planeGrids, Grid.chain_eq_map, show ceilLog2 (max nqx nqy) - 1 + 1 = max (ceilLog2 (max nqx nqy)) 1 by omega]

/-- The k-th grid of a plane has the sides of the block halved k + 1 times. -/
theorem reduce_iterate_sides (w nqx nqy : Nat) (px : Nat → Nat → Int) (b k : Nat) :
    (Grid.reduce^[k] (finestGrid w nqx nqy px b)).rows = levelSize nqx (k + 1) ∧
    (Grid.reduce^[k] (finestGrid w nqx nqy px b)).cols = levelSize nqy (k + 1) := by
  induction k with
  | zero =>
    rw [levelSize_succ, levelSize_succ, levelSize_zero, levelSize_zero]
    exact ⟨rfl, rfl⟩
  | succ k ih =>
    rw [Function.iterate_succ_apply', levelSize_succ nqx, levelSize_succ nqy, ← ih.1, ← ih.2]
    exact ⟨rfl, rfl⟩

/-! ## An empty plane (R192) -/

theorem pairUp_at_of_unset {nr nc : Nat} {m : Nat → Nat → Bool} (h : ∀ i < nr, ∀ j < nc, m i j = false) (r c : Nat) :
    (pairUp nr nc m).at r c = 0 := by
  rw [pairUp_congr (n := fun _ _ => false) h]
  by_cases hin : r < (nr + 1) / 2 ∧ c < (nc + 1) / 2
  · rw [pairUp_at _ hin.1 hin.2]
    simp only [blockCode, Bool.and_false]
    rfl
  · exact if_neg hin

/-- The reductions of a grid of zeros are grids of zeros. -/
theorem reduce_iterate_at_of_zero {g : Grid} (h : ∀ r c, g.at r c = 0) (k r c : Nat) :
    (Grid.reduce^[k] g).at r c = 0 := by
  induction k generalizing r c with
  | zero => exact h r c
  | succ k ih =>
    rw [Function.iterate_succ_apply']
    exact pairUp_at_of_unset (fun i _ j _ => by simp [ih i j]) r c

/-! ## The code list and the two paths (R185 to R188) -/

/-- All codes of a grid in row-major order. -/
def Grid.rowMajor (g : Grid) : List Nibble :=
  (List.range g.rows).flatMap fun r => (List.range g.cols).map fun c => g.at r c

/-- The code list as R184 and R185 write it. -/
def spelledCodes (w nqx nqy : Nat) (px : Nat → Nat → Int) (b : Nat) : List Nibble :=
  (List.range (max (ceilLog2 (max nqx nqy)) 1)).flatMap fun k =>
    (Grid.reduce^[k] (finestGrid w nqx nqy px b)).rowMajor.filter fun code => code ≠ 0

theorem codeList_planeGrids (w nqx nqy : Nat) (px : Nat → Nat → Int) (b : Nat) :
    codeList (planeGrids w nqx nqy px b) = spelledCodes w nqx nqy px b := by
  rw [planeGrids, codeList_chain (g := finestGrid w nqx nqy px b) (pairUp_codes_length _ _ _), spelledCodes,
    show ceilLog2 (max nqx nqy) - 1 + 1 = max (ceilLog2 (max nqx nqy)) 1 by omega]
  exact List.flatMap_congr fun k _ => List.filter_congr fun code _ => bne_zero_eq code

theorem finestGrid_codes (w nqx nqy : Nat) (px : Nat → Nat → Int) (b : Nat) :
    (finestGrid w nqx nqy px b).codes = (finestGrid w nqx nqy px b).rowMajor :=
  Grid.codes_eq_rowMajor (pairUp_codes_length _ _ _)

theorem planeChunks_of_literal {w nqx nqy : Nat} {px : Nat → Nat → Int} {b : Nat}
    (h : max (budget nqx nqy) 1 ≤ packedSize (spelledCodes w nqx nqy px b) / 8) :
    planeChunks w nqx nqy px b = (0x0, 4) :: (finestGrid w nqx nqy px b).rowMajor.map fun s => (s.toNat, 4) := by
  simp only [planeChunks, codeList_planeGrids, takesLiteral, decide_eq_true h, if_true, literalChunks, finestGrid_codes]
  rfl

theorem planeChunks_of_quadtree {w nqx nqy : Nat} {px : Nat → Nat → Int} {b : Nat}
    (h : packedSize (spelledCodes w nqx nqy px b) / 8 < max (budget nqx nqy) 1) :
    planeChunks w nqx nqy px b = quadtreeChunks (spelledCodes w nqx nqy px b) := by
  simp only [planeChunks, codeList_planeGrids, takesLiteral, decide_eq_false h.not_ge, Bool.false_eq_true, if_false]

theorem spelledCodes_of_unset {w nqx nqy : Nat} {px : Nat → Nat → Int} {b : Nat}
    (h : ∀ i < nqx, ∀ j < nqy, bitOf w (px i j) b = false) : spelledCodes w nqx nqy px b = [] := by
  have hzero (k r c : Nat) : (Grid.reduce^[k] (finestGrid w nqx nqy px b)).at r c = 0 :=
    reduce_iterate_at_of_zero (pairUp_at_of_unset h) k r c
  simp [spelledCodes, Grid.rowMajor, hzero]

/-- A plane with no set bit: the quadtree marker and the placeholder. -/
theorem planeChunks_of_unset {w nqx nqy : Nat} {px : Nat → Nat → Int} {b : Nat}
    (h : ∀ i < nqx, ∀ j < nqy, bitOf w (px i j) b = false) : planeChunks w nqx nqy px b = [(0xF, 4), (0x3E, 6)] := by
  have hc := spelledCodes_of_unset h
  rw [planeChunks_of_quadtree (by rw [hc]; exact lt_max_of_lt_right (by decide)), hc]
  rfl

/-! ## A block as QT_ENCODE loads it (R180) -/

theorem row_col_of_index {n i j : Nat} (hj : j < n) : (i * n + j) / n = i ∧ (i * n + j) % n = j := by
  constructor
  · rw [Nat.add_comm, Nat.add_mul_div_right _ _ (by omega), Nat.div_eq_of_lt hj, Nat.zero_add]
  · rw [Nat.add_comm, Nat.add_mul_mod_self_right, Nat.mod_eq_of_lt hj]

theorem index_lt {m n i j : Nat} (hi : i < m) (hj : j < n) : i * n + j < m * n := by
  have := Nat.mul_le_mul_right n (Nat.succ_le_of_lt hi)
  rw [Nat.succ_mul] at this
  omega

/-- COEF index of element (i, j) of the block. -/
def State.blockIndex (s : State) (i j : Nat) : Nat := s.latch.cfg.arg0.toNat + i * s.cols + j

theorem State.blockIndices_of_ne_zero {s : State} (h : s.latch.cfg.arg3 ≠ 0) :
    s.blockIndices = (List.range (s.latch.cfg.arg1.toNat * s.latch.cfg.arg2.toNat)).map fun e =>
      s.blockIndex (e / s.latch.cfg.arg2.toNat) (e % s.latch.cfg.arg2.toNat) :=
  if_neg h

/-- Loading a written block succeeds, and the PutBits calls are those of its planes over COEF itself. -/
theorem State.loadBlock_of_written {s : State}
    (hw : ∀ i < s.latch.cfg.arg1.toNat, ∀ j < s.latch.cfg.arg2.toNat, (Memory.read s.coef (s.blockIndex i j)).isSome) :
    ∃ vals, s.loadCoef s.blockIndices = some vals ∧
      s.blockChunks vals = (List.range s.latch.cfg.arg3.toNat).reverse.flatMap fun b =>
        planeChunks s.w s.latch.cfg.arg1.toNat s.latch.cfg.arg2.toNat (fun i j => coefValue s (s.blockIndex i j)) b := by
  refine ⟨s.blockIndices.map (coefValue s), (s.loadCoef_eq_some_iff _ _).mpr ⟨fun e he => ?_, rfl⟩, ?_⟩
  · by_cases hp : s.latch.cfg.arg3 = 0
    · rw [State.blockIndices, if_pos hp] at he
      cases he
    · rw [State.blockIndices_of_ne_zero hp] at he
      obtain ⟨x, hx, rfl⟩ := List.mem_map.mp he
      have hx := List.mem_range.mp hx
      have hcols : 0 < s.latch.cfg.arg2.toNat := Nat.pos_of_mul_pos_left (Nat.zero_lt_of_lt hx)
      exact hw _ (Nat.div_lt_of_lt_mul (by rwa [Nat.mul_comm])) _ (Nat.mod_lt _ hcols)
  · rw [State.blockChunks, quadrantChunks_eq_flatMap]
    by_cases hp : s.latch.cfg.arg3 = 0
    · simp [hp]
    · refine List.flatMap_congr fun b _ => planeChunks_congr (fun i hi j hj => ?_) b
      obtain ⟨hrow, hcol⟩ := row_col_of_index (i := i) hj
      rw [State.blockIndices_of_ne_zero hp, pixel]
      simp [List.getD, index_lt hi hj, hrow, hcol]

theorem exec_qtEncode_of_loaded {s : State} {vals : List Int} (he : s.quadrantError = none)
    (hl : s.loadCoef s.blockIndices = some vals) :
    exec .qtEncode s = .next (s.withSink (s.sink.putAll (s.blockChunks vals))).finishQuadrant := by
  simp only [exec, execQtEncode, he, hl]

theorem completedAs_finishQuadrant (s : State) (k : Sink) :
    completedAs s (s.withSink k).finishQuadrant
      (if k.bw.ovf = true then errorStatus s .capacity else doneStatus s) k.bw k.out s.coef := by
  unfold State.finishQuadrant
  rw [State.withSink_bw]
  split <;> rfl

theorem Sink.putAll_bitcount_chunkBits (k : Sink) (cs : List (Nat × Nat)) :
    (k.putAll cs).bw.bitcount = k.bw.bitcount + BitVec.ofNat 64 (chunkBits cs).length := by
  rw [Sink.putAll_bitcount, chunkBits_length]

end Sys2Proof.Machine
end

section
/-! PROOFS. The statements about QT_ENCODE (43_quadtree.md). -/

namespace Sys2Proof.Proofs

open Sys2Proof Sys2Proof.Machine Sys2Proof.Safety

/-- Settles O44: both kinds of grid pair up an array of members, the bits of a plane or the nonzero codes below. -/
theorem gridCodesFollowTheirMembers : Obligations.GridCodesFollowTheirMembers := by
  unfold Obligations.GridCodesFollowTheirMembers
  refine ⟨fun s e b v hread hfits hb => ?_, fun w nqx nqy b px => ?_, fun g => ?_⟩
  · rw [coefValue_of_read hread]
    exact ⟨bitOf_sint hfits b, sint_eq s.w_pos hfits⟩
  · exact ⟨rfl, rfl, pairUp_codes_length _ _ _, fun r hr c hc => pairUp_at_toNat _ hr hc fun _ _ => rfl⟩
  · intro n
    refine ⟨rfl, rfl, pairUp_codes_length _ _ _, fun r hr c hc => pairUp_at_toNat (n := n) _ hr hc fun i j => ?_⟩
    rw [bne_zero_eq, decide_toNat, ← ite_and]
    simp only [n, and_assoc]

/-- Settles O45: the k-th grid is the k-th reduction, and the sides of the last are those of the block halved down to 1. -/
theorem lastGridIsTheApex : Obligations.LastGridIsTheApex := by
  unfold Obligations.LastGridIsTheApex
  intro w nqx nqy b px grids
  have hgrids : grids = _ := planeGrids_eq_map w nqx nqy px b
  have hpos : 0 < max (ceilLog2 (max nqx nqy)) 1 := by omega
  refine ⟨by simp [hgrids], by simp [hgrids], fun k hk => ?_, fun hx hy => ?_⟩
  · have hk : k + 1 < max (ceilLog2 (max nqx nqy)) 1 := by simpa [hgrids] using hk
    rw [hgrids, List.getElem?_map, List.getElem?_map, List.getElem?_range hk, List.getElem?_range (by omega)]
    exact congrArg some (Function.iterate_succ_apply' ..)
  · obtain ⟨n, hn⟩ : ∃ n, max (ceilLog2 (max nqx nqy)) 1 = n + 1 := ⟨_, (Nat.sub_add_cancel hpos).symm⟩
    have hle : max nqx nqy ≤ 2 ^ (n + 1) := (ceilLog2_le_iff _ _).mp (hn ▸ le_max_left _ _)
    obtain ⟨hrows, hcols⟩ := reduce_iterate_sides w nqx nqy px b n
    refine ⟨Grid.reduce^[n] (finestGrid w nqx nqy px b), ?_, ?_, ?_⟩
    · rw [hgrids, hn, List.range_succ, List.map_append, List.map_singleton, List.getLast?_concat]
    · rw [hrows, levelSize_eq_one hx ((le_max_left _ _).trans hle)]
    · rw [hcols, levelSize_eq_one hy ((le_max_right _ _).trans hle)]

/-- Settles O46: the code list spelled out, the two paths by the budget test, and the placeholder of an empty plane. -/
theorem planePathFollowsTheBudget : Obligations.PlanePathFollowsTheBudget := by
  unfold Obligations.PlanePathFollowsTheBudget
  intro w nqx nqy b px g0 rowMajor c total bmax
  refine ⟨codeList_planeGrids .., fun h => planeChunks_of_literal h, fun h => planeChunks_of_quadtree h, fun h => ?_⟩
  rw [planeChunks_of_unset h]
  decide

/-- Settles O48: the block loads, its planes' bits go to the writer, and the end reports the overflow flag. -/
theorem qtEncodeCompletes : Obligations.QtEncodeCompletes := by
  unfold Obligations.QtEncodeCompletes
  intro s hgood hfit hw px chunks k
  obtain ⟨vals, hload, hchunks⟩ := State.loadBlock_of_written (s := s) hw
  have hk : s.sink.putAll (s.blockChunks vals) = k := congrArg s.sink.putAll hchunks
  have hexec := exec_qtEncode_of_loaded (State.quadrantError_eq_none hgood hfit) hload
  rw [hk] at hexec
  have hdone := completedAs_finishQuadrant s k
  refine ⟨_, hexec, hdone, ?_⟩
  rw [hdone]
  exact Sink.putAll_bitcount_chunkBits s.sink chunks

end Sys2Proof.Proofs
end

section
/-! SUPPORT. The stream byte by byte (30_encoding.md R88 to R102, 44_driver.md R212 to R217): its segments one after
another, the quadrants' planes, the plane counts as least bit lengths, and the stream of an all-zero image. -/

namespace Sys2Proof.Machine

open Sys2Proof (Byte)
open Sys2Proof.Safety

/-! ## Segments (R88) -/

/-- The stream, one segment after another. -/
theorem encodeStream_eq (w : Nat) (c : ConfigRegs) (nx ny : Nat) (img : List Int) :
    encodeStream w c nx ny img =
      Rom.magic ++ (bigEndian 4 c.nx.toNat ++ (bigEndian 4 c.ny.toNat ++ (bigEndian 4 c.scale.toNat ++
        (bigEndian 8 (dcOf img).toNat ++ ([(planeCounts nx ny (magnitudes w img)).c0,
          (planeCounts nx ny (magnitudes w img)).c1, (planeCounts nx ny (magnitudes w img)).c2] ++
            (planeBytes w nx ny (magnitudes w img) ++ packBits (signBits (zeroDc img)))))))) := by
  simp only [encodeStream, headerBytes, List.append_assoc]

/-- Past the first segment. -/
theorem getElem?_append_skip {α : Type} {a b : List α} {n : Nat} (ha : a.length = n) (k : Nat) :
    (a ++ b)[n + k]? = b[k]? := by
  rw [List.getElem?_append_right (by omega), ha, Nat.add_sub_cancel_left]

theorem bigEndian_word_getElem (v : Sys2Proof.Word) {k : Nat} (hk : k < 4) :
    (bigEndian 4 v.toNat)[k]? = some (v.extractLsb' (24 - 8 * k) 8) := by
  rw [bigEndian_getElem (n := 4) (v := v) hk, show 8 * (4 - 1 - k) = 24 - 8 * k by omega]

theorem bigEndian_long_getElem (v : BitVec 64) {k : Nat} (hk : k < 8) :
    (bigEndian 8 v.toNat)[k]? = some (v.extractLsb' (56 - 8 * k) 8) := by
  rw [bigEndian_getElem (n := 8) (v := v) hk, show 8 * (8 - 1 - k) = 56 - 8 * k by omega]

section
variable (w : Nat) (c : ConfigRegs) (nx ny : Nat) (img : List Int)

theorem encodeStream_magic :
    (encodeStream w c nx ny img)[0]? = some 0xDD ∧ (encodeStream w c nx ny img)[1]? = some 0x99 := by
  rw [encodeStream_eq]
  exact ⟨rfl, rfl⟩

theorem encodeStream_nx {k : Nat} (hk : k < 4) :
    (encodeStream w c nx ny img)[2 + k]? = some (c.nx.extractLsb' (24 - 8 * k) 8) := by
  rw [encodeStream_eq, getElem?_append_skip (a := Rom.magic) (n := 2) rfl,
    List.getElem?_append_left (by simpa using hk), bigEndian_word_getElem _ hk]

theorem encodeStream_ny {k : Nat} (hk : k < 4) :
    (encodeStream w c nx ny img)[6 + k]? = some (c.ny.extractLsb' (24 - 8 * k) 8) := by
  rw [encodeStream_eq, show 6 + k = 2 + (4 + k) by omega, getElem?_append_skip (a := Rom.magic) (n := 2) rfl,
    getElem?_append_skip (bigEndian_length _ _), List.getElem?_append_left (by simpa using hk),
    bigEndian_word_getElem _ hk]

theorem encodeStream_scale {k : Nat} (hk : k < 4) :
    (encodeStream w c nx ny img)[10 + k]? = some (c.scale.extractLsb' (24 - 8 * k) 8) := by
  rw [encodeStream_eq, show 10 + k = 2 + (4 + (4 + k)) by omega, getElem?_append_skip (a := Rom.magic) (n := 2) rfl,
    getElem?_append_skip (bigEndian_length _ _), getElem?_append_skip (bigEndian_length _ _),
    List.getElem?_append_left (by simpa using hk), bigEndian_word_getElem _ hk]

/-- Past the fields of the call, 14 bytes: DC, the plane counts, the plane bytes, the sign bits. -/
theorem encodeStream_skip_call (k : Nat) :
    (encodeStream w c nx ny img)[14 + k]? =
      (bigEndian 8 (dcOf img).toNat ++ ([(planeCounts nx ny (magnitudes w img)).c0,
        (planeCounts nx ny (magnitudes w img)).c1, (planeCounts nx ny (magnitudes w img)).c2] ++
          (planeBytes w nx ny (magnitudes w img) ++ packBits (signBits (zeroDc img)))))[k]? := by
  rw [encodeStream_eq, show 14 + k = 2 + (4 + (4 + (4 + k))) by omega,
    getElem?_append_skip (a := Rom.magic) (n := 2) rfl, getElem?_append_skip (bigEndian_length _ _),
    getElem?_append_skip (bigEndian_length _ _), getElem?_append_skip (bigEndian_length _ _)]

theorem encodeStream_dc {k : Nat} (hk : k < 8) :
    (encodeStream w c nx ny img)[14 + k]? = some ((BitVec.ofInt 64 (img.getD 0 0)).extractLsb' (56 - 8 * k) 8) := by
  rw [encodeStream_skip_call, List.getElem?_append_left (by simpa using hk), bigEndian_long_getElem _ hk, dcOf]

theorem encodeStream_planeCount {q : Nat} (hq : q < 3) :
    (encodeStream w c nx ny img)[22 + q]? = some (BitVec.ofNat 8 (planeCount nx ny (magnitudes w img) q)) := by
  rw [show 22 + q = 14 + (8 + q) by omega, encodeStream_skip_call, getElem?_append_skip (bigEndian_length _ _),
    List.getElem?_append_left hq]
  match q, hq with
  | 0, _ | 1, _ | 2, _ => rfl

/-- Past the header, 25 bytes. -/
theorem encodeStream_skip_header (k : Nat) :
    (encodeStream w c nx ny img)[25 + k]? =
      (planeBytes w nx ny (magnitudes w img) ++ packBits (signBits (zeroDc img)))[k]? := by
  rw [show 25 + k = 14 + (8 + (3 + k)) by omega, encodeStream_skip_call, getElem?_append_skip (bigEndian_length _ _),
    getElem?_append_skip (n := 3) rfl]

theorem planeBytes_length (mags : List Int) :
    (planeBytes w nx ny mags).length = ((chunkBits (planeStreamChunks w nx ny mags)).length + 7) / 8 :=
  packBits_length _

theorem signBits_length (l : List Int) : (signBits l).length = (l.filter (· != 0)).length := by
  simp [signBits]

/-- The terminator alone fills a byte of the plane bytes (44_driver.md R217). -/
theorem planeBytes_length_pos (mags : List Int) : 1 ≤ (planeBytes w nx ny mags).length := by
  have hbits : 4 ≤ (chunkBits (planeStreamChunks w nx ny mags)).length := by
    rw [chunkBits_length, planeStreamChunks, List.map_append, List.sum_append]
    exact Nat.le_add_left _ _
  rw [planeBytes_length]
  omega

theorem encodeStream_length_ge : 26 ≤ (encodeStream w c nx ny img).length := by
  have hpos := planeBytes_length_pos w nx ny (magnitudes w img)
  rw [encodeStream_length]
  omega

end

/-! ## Quadrants (R102) -/

/-- The planes of one quadrant, the highest first, over any way of writing its elements. -/
theorem Quadrant.chunks_eq (w nx ny : Nat) (mags : List Int) (q : Quadrant) {px : Nat → Nat → Int}
    (hpx : ∀ i j, q.pixel ny mags i j = px i j) :
    q.chunks w nx ny mags =
      (List.range (planeCount nx ny mags q.category)).reverse.flatMap fun b => planeChunks w q.rows q.cols px b := by
  rw [Quadrant.chunks, quadrantChunks_eq_flatMap, show q.pixel ny mags = px from funext₂ hpx]

/-! ## Plane counts (44_driver.md R215) -/

theorem planeCount_le_iff (nx ny : Nat) (mags : List Int) (c n : Nat) :
    planeCount nx ny mags c ≤ n ↔
      ∀ i < nx, ∀ j < ny, category nx ny i j = c → mags.getD (i * ny + j) 0 < 2 ^ n := by
  have hpow := two_pow_pos_int n
  have hmax : (categoryMax nx ny mags c).toNat < 2 ^ n ↔ categoryMax nx ny mags c < 2 ^ n := by
    rw [Int.toNat_lt' (by positivity)]
    push_cast
    rfl
  rw [planeCount, bitLen_le_iff, hmax, categoryMax, foldl_max_lt_iff]
  constructor
  · rintro ⟨-, h⟩ i hi j hj hc
    obtain ⟨hrow, hcol⟩ := row_col_of_index (i := i) hj
    exact h (i * ny + j) (List.mem_range.mpr (index_lt hi hj)) (by rwa [hrow, hcol])
  · refine fun h => ⟨hpow, fun e he hc => ?_⟩
    have he := List.mem_range.mp he
    have hpos : 0 < ny := Nat.pos_of_mul_pos_left (Nat.zero_lt_of_lt he)
    have hval := h (e / ny) (Nat.div_lt_of_lt_mul (by rwa [Nat.mul_comm])) (e % ny) (Nat.mod_lt _ hpos) hc
    rwa [Nat.mul_comm, Nat.div_add_mod] at hval

/-! ## Signs and magnitudes (44_driver.md R213, R214) -/

theorem signBits_eq_flatMap (img : List Int) :
    signBits img = img.flatMap fun v => if v = 0 then [] else [decide (v < 0)] := by
  induction img with
  | nil => rfl
  | cons v img ih =>
    by_cases hv : v = 0
    · simp_all [signBits]
    · simp_all [signBits]

theorem magnitudes_getD_zero (w : Nat) (img : List Int) : (magnitudes w img).getD 0 0 = 0 := by
  cases img with
  | nil => rfl
  | cons v img => rfl

theorem magnitudes_getD_of_pos (w : Nat) (img : List Int) {e : Nat} (hpos : 1 ≤ e) (he : e < img.length) :
    (magnitudes w img).getD e 0 = magnitude w (img.getD e 0) := by
  simp [magnitudes, zeroDc, List.getD, he, show 0 ≠ e by omega]

/-! ## An all-zero image (44_driver.md R225) -/

theorem zeroDc_zeros (n : Nat) : zeroDc (List.replicate n 0) = List.replicate n 0 := List.set_replicate_self

theorem magnitudes_zeros (w n : Nat) : magnitudes w (List.replicate n 0) = List.replicate n 0 := by
  rw [magnitudes, zeroDc_zeros, List.map_replicate]
  rfl

theorem planeCount_zeros (nx ny n c : Nat) : planeCount nx ny (List.replicate n 0) c = 0 := by
  refine Nat.le_zero.mp ((planeCount_le_iff ..).mpr fun i _ j _ _ => ?_)
  have hzero : (List.replicate n (0 : Int)).getD (i * ny + j) 0 = 0 := by
    rw [List.getD, List.getElem?_replicate]
    split <;> rfl
  rw [hzero]
  decide

theorem planeStreamChunks_zeros (w nx ny n : Nat) :
    planeStreamChunks w nx ny (List.replicate n 0) = [(Rom.terminator, 4)] := by
  simp [planeStreamChunks, quadrants, Quadrant.chunks, planeCount_zeros, quadrantChunks]

theorem planeBytes_zeros (w nx ny n : Nat) : planeBytes w nx ny (List.replicate n 0) = [0] := by
  rw [planeBytes, planeStreamChunks_zeros]
  rfl

theorem encodeStream_zeros (w : Nat) (c : ConfigRegs) (nx ny n : Nat) :
    encodeStream w c nx ny (List.replicate n 0) = headerBytes c ++ List.replicate 8 0 ++ [0, 0, 0] ++ [0] := by
  have hdc : dcOf (List.replicate n 0) = 0 := by
    cases n <;> rfl
  have hsigns : packBits (signBits (List.replicate n 0)) = [] := by
    have hnone : signBits (List.replicate n 0) = [] := by simp [signBits]
    rw [hnone]
    rfl
  simp only [encodeStream, magnitudes_zeros, zeroDc_zeros, planeBytes_zeros, hdc, hsigns, planeCounts, planeCount_zeros,
    List.append_nil]
  rfl

end Sys2Proof.Machine
end

section
/-! PROOFS. The statements about the stream (30_encoding.md section 2, 44_driver.md section 1). -/

namespace Sys2Proof.Proofs

open Sys2Proof Sys2Proof.Machine Sys2Proof.Safety

/-- Settles O53: the segments of `encodeStream_eq`, each at the sum of the lengths before it. -/
theorem streamLayout : Obligations.StreamLayout := by
  unfold Obligations.StreamLayout
  intro w c nx ny img stream mags p nsigns
  have hplane : (planeBytes w nx ny mags).length = (p + 7) / 8 := planeBytes_length w nx ny mags
  have hsigns : (signBits (zeroDc img)).length = nsigns := signBits_length _
  obtain ⟨h0, h1⟩ := encodeStream_magic w c nx ny img
  refine ⟨?_, h0, h1, fun k hk => ⟨encodeStream_nx w c nx ny img hk, encodeStream_ny w c nx ny img hk,
    encodeStream_scale w c nx ny img hk⟩, fun k hk => encodeStream_dc w c nx ny img hk,
    fun q hq => encodeStream_planeCount w c nx ny img hq, fun k hk => ?_, fun k hk j hj => ?_⟩
  · rw [← hplane, ← hsigns, ← packBits_length]
    exact encodeStream_length w c nx ny img
  · exact (encodeStream_skip_header w c nx ny img k).trans (List.getElem?_append_left (by rwa [hplane]))
  · have hbyte : stream[25 + (p + 7) / 8 + k]? = (packBits (signBits (zeroDc img)))[k]? := by
      rw [Nat.add_assoc]
      exact (encodeStream_skip_header w c nx ny img _).trans (getElem?_append_skip hplane k)
    rw [hbyte]
    exact packBits_getLsbD (by rwa [hsigns]) hj

/-- Settles O54: the four quadrants of `quadrants` with their elements written as offsets of the image's. -/
theorem planeStreamIsTheFourQuadrants : Obligations.PlaneStreamIsTheFourQuadrants := by
  unfold Obligations.PlaneStreamIsTheFourQuadrants
  intro w nx ny mags nx2 ny2 m planes
  have hquadrant (q : Quadrant) {px : Nat → Nat → Int} (hpx : ∀ i j, q.pixel ny mags i j = px i j) :
      q.chunks w nx ny mags = planes q.rows q.cols px q.category := q.chunks_eq w nx ny mags hpx
  have hnx : nx / 2 = nx - nx2 := by omega
  have hny : ny / 2 = ny - ny2 := by omega
  simp only [planeStreamChunks, quadrants, hnx, hny, List.flatMap_cons, List.flatMap_nil, List.append_nil]
  rw [hquadrant _ (px := fun i j => m i j) fun i j => by simp only [Quadrant.pixel, m, Nat.zero_add],
    hquadrant _ (px := fun i j => m i (ny2 + j)) fun i j => ?_,
    hquadrant _ (px := fun i j => m (nx2 + i) j) fun i j => ?_,
    hquadrant _ (px := fun i j => m (nx2 + i) (ny2 + j)) fun i j => ?_]
  · simp only [List.append_assoc]
    rfl
  all_goals
    simp only [Quadrant.pixel, m]
    congr 1
    ring

/-- Settles O56: `planeCount_le_iff`. -/
theorem planeCountIsTheLeastBitLength : Obligations.PlaneCountIsTheLeastBitLength := by
  unfold Obligations.PlaneCountIsTheLeastBitLength
  exact planeCount_le_iff

/-- Settles O57: zero elements have no sign bit, and only element 0 is replaced before the magnitudes. -/
theorem signsAreStrippedInOrder : Obligations.SignsAreStrippedInOrder := by
  unfold Obligations.SignsAreStrippedInOrder
  exact fun w img => ⟨signBits_eq_flatMap img, fun e hpos he => magnitudes_getD_of_pos w img hpos he,
    magnitudes_getD_zero w img⟩

/-- Settles O59: with no plane and no sign the stream is its header and the padded terminator. -/
theorem allZeroImageStream : Obligations.AllZeroImageStream := by
  unfold Obligations.AllZeroImageStream
  intro w c nx ny
  have h := encodeStream_zeros w c nx ny (nx * ny)
  refine ⟨h, ?_⟩
  rw [h]
  simp [headerBytes, Rom.magic]

end Sys2Proof.Proofs
end

section
/-! SUPPORT. Plane bytes through the writer (44_driver.md R217): what a writer holds after whole bytes of bits, and the
padding that a finish adds. -/

namespace Sys2Proof.Machine

open Sys2Proof (Byte)
open Sys2Proof.Safety

/-! ## Whole bytes in a writer -/

/-- A string that reaches less than a byte past the capacity has not overflowed the writer. -/
theorem Sink.Traces.ovf_eq_false {k : Sink} {bits : List Bool} (h : k.Traces bits)
    (hfit : bits.length < 8 * k.bw.cap.toNat + 8) : k.bw.ovf = false := by
  by_contra hovf
  obtain ⟨-, -, hlen⟩ := h.dropped (by simpa using hovf)
  omega

theorem storedBits_eq_flatMap {k : Sink} (h : Stored k) :
    storedBits k =
      ((List.range k.bw.cur.toNat).map fun a => (Memory.read k.out a).getD 0).flatMap fun b => msbBits 8 b.toNat := by
  rw [storedBits, List.flatMap_map]
  refine List.flatMap_congr fun a ha => ?_
  obtain ⟨b, hb⟩ := Option.isSome_iff_exists.mp (h a (List.mem_range.mp ha))
  rw [byteBits, hb]
  rfl

theorem read_of_storedBits_eq {k : Sink} (h : Stored k) {bytes : List Byte}
    (hbits : storedBits k = bytes.flatMap fun b => msbBits 8 b.toNat) {a : Nat} (ha : a < bytes.length) :
    Memory.read k.out a = bytes[a]? := by
  rw [storedBits_eq_flatMap h] at hbits
  have hbytes := bytes_eq_of_bits_eq _ _ hbits
  have hlen : bytes.length = k.bw.cur.toNat := by rw [← hbytes, List.length_map, List.length_range]
  obtain ⟨b, hb⟩ := Option.isSome_iff_exists.mp (h a (hlen ▸ ha))
  simp [← hbytes, hb, hlen ▸ ha]

/-- A writer to which whole bytes were passed, all within its capacity, holds these bytes and nothing pending. -/
theorem Sink.Traces.of_bytes {k : Sink} {bytes : List Byte} (h : k.Traces (bytes.flatMap fun b => msbBits 8 b.toNat))
    (hfit : bytes.length ≤ k.bw.cap.toNat) :
    (∀ a < bytes.length, Memory.read k.out a = bytes[a]?) ∧ k.bw.cur.toNat = bytes.length ∧ k.bw.ovf = false ∧
      k.bw.free = 8 ∧ k.bw.acc = 0 := by
  have hlen : (bytes.flatMap fun b => msbBits 8 b.toNat).length = 8 * bytes.length := by
    simp [Nat.mul_comm]
  have hovf := h.ovf_eq_false (by omega)
  have hcur := h.length_eq hovf
  obtain ⟨hfree, hfree8, hacc, -⟩ := h.ok
  have h8 : k.bw.free.toNat = 8 := by omega
  have hbits : storedBits k = bytes.flatMap fun b => msbBits 8 b.toNat := by
    have := h.whole hovf
    rwa [pendingBits, h8, Nat.sub_self, List.length_eq_zero_iff.mp (msbBits_length 0 _), List.append_nil] at this
  rw [h8] at hacc
  exact ⟨fun a ha => read_of_storedBits_eq h.stored hbits ha, by omega, hovf, BitVec.eq_of_toNat_eq h8,
    BitVec.eq_of_toNat_eq (Nat.lt_one_iff.mp hacc)⟩

/-! ## The padding of a finish -/

/-- Without overflow a finish pads the string to a whole number of bytes. -/
theorem Sink.Traces.finish_bits {k : Sink} {bits : List Bool} (h : k.Traces bits) (hovf : k.bw.ovf = false) :
    WriterOp.finish.bits k = List.replicate (8 * ((bits.length + 7) / 8) - bits.length) false := by
  have hlen := h.length_eq hovf
  have hfree := h.ok.freePos
  have hfree8 := h.ok.freeLe
  rw [WriterOp.bits]
  split
  · rw [show 8 * ((bits.length + 7) / 8) - bits.length = k.bw.free.toNat by omega]
  · rw [show 8 * ((bits.length + 7) / 8) - bits.length = 0 by omega]
    rfl

/-- So a string that fits, finished, is its packed bytes. -/
theorem Sink.Traces.finish_packed {k : Sink} {bits : List Bool} (h : k.Traces bits) (hovf : k.bw.ovf = false) :
    k.finish.Traces ((packBits bits).flatMap fun b => msbBits 8 b.toNat) := by
  rw [packBits_bits, ← h.finish_bits hovf]
  exact writerOp_traces h (op := .finish) rfl

theorem Sink.Traces.finish_bitcount {k : Sink} {bits : List Bool} (h : k.Traces bits) (hovf : k.bw.ovf = false) :
    k.finish.bw.bitcount + BitVec.ofNat 64 bits.length =
      k.bw.bitcount + BitVec.ofNat 64 (8 * (packBits bits).length) := by
  have hcount : k.finish.bw.bitcount = _ := writerOp_bitcount k .finish
  rw [hcount, h.finish_bits hovf, List.length_replicate, packBits_length, BitVec.add_assoc, ← BitVec.ofNat_add,
    Nat.sub_add_cancel (by omega)]

end Sys2Proof.Machine
end

section
/-! PROOFS. The statement about the plane bytes in the writer (44_driver.md R217), and ENCODE with a CAPACITY that no
stream fits (R226). -/

namespace Sys2Proof.Proofs

open Sys2Proof Sys2Proof.Machine Sys2Proof.Safety

/-- Settles O55: the PutBits calls leave the plane stream's bits, and a finish pads them to the packed bytes. -/
theorem planeBytesAreTheWritersOwn : Obligations.PlaneBytesAreTheWritersOwn := by
  unfold Obligations.PlaneBytesAreTheWritersOwn
  intro cap out w nx ny mags hfit k
  let k1 := Sink.putAll ⟨Writer.fresh cap, out⟩ (planeStreamChunks w nx ny mags)
  let bits := chunkBits (planeStreamChunks w nx ny mags)
  have htrace : k1.Traces bits := Sink.traces_putAll _ _ [] (Sink.traces_fresh cap out) planeStreamChunks_le
  have hcap1 : k1.bw.cap = cap := (Sink.putAll_grows _ _).cap
  have hcap : k.bw.cap = cap := (Sink.finish_grows k1).cap.trans hcap1
  have hlen : (planeBytes w nx ny mags).length = (bits.length + 7) / 8 := planeBytes_length w nx ny mags
  have hovf1 : k1.bw.ovf = false := htrace.ovf_eq_false (by rw [hcap1]; omega)
  obtain ⟨hbytes, hcur, hovf, hfree, hacc⟩ := (htrace.finish_packed hovf1).of_bytes (by rwa [hcap])
  have hcount1 : k1.bw.bitcount = BitVec.ofNat 64 bits.length :=
    (Sink.putAll_bitcount_chunkBits _ _).trans (BitVec.zero_add _)
  have hcount := htrace.finish_bitcount hovf1
  rw [hcount1, BitVec.add_comm] at hcount
  exact ⟨hbytes, hcur, hovf, hfree, hacc, (BitVec.add_right_inj _).mp hcount⟩

/-- Settles O58: the header and the terminator's byte are 26, so with CAPACITY at most 26 ENCODE fails its checks or the
length test. -/
theorem streamsHaveAtLeast26Bytes : Obligations.StreamsHaveAtLeast26Bytes := by
  unfold Obligations.StreamsHaveAtLeast26Bytes
  refine ⟨encodeStream_length_ge, fun s t hcap h => ?_⟩
  cases he : s.encodeError with
  | some c =>
    rw [exec_of_argumentError (i := .encode) he] at h
    cases h
    rfl
  | none =>
    obtain ⟨-, rfl⟩ := exec_encode_inv he h
    have hlen : 26 ≤ streamLength s (image s) := encodeStream_length_ge ..
    rw [State.encodeOutcome_of_not_lt (by omega)]
    rfl

end Sys2Proof.Proofs
end

section
/-! SUPPORT. The two ends of ENCODE and COMPRESS (44_driver.md R219 to R224): the states of their tables, and what they
depend on. -/

namespace Sys2Proof.Machine

open Sys2Proof.Safety

/-! ## Success (R220) -/

theorem magnitudes_length (w : Nat) (img : List Int) : (magnitudes w img).length = img.length := by
  simp [magnitudes, zeroDc]

theorem wrap_of_mem_magnitudes {w : Nat} {img : List Int} (h : ∀ v ∈ img, wrap w v = v) {m : Int}
    (hm : m ∈ magnitudes w img) : wrap w m = m := by
  obtain ⟨v, hv, rfl⟩ := List.mem_map.mp hm
  obtain hv | rfl := List.mem_or_eq_of_mem_set hv
  · exact wrap_magnitude (h v hv)
  · exact wrap_magnitude (wrap_zero w)

/-- A length below CAPACITY fits a register. -/
theorem streamLength_toNat {s : State} {img : List Int} (hlt : streamLength s img < s.latch.cfg.capacity.toNat) :
    (BitVec.ofNat 32 (streamLength s img)).toNat = streamLength s img :=
  Nat.mod_eq_of_lt (hlt.trans s.latch.cfg.capacity.isLt)

theorem encodedAs_encodeSuccess {s : State} {img : List Int} (hl : img.length = s.rows * s.cols)
    (hw : ∀ v ∈ img, wrap s.w v = v) (hlt : streamLength s img < s.latch.cfg.capacity.toNat) :
    encodedAs s (s.encodeSuccess img) img where
  stream := storesAt_of_out_eq (State.encodeSuccess_out s img)
  bytesUsed := by rw [State.encodeSuccess_bytesUsed, streamLength_toNat hlt]
  cap := by rw [State.encodeSuccess_bw]; rfl
  cur := by rw [State.encodeSuccess_bw, streamLength_toNat hlt]
  acc := by rw [State.encodeSuccess_bw]; rfl
  free := by rw [State.encodeSuccess_bw]; rfl
  ovf := by rw [State.encodeSuccess_bw]; rfl
  bitcount := by rw [State.encodeSuccess_bw]
  nbp := State.encodeSuccess_nbp s img
  dc := State.encodeSuccess_dc s img
  coef := by
    rw [← magnitudes_eq hw]
    exact State.storeImage_becomes (by rw [magnitudes_length, hl]) (State.encodeSuccess_coef s img)
      (State.encodeSuccess_params s img) fun m hm => wrap_of_mem_magnitudes hw hm
  frame := by apply State.ext_fields <;> simp [doneStatus]

/-- A command of a running core starts with RESULT cleared, and ENCODE does not set it. -/
theorem encodeSuccess_result {s : State} (hs : Inv s) (hbusy : s.seq = .busy) (img : List Int) :
    (s.encodeSuccess img).status.result = false := by
  obtain ⟨-, -, hresult, -⟩ := hs.status.busyClear hbusy
  rw [State.encodeSuccess_status]
  exact hresult

/-! ## CAPACITY (R221) -/

theorem overflowedAs_encodeOverflow (s : State) : overflowedAs s s.encodeOverflow where
  out a ha := Memory.read_writeList_outside _ _ (.inr (by simpa using ha))
  coef e he := Memory.read_writeList_outside _ _ (.inr (by simpa using he))
  cap := rfl
  free := ⟨(s.drawnWriter_ok _ _).freePos, (s.drawnWriter_ok _ _).freeLe⟩
  acc := (s.drawnWriter_ok _ _).accLt
  cur := (s.drawnWriter_ok _ _).curLe
  frame := rfl

/-! ## What ENCODE and COMPRESS depend on (R224) -/

/-- The image a command encodes. -/
def encodedImage (s : State) : Instr → List Int
  | .compress => compressImage s.w s.rows s.cols s.scale (image s)
  | _ => image s

theorem exec_encoder_inv {i : Instr} (hi : i ∈ [Instr.encode, .compress]) {s t : State} (he : s.encodeError = none)
    (h : exec i s = .next t) : t = s.encodeOutcome (encodedImage s i) := by
  obtain rfl | rfl : i = .encode ∨ i = .compress := by simpa using hi
  · exact (exec_encode_inv he h).2
  · exact (exec_compress_inv he h).2

/-- Completed without an error, the checks and the length test have passed. -/
theorem exec_encoder_success {i : Instr} (hi : i ∈ [Instr.encode, .compress]) {s t : State} (h : exec i s = .next t)
    (herr : t.status.err = false) :
    s.encodeError = none ∧ streamLength s (encodedImage s i) < s.latch.cfg.capacity.toNat ∧
      t = s.encodeSuccess (encodedImage s i) := by
  have hcheck : s.argumentError i = s.encodeError := by
    obtain rfl | rfl : i = .encode ∨ i = .compress := by simpa using hi
    · rfl
    · rfl
  cases he : s.encodeError with
  | some c =>
    rw [exec_of_argumentError (hcheck.trans he)] at h
    cases h
    cases herr
  | none =>
    have ht := exec_encoder_inv hi he h
    by_cases hlt : streamLength s (encodedImage s i) < s.latch.cfg.capacity.toNat
    · exact ⟨rfl, hlt, by rw [ht, State.encodeOutcome_of_lt hlt]⟩
    · rw [ht, State.encodeOutcome_of_not_lt hlt, State.encodeOverflow_status] at herr
      cases herr

/-- Two states with the same parameters and latched registers. -/
structure SameCall (s t : State) : Prop where
  params : s.params = t.params
  cfg    : s.latch.cfg = t.latch.cfg

section
variable {s t : State} (h : SameCall s t)
include h

theorem SameCall.w : s.w = t.w := by rw [State.w, State.w, h.params]

theorem SameCall.rows : s.rows = t.rows := by rw [State.rows, State.rows, State.nx, State.nx, h.cfg]

theorem SameCall.cols : s.cols = t.cols := by rw [State.cols, State.cols, State.ny, State.ny, h.cfg]

theorem SameCall.encodeError : s.encodeError = t.encodeError := by
  have hgeometry : s.badGeometry = t.badGeometry := by
    rw [State.badGeometry, State.badGeometry, State.nx, State.nx, State.ny, State.ny, h.cfg]
  have hcapacity : s.badCapacity = t.badCapacity := by rw [State.badCapacity, State.badCapacity, h.params, h.cfg]
  have hlarge : s.tooLarge = t.tooLarge := by rw [State.tooLarge, State.tooLarge, h.params, h.rows, h.cols]
  rw [State.encodeError, State.encodeError, hgeometry, hcapacity, hlarge]

/-- The image is what the elements of the latched geometry hold. -/
theorem SameCall.image (hread : ∀ e < s.rows * s.cols, Memory.read s.coef e = Memory.read t.coef e) :
    image s = image t := by
  rw [Safety.image, Safety.image, ← h.rows, ← h.cols]
  refine List.map_congr_left fun e he => ?_
  rw [coefValue, coefValue, hread e (List.mem_range.mp he), h.w]

theorem SameCall.encodedImage (himg : Safety.image s = Safety.image t) (i : Instr) :
    encodedImage s i = encodedImage t i := by
  have hscale : s.scale = t.scale := by rw [State.scale, State.scale, h.cfg]
  unfold Machine.encodedImage
  split
  · rw [h.w, h.rows, h.cols, hscale, himg]
  · exact himg

theorem SameCall.stream (img : List Int) :
    encodeStream s.w s.latch.cfg s.rows s.cols img = encodeStream t.w t.latch.cfg t.rows t.cols img := by
  rw [h.w, h.cfg, h.rows, h.cols]

theorem SameCall.streamLength (img : List Int) : streamLength s img = streamLength t img :=
  congrArg List.length (h.stream img)

theorem SameCall.encodeSuccess_bw (img : List Int) : (s.encodeSuccess img).bw = (t.encodeSuccess img).bw := by
  rw [State.encodeSuccess_bw, State.encodeSuccess_bw, h.streamLength, h.cfg, h.w, h.rows, h.cols]

theorem SameCall.encodeSuccess_nbp (img : List Int) : (s.encodeSuccess img).nbp = (t.encodeSuccess img).nbp := by
  rw [State.encodeSuccess_nbp, State.encodeSuccess_nbp, h.w, h.rows, h.cols]

theorem SameCall.encodeSuccess_bytesUsed (img : List Int) :
    (s.encodeSuccess img).bytesUsed = (t.encodeSuccess img).bytesUsed := by
  rw [State.encodeSuccess_bytesUsed, State.encodeSuccess_bytesUsed, h.streamLength]

theorem SameCall.encodeSuccess_out (img : List Int) {k : Nat} (hk : k < Safety.streamLength s img) :
    Memory.read (s.encodeSuccess img).out k = Memory.read (t.encodeSuccess img).out k := by
  obtain ⟨hs, -⟩ := storesAt_of_out_eq (State.encodeSuccess_out s img)
  obtain ⟨ht, -⟩ := storesAt_of_out_eq (State.encodeSuccess_out t img)
  have hkt : k < Safety.streamLength t img := by rwa [← h.streamLength]
  have hread := (hs k hk).trans ((congrArg (·[k]?) (h.stream img)).trans (ht k hkt).symm)
  rwa [Nat.zero_add] at hread

end

end Sys2Proof.Machine
end

section
/-! PROOFS. The statements about how ENCODE and COMPRESS end (44_driver.md R220, R221, R224). -/

namespace Sys2Proof.Proofs

open Sys2Proof Sys2Proof.Machine Sys2Proof.Safety

/-- Settles O50: both end in `State.encodeSuccess` of W-bit values, which is the table's state. -/
theorem encodeAndCompressSucceed : Obligations.EncodeAndCompressSucceed := by
  unfold Obligations.EncodeAndCompressSucceed
  intro s hgood hfit hw
  have he := State.encodeError_eq_none hgood hfit
  refine ⟨fun hlt => ?_, fun hlt => ?_⟩
  · refine ⟨s.encodeSuccess (image s), ?_, ?_, fun hs hbusy => encodeSuccess_result hs hbusy _⟩
    · rw [exec_encode_of_written he hw, State.encodeOutcome_of_lt hlt]
    · exact encodedAs_encodeSuccess (image_length s) (fun v hv => wrap_of_mem_image hv) hlt
  · refine ⟨s.encodeSuccess (compressImage s.w s.rows s.cols s.scale (image s)), ?_, ?_,
      fun hs hbusy => encodeSuccess_result hs hbusy _⟩
    · rw [exec_compress_of_written he hw]
      exact congrArg _ (State.encodeOutcome_of_lt hlt)
    · exact encodedAs_encodeSuccess (by simp) (compressImage_wrapped s) hlt

/-- Settles O51: both end in `State.encodeOverflow`, whose draws stay inside what the table leaves open. -/
theorem capacityFailureState : Obligations.CapacityFailureState := by
  unfold Obligations.CapacityFailureState
  intro s hgood hfit hw
  have he := State.encodeError_eq_none hgood hfit
  refine ⟨fun hle => ⟨_, ?_, overflowedAs_encodeOverflow s⟩, fun hle => ⟨_, ?_, overflowedAs_encodeOverflow s⟩⟩
  · rw [exec_encode_of_written he hw, State.encodeOutcome_of_not_lt hle.not_gt]
  · rw [exec_compress_of_written he hw, State.encodeOutcome_of_not_lt hle.not_gt]

/-- Settles O60: the checks, the length test and the state of success read only the parameters, the latched registers
and the image. -/
theorem encodingIsDeterministic : Obligations.EncodingIsDeterministic := by
  unfold Obligations.EncodingIsDeterministic
  intro i hi s t a b hp hc hread ha hb herr
  have h : SameCall s t := ⟨hp, hc⟩
  obtain ⟨he, hlt, rfl⟩ := exec_encoder_success hi ha herr
  have hbe : b = t.encodeOutcome (encodedImage t i) := exec_encoder_inv hi (h.encodeError ▸ he) hb
  rw [← h.encodedImage (h.image hread) i, State.encodeOutcome_of_lt (by rwa [← h.streamLength, ← h.cfg])] at hbe
  subst hbe
  refine ⟨by rw [State.encodeSuccess_status], h.encodeSuccess_bytesUsed _, h.encodeSuccess_nbp _, ?_,
    h.encodeSuccess_bw _, fun k hk => h.encodeSuccess_out _ ?_⟩
  · rw [State.encodeSuccess_dc, State.encodeSuccess_dc]
  · rwa [State.encodeSuccess_bytesUsed, streamLength_toNat hlt] at hk

end Sys2Proof.Proofs
end

section
/-! SUPPORT. COMPRESS as a pipeline (44_driver.md R222): what TRANSFORM and QUANTIZE leave when they succeed, and ENCODE
after them. -/

namespace Sys2Proof.Machine

open Sys2Proof (Elem)
open Sys2Proof.Safety

/-! ## An image replaced in place -/

/-- t is s after a success that made its image `vals`: nothing else but SEQ and STATUS differs, and the old image is
forgotten once the new one is written over. -/
structure InPlace (s t : State) (vals : List Int) : Prop where
  frame   : completedAs s t (doneStatus s) s.bw s.out t.coef
  image   : image t = vals
  written : imageWritten t → imageWritten s
  forget  : ∀ ws : List Elem, ws.length = s.rows * s.cols → Memory.writeList t.coef 0 ws = Memory.writeList s.coef 0 ws

theorem InPlace.sameCall {s t : State} {vals : List Int} (h : InPlace s t vals) : SameCall t s := by
  rw [h.frame]
  exact ⟨rfl, rfl⟩

theorem inPlace_complete (s : State) : InPlace s s.complete (image s) := ⟨rfl, rfl, id, fun _ _ => rfl⟩

theorem image_of_imageBecomes {s t : State} {vals : List Int} (h : imageBecomes s t vals) (hc : SameCall t s)
    (hl : vals.length = s.rows * s.cols) : image t = vals := by
  obtain ⟨himg, -⟩ := h
  refine List.ext_getElem (by rw [image_length, hc.rows, hc.cols, hl]) fun e he hv => ?_
  obtain ⟨-, hval⟩ := himg e (hl ▸ hv)
  simpa [image, List.getD, hv] using hval

theorem inPlace_storeImage {s : State} {vals : List Int} (hwf : Memory.wf s.coef) (hw : imageWritten s)
    (hl : vals.length = s.rows * s.cols) (hv : AllWrapped s.w vals) : InPlace s (s.storeImage vals).complete vals where
  frame := rfl
  image := image_of_imageBecomes (State.storeImage_becomes hl rfl rfl ((allWrapped_iff _ _).mp hv)) ⟨rfl, rfl⟩ hl
  written _ := hw
  forget ws hws := Memory.writeList_writeList hwf 0 _ ws (by rw [List.length_map, hl, hws])

theorem InPlace.trans {s a b : State} {us vs : List Int} (h : InPlace s a us) (h' : InPlace a b vs) :
    InPlace s b vs where
  frame := by
    have hb : b = { a with seq := .idle, status := doneStatus a, coef := b.coef, delay := 0 } := h'.frame
    rw [h.frame] at hb
    exact hb
  image := h'.image
  written hw := h.written (h'.written hw)
  forget ws hl := by rw [h'.forget ws (by rw [h.sameCall.rows, h.sameCall.cols, hl]), h.forget ws hl]

/-! ## The stages -/

theorem exec_transform_inPlace {s t : State} (hwf : Memory.wf s.coef) (h : exec .transform s = .next t)
    (herr : t.status.err = false) : InPlace s t (hTransform s.w s.rows s.cols (image s)) := by
  cases he : s.geometryError with
  | some c =>
    rw [exec_of_argumentError (i := .transform) he] at h
    cases h
    cases herr
  | none =>
    by_cases hl : levelCount s.rows s.cols = 0
    · rw [exec_transform_of_no_level he hl] at h
      cases h
      rw [hTransform_of_no_level hl]
      exact inPlace_complete s
    · simp only [exec, execTransform, he, if_neg hl] at h
      split at h
      · cases h
      · obtain ⟨hw, rfl⟩ := (s.loadImage_eq_some_iff _).mp ‹_›
        cases h
        exact inPlace_storeImage hwf hw (by simp) (allWrapped_hTransform s.w_pos (image_wrapped s))

theorem exec_quantize_inPlace {s t : State} (hwf : Memory.wf s.coef) (h : exec .quantize s = .next t)
    (herr : t.status.err = false) : InPlace s t ((image s).map fun x => quantize s.w x s.scale) := by
  cases he : s.geometryError with
  | some c =>
    rw [exec_of_argumentError (i := .quantize) he] at h
    cases h
    cases herr
  | none =>
    by_cases hscale : s.scale ≤ 1
    · rw [exec_quantize_of_scale_le_one he hscale] at h
      cases h
      simp only [quantize_of_le_one _ _ hscale, List.map_id']
      exact inPlace_complete s
    · simp only [exec, execQuantize, he, if_neg hscale] at h
      split at h
      · cases h
      · obtain ⟨hw, rfl⟩ := (s.loadImage_eq_some_iff _).mp ‹_›
        cases h
        refine inPlace_storeImage hwf hw (by simp) ((allWrapped_iff _ _).mpr fun v hv => ?_)
        obtain ⟨x, hx, rfl⟩ := List.mem_map.mp hv
        exact wrap_quantize (wrap_of_mem_image hx) s.scale

/-- TRANSFORM and QUANTIZE in turn leave the image that COMPRESS encodes. -/
theorem inPlace_transform_quantize {s a b : State} (hs : Inv s) (ha : exec .transform s = .next a)
    (haerr : a.status.err = false) (hb : exec .quantize a = .next b) (hberr : b.status.err = false) :
    InPlace s b (compressImage s.w s.rows s.cols s.scale (image s)) := by
  have hsa := exec_transform_inPlace hs.memories.coefWf ha haerr
  have hab := exec_quantize_inPlace ((exec_effect ha).inv hs).memories.coefWf hb hberr
  have hscale : a.scale = s.scale := by rw [State.scale, State.scale, hsa.sameCall.cfg]
  rw [hsa.image, hsa.sameCall.w, hscale] at hab
  exact hsa.trans hab

/-- ENCODE after a replacement in place leaves what it leaves without it, given the same image. -/
theorem InPlace.encodeSuccess_eq {s t : State} {vals img : List Int} (h : InPlace s t vals)
    (hl : img.length = s.rows * s.cols) : t.encodeSuccess img = s.encodeSuccess img := by
  have hc := h.sameCall
  have hframe : t = { s with seq := .idle, status := doneStatus s, coef := t.coef, delay := 0 } := h.frame
  have hout : t.out = s.out := by rw [hframe]
  have hstatus : t.status = doneStatus s := by rw [hframe]
  apply State.ext_fields
  case h3 =>
    rw [State.encodeSuccess_status, State.encodeSuccess_status, hstatus]
    rfl
  case h6 => exact hc.encodeSuccess_bytesUsed img
  case h7 => exact hc.encodeSuccess_nbp img
  case h9 => exact hc.encodeSuccess_bw img
  case h10 =>
    rw [State.encodeSuccess_coef, State.encodeSuccess_coef, hc.w]
    exact h.forget _ (by rw [List.length_map, magnitudes_length, hl])
  case h11 => rw [State.encodeSuccess_out, State.encodeSuccess_out, hc.stream, hout]
  all_goals simp only [State.encodeSuccess_params, State.encodeSuccess_seq, State.encodeSuccess_cfg,
    State.encodeSuccess_latch, State.encodeSuccess_dc, State.encodeSuccess_stage, State.encodeSuccess_inbox,
    State.encodeSuccess_replies, State.encodeSuccess_delay, State.encodeSuccess_draws]
  all_goals rw [hframe]

end Sys2Proof.Machine
end

section
/-! PROOFS. The statement about COMPRESS as a pipeline (44_driver.md R222). -/

namespace Sys2Proof.Proofs

open Sys2Proof Sys2Proof.Machine Sys2Proof.Safety

/-- Settles O52: the first two commands replace the image in place, and the third succeeds on it as COMPRESS does. -/
theorem compressIsThePipeline : Obligations.CompressIsThePipeline := by
  unfold Obligations.CompressIsThePipeline
  intro s a b t hs ha haerr hb hberr ht hterr
  have h := inPlace_transform_quantize hs ha haerr hb hberr
  obtain ⟨he, hlt, rfl⟩ := exec_encoder_success (i := .encode) (by simp) ht hterr
  have himg : encodedImage b .encode = compressImage s.w s.rows s.cols s.scale (image s) := h.image
  rw [himg] at hlt ⊢
  have hlt' : streamLength s (compressImage s.w s.rows s.cols s.scale (image s)) < s.latch.cfg.capacity.toNat := by
    rwa [← h.sameCall.streamLength, ← h.sameCall.cfg]
  have hw := h.written (exec_encode_inv he ht).1
  rw [exec_compress_of_written (h.sameCall.encodeError ▸ he) hw, State.encodeOutcome_of_lt hlt',
    h.encodeSuccess_eq (by simp)]

end Sys2Proof.Proofs
end
